-- ==== Sys2Proof/Word.lean ====
section
/-! DEFINITION. The word and byte types of the block (00_scope.md R10: registers and addresses are 32 bits, a memory byte is 8). -/

namespace Sys2Proof

/-- A register value, a command word or a buffer address (R10). -/
abbrev Word := BitVec 32

/-- One sample, one byte of M (R10, R51). -/
abbrev Byte := BitVec 8

end Sys2Proof
end

