-- ==== Sys2Proof/Config.lean ====
section
/-! DEFINITION. What the platform fixes (00_scope.md R9), and two free values: the bytes of M at power-up (70_reset_and_hazards.md R160) and the bytes that a reset of a running command leaves (R159). -/

namespace Sys2Proof

/-- A contiguous range of byte addresses `[base, base + size)`, its end an unbounded number (R55). -/
structure Window where
  base : Nat
  size : Nat
deriving DecidableEq, Repr

/-- The parameters of R9, constant while the machine runs (log 1), and the ranges of M that are not ordinary memory (R54, R167; log 11). -/
structure Params where
  /-- MEM_BYTES: how many bytes M has. -/
  memBytes : Nat
  /-- MAX_DIM: the largest WIDTH and HEIGHT that GEOM accepts. -/
  maxDim   : Nat
  /-- REG_BASE: where the host sees the register window. -/
  regBase  : Nat
  /-- Ranges where a read has a side effect or a repeated access may differ. -/
  devices  : List Window
deriving DecidableEq, Repr

/-- The legal values of R9: MEM_BYTES 1 … 2^32, MAX_DIM 1 … 16384. -/
def Params.legal (p : Params) : Bool :=
  1 ≤ p.memBytes && p.memBytes ≤ 2 ^ 32 && 1 ≤ p.maxDim && p.maxDim ≤ 16384

/-- The platform of `State.reset`. MAX_DIM is the spec's default (R9).
DESIGN CHOICE (log 1), unsafe: MEM_BYTES = 2^32 and REG_BASE = 0, which R9 leaves OPEN, and no device in M. -/
def Config.platform : Params :=
  { memBytes := 2 ^ 32, maxDim := 8192, regBase := 0, devices := [] }

/-- What the byte of M at an address holds before anything has written it (R160; I17, `any value` for each byte). It has no body, so nothing is known of it (log 2). -/
opaque Config.powerUpByte : Nat → Byte

/-- A byte that R159 lets hold any value: the value of the n-th draw. It has no body, so nothing is known of it (log 7). -/
opaque Config.freeByte : Nat → Byte

end Sys2Proof
end

