-- ==== Sys2Proof/Syntax.lean ====
section
/-! DEFINITION. The six commands, the one command format, the register names and the lines of a host script (30_encoding.md, 10_state.md R20). -/

namespace Sys2Proof

/-- The six commands of spec/opcode_table.json (R69, R72). A command word carries no operand (R73, R74). -/
inductive Instr where
  | geom      -- GEOM
  | detileY   -- DETILE.Y
  | detileUV  -- DETILE.UV
  | crop      -- CROP
  | planar    -- PLANAR
  | frame     -- FRAME
deriving DecidableEq, Repr

/-- The one command format, 32 bits wide (R68): any word, legal or not, is one of these. -/
structure CmdFields where
  /-- RSVD, bits [31:5], must be 0 (R71). -/
  rsvd  : BitVec 27
  /-- PLANE, bit [4], DETILE only (R70). -/
  plane : BitVec 1
  /-- OP, bits [3:0] (R69). -/
  op    : BitVec 4
deriving DecidableEq, Repr

/-- Why a word is no command (R75): the three ways a word can be reserved. -/
inductive Illegal where
  /-- Some RSVD bit is set (R71). -/
  | rsvdSet
  /-- PLANE = 1 although OP is not DETILE (R70). -/
  | planeWithoutDetile
  /-- OP is 0x0 or 0x6 … 0xF (R69). -/
  | reservedOp
deriving DecidableEq, Repr

/-- The named registers of the window, in the order of R20. The offsets 0x24 … 0x3C have no name and no state (R33). -/
inductive Reg where
  | id | width | height | layout | srcAddr | dstAddr | scrAddr | cmd | status
  | gWidth | gHeight | gPWidth | gPHeight | gWTiles | gHTiles | gHTilesC | gLumaBytes
  | gChromaBytes | gTiledBytes | gLinearBytes | gCropRows | gLumaLen | gChromaLen | gUvOffset | gDstWindow
deriving DecidableEq, Repr

/-- One line of a host script (R77). `CMD` and `WAIT` are the only pseudo-instructions (R79). -/
inductive ScriptLine where
  /-- `WR <reg>, <value>`: a 32-bit register write. -/
  | wr (r : Reg) (value : Word)
  /-- `RD <reg>`: a 32-bit register read. -/
  | rd (r : Reg)
  /-- `CMD <mnemonic>`: the write of that command's word to CMD (R78). -/
  | cmd (i : Instr)
  /-- `CMD <n>`: the write of a number to CMD, unchanged (R78). -/
  | cmdWord (n : Word)
  /-- `WAIT`: read STATUS until BUSY = 0. -/
  | wait
  /-- `FILL <addr>, <n>, <f>`: host byte writes; the values f(0), f(1), … are written out. -/
  | fill (addr : Nat) (data : List Byte)
  /-- `CHECK <reg>, <value>` on the last RD of the register. -/
  | checkLast (r : Reg) (value : Word)
  /-- `CHECK <reg>, <value>` on the register's value. -/
  | checkReg (r : Reg) (value : Word)
deriving DecidableEq, Repr

end Sys2Proof
end

