-- ==== Sys2Proof/Machine/State.lean ====
section
/-! DEFINITION. The state of the block, of the memory it shares with the host, and of the host's side (10_state.md R20 … R40, 20_memory.md R50), as plain data; the ways a step can stop; the state after reset. -/

namespace Sys2Proof.Machine

/-- The bytes of M that something has written, as (address, byte) pairs in one canonical form (`Memory.wf`): addresses strictly rising (R50). An address it does not list holds its power-up byte, a free value (R160, I17; log 2). -/
abbrev Memory := List Host.Cell

/-- The sixteen descriptor registers G_WIDTH … G_DST_WINDOW (R20, R32). -/
structure Descriptor where
  width : Word
  height : Word
  pWidth : Word
  pHeight : Word
  wTiles : Word
  hTiles : Word
  hTilesC : Word
  lumaBytes : Word
  chromaBytes : Word
  tiledBytes : Word
  linearBytes : Word
  cropRows : Word
  lumaLen : Word
  chromaLen : Word
  uvOffset : Word
  dstWindow : Word
deriving DecidableEq, Repr

/-- All sixteen G_* registers 0: their reset value (R158), and what a failed GEOM leaves (R97). -/
def Descriptor.zero : Descriptor :=
  { width := 0, height := 0, pWidth := 0, pHeight := 0, wTiles := 0, hTiles := 0, hTilesC := 0,
    lumaBytes := 0, chromaBytes := 0, tiledBytes := 0, linearBytes := 0, cropRows := 0,
    lumaLen := 0, chromaLen := 0, uvOffset := 0, dstWindow := 0 }

/-- The error causes of R137 (NONE is the absence of one). -/
inductive ErrCode where
  | illegalCmd
  | invalidGeometry
  | noGeometry
  | bounds
  | overlap
deriving DecidableEq, Repr

/-- The two agents that step (R7, R172). -/
inductive Agent where
  | host
  | engine
deriving DecidableEq, Repr

/-- One move of the host (R7, R34, R35, R50, R77 … R79), or a reset of the block (R158). DESIGN CHOICE (log 20), safe: R158 and R159 say only "if reset arrives", not from whom; here it arrives as a move of this script, on a host turn. Bus addresses are absolute: the window stands at REG_BASE (R20). -/
inductive HostMove where
  /-- A read of `bytes` bytes at a bus address (R34, R53). -/
  | busRead (addr bytes : Nat)
  /-- A write of `bytes` bytes at a bus address (R35, R53). -/
  | busWrite (addr bytes : Nat) (data : Word)
  /-- Read STATUS until a read gives BUSY = 0 (R79). -/
  | wait
  /-- Write the bytes to M at `addr`, `addr + 1`, …, one byte a step (R77, R79; log 6). -/
  | fill (addr : Nat) (data : List Byte)
  /-- Read one byte of M (R50). -/
  | memRead (addr : Nat)
  /-- Compare a value with the last value read from a register, or with the register itself (R77; log 5). -/
  | check (onLastRead : Bool) (r : Reg) (value : Word)
  /-- Reset of the block arrives (R158, R159, R160). It stands in the host's script because the spec names no agent that brings it. DESIGN CHOICE (log 20), safe. -/
  | reset
deriving DecidableEq, Repr

/-- What the host has seen (R34, R50, R77; log 5). -/
inductive Observation where
  /-- A register read at a window offset returned this value. -/
  | reg (offset : Nat) (value : Word)
  /-- A read of M returned this byte. -/
  | mem (addr : Nat) (value : Byte)
  /-- A CHECK held or did not. -/
  | check (ok : Bool)
deriving DecidableEq, Repr

/-- The whole state: the block's record of R40, M, the platform's constants, and the outside world's moves. -/
structure State where
  /-- WIDTH.W (R22). -/
  width : BitVec 16
  /-- HEIGHT.H (R23). -/
  height : BitVec 16
  /-- LAYOUT.PLANAR (R24). -/
  layout : BitVec 1
  /-- SRC_ADDR (R25). -/
  srcAddr : Word
  /-- DST_ADDR (R26). -/
  dstAddr : Word
  /-- SCR_ADDR (R27). -/
  scrAddr : Word
  /-- STATUS.BUSY (R29, R31). -/
  busy : Bool
  /-- STATUS.DONE (R29). -/
  done : Bool
  /-- STATUS.ERR (R29). -/
  err : Bool
  /-- STATUS.GEOM_VALID (R29). -/
  geomValid : Bool
  /-- STATUS.WBUSY (R29, R149). -/
  wbusy : Bool
  /-- STATUS.ERRCODE (R29, R137). -/
  errcode : BitVec 4
  /-- The G_* registers (R32). -/
  g : Descriptor
  /-- PENDING (R36). -/
  pending : Option Word
  /-- M, shared with the host (R40, R50): the written bytes, over the power-up bytes (log 2). -/
  mem : Memory
  /-- MEM_BYTES, MAX_DIM, REG_BASE and the device ranges; no step changes them (R9; log 1). -/
  params : Params
  /-- The host's moves still to come (R77; log 3). -/
  script : List HostMove
  /-- Which agent takes each coming step; when it is used up, the engine goes before the host (R172, R173; log 4). -/
  turns : List Agent
  /-- What the host has seen, newest first (log 5). -/
  observed : List Observation
  /-- How many free bytes have been drawn (R159; log 7). -/
  draws : Nat
deriving DecidableEq, Repr

/-- The machine stops. -/
inductive Fault where
  /-- Raised by a host access to a byte of M at or above MEM_BYTES, which does not exist (R50; log 12). Safe: the run ends. -/
  | noSuchByte
deriving DecidableEq, Repr

/-- The model gives no meaning to the move. -/
inductive Refusal where
  /-- Raised by `exec` for a command without a meaning yet; none is left. Safe. -/
  | notModelled (mnemonic : String)
  /-- Raised by a host register access that is not 32 bits wide or not at a multiple of 4 (R53, "a model gives it no step and marks the run refused"). Safe. -/
  | accessForm
  /-- Raised by a host bus access that is not inside the register window (R20; log 9). Safe. -/
  | outsideRegisterWindow
  /-- Raised by a host access to a byte of a window the engine owns while BUSY = 1 (R61, R166, I11). Unsafe: the block does not check this duty, so the model assumes that the host keeps it, which errs toward proving (UNVERIFIED, log 21). -/
  | ownedByEngine
  /-- Raised by a command, a reset or a host access that would touch M where it is not ordinary memory (R54, R167, I12; log 11). Safe. -/
  | notOrdinaryMemory
deriving DecidableEq, Repr

/-- The machine right after reset (R158): every register 0, PENDING none. No byte of M has been written, so each holds its power-up byte (R160; log 2), no host move waits (log 3, log 4), nothing is observed (log 5), no byte drawn (log 7). -/
def State.reset : State :=
  { width := 0, height := 0, layout := 0, srcAddr := 0, dstAddr := 0, scrAddr := 0,
    busy := false, done := false, err := false, geomValid := false, wbusy := false, errcode := 0,
    g := Descriptor.zero, pending := none, mem := [], params := Config.platform,
    script := [], turns := [], observed := [], draws := 0 }

end Sys2Proof.Machine
end

