-- ==== Sys2Proof/Machine/Flags.lean ====
section
/-! DEFINITION. STATUS: its word, its write-1-to-clear bits, and the error codes it reports (10_state.md R29, R30; 60_exceptions.md R137). -/

namespace Sys2Proof.Machine

/-- The number of an error cause in STATUS.ERRCODE (R137). -/
def ErrCode.code : ErrCode → BitVec 4
  | .illegalCmd => 1
  | .invalidGeometry => 2
  | .noGeometry => 3
  | .bounds => 4
  | .overlap => 5

/-- One flag as one bit. -/
def flagBit (b : Bool) : BitVec 1 := BitVec.ofBool b

/-- STATUS as a word (R29): BUSY [0], DONE [1], ERR [2], GEOM_VALID [3], WBUSY [4], zeros [7:5], ERRCODE [11:8], zeros [31:12]. -/
def statusWord (s : State) : Word :=
  (0 : BitVec 20) ++ s.errcode ++ (0 : BitVec 3) ++ flagBit s.wbusy ++ flagBit s.geomValid
    ++ flagBit s.err ++ flagBit s.done ++ flagBit s.busy

/-- R30: a host write to STATUS, whatever BUSY is. Writing 1 clears DONE, ERR (with ERRCODE) or WBUSY; nothing else is writable. -/
def State.writeStatus (s : State) (data : Word) : State :=
  { s with
    done := s.done && !data.getLsbD 1
    err := s.err && !data.getLsbD 2
    errcode := if data.getLsbD 2 then 0 else s.errcode
    wbusy := s.wbusy && !data.getLsbD 4 }

end Sys2Proof.Machine
end

