-- ==== Sys2Proof/Machine/Ops.lean ====
section
/-! DEFINITION. The named operations over M (00_scope.md R15), over the registers (10_state.md R20 … R34) and over a command's life: issue, error completion, success completion (R28; 60_exceptions.md R146, R147). -/

namespace Sys2Proof.Machine

/-! ## M -/

/-- The byte that something has written to `a`, if anything has. -/
def Memory.lookup : Memory → Nat → Option Byte
  | [], _ => none
  | (k, b) :: rest, a => if k = a then some b else Memory.lookup rest a

/-- `M[a]` (R15): the byte written there, or the power-up byte, of which nothing is known (R160, I17; log 2). -/
def Memory.read (m : Memory) (a : Nat) : Byte := (m.lookup a).getD (Config.powerUpByte a)

/-- The cells of M at addresses in `[a, a + n)`. -/
def Memory.slice (m : Memory) (a n : Nat) : Memory :=
  m.filter (fun c => a ≤ c.1 && c.1 < a + n)

/-- The bytes `M[a], M[a+1], …, M[a+n-1]` read one after the other. -/
def Memory.bytes (m : Memory) (a n : Nat) : List Byte :=
  (List.range n).map (fun k => m.read (a + k))

/-- `MemRead(a, n)` (R15). Only the cells of the range are searched. -/
def Memory.readRange (m : Memory) (a n : Nat) : List Byte :=
  (m.slice a n).bytes a n

/-- The cells that hold these bytes from address `a` on. -/
def Memory.cells : Nat → List Byte → Memory
  | _, [] => []
  | a, b :: rest => (a, b) :: Memory.cells (a + 1) rest

/-- `MemWrite(a, n, v)` with n the length of v (R15): byte `v[k]` to `M[a+k]`. -/
def Memory.writeRange (m : Memory) (a : Nat) (v : List Byte) : Memory :=
  m.filter (fun c => c.1 < a) ++ (Memory.cells a v ++ m.filter (fun c => a + v.length ≤ c.1))

/-- `M[a] <- b`. -/
def Memory.write (m : Memory) (a : Nat) (b : Byte) : Memory := m.writeRange a [b]

/-- `copy(d, s, n)` (R15). -/
def Memory.copy (m : Memory) (d s n : Nat) : Memory := m.writeRange d (m.readRange s n)

/-- `M[d] <- M[s]`. -/
def Memory.move (m : Memory) (d s : Nat) : Memory := m.write d (m.read s)

/-- The cell `c` may precede the cells `m`: its address is lower than all of theirs. -/
def Memory.below (a : Nat) (m : Memory) : Bool := m.all (fun c => a < c.1)

/-- The canonical form: addresses strictly rising. -/
def Memory.wf : Memory → Bool
  | [] => true
  | (a, _) :: rest => Memory.below a rest && Memory.wf rest

/-- Every listed byte exists: its address is below `n` (R50). -/
def Memory.within (m : Memory) (n : Nat) : Bool := m.all (fun c => c.1 < n)

/-- `for i in [0, n)` in increasing order (R16). -/
def loop {α : Type} (n : Nat) (body : Nat → α → α) (x : α) : α :=
  match n with
  | 0 => x
  | k + 1 => body k (loop k body x)

/-! ## Registers -/

/-- The offset of a register in the window (R20). -/
def regOffset : Reg → Nat
  | .id => 0x00
  | .width => 0x04
  | .height => 0x08
  | .layout => 0x0C
  | .srcAddr => 0x10
  | .dstAddr => 0x14
  | .scrAddr => 0x18
  | .cmd => 0x1C
  | .status => 0x20
  | .gWidth => 0x40
  | .gHeight => 0x44
  | .gPWidth => 0x48
  | .gPHeight => 0x4C
  | .gWTiles => 0x50
  | .gHTiles => 0x54
  | .gHTilesC => 0x58
  | .gLumaBytes => 0x5C
  | .gChromaBytes => 0x60
  | .gTiledBytes => 0x64
  | .gLinearBytes => 0x68
  | .gCropRows => 0x6C
  | .gLumaLen => 0x70
  | .gChromaLen => 0x74
  | .gUvOffset => 0x78
  | .gDstWindow => 0x7C

/-- Every named register (R20). -/
def regList : List Reg :=
  [.id, .width, .height, .layout, .srcAddr, .dstAddr, .scrAddr, .cmd, .status,
   .gWidth, .gHeight, .gPWidth, .gPHeight, .gWTiles, .gHTiles, .gHTilesC, .gLumaBytes,
   .gChromaBytes, .gTiledBytes, .gLinearBytes, .gCropRows, .gLumaLen, .gChromaLen, .gUvOffset, .gDstWindow]

/-- The register at an offset; none at the reserved offsets (R33). -/
def regAt (off : Nat) : Option Reg := regList.find? (fun r => regOffset r == off)

/-- The constant of ID, the bytes "NV12" (R21). -/
def idWord : Word := 0x4E563132

/-- `reg(NAME)`: a register's current value, reserved bits 0 (R14, R34). CMD reads 0 (R28). -/
def readReg (s : State) : Reg → Word
  | .id => idWord
  | .width => s.width.setWidth 32
  | .height => s.height.setWidth 32
  | .layout => s.layout.setWidth 32
  | .srcAddr => s.srcAddr
  | .dstAddr => s.dstAddr
  | .scrAddr => s.scrAddr
  | .cmd => 0
  | .status => statusWord s
  | .gWidth => s.g.width
  | .gHeight => s.g.height
  | .gPWidth => s.g.pWidth
  | .gPHeight => s.g.pHeight
  | .gWTiles => s.g.wTiles
  | .gHTiles => s.g.hTiles
  | .gHTilesC => s.g.hTilesC
  | .gLumaBytes => s.g.lumaBytes
  | .gChromaBytes => s.g.chromaBytes
  | .gTiledBytes => s.g.tiledBytes
  | .gLinearBytes => s.g.linearBytes
  | .gCropRows => s.g.cropRows
  | .gLumaLen => s.g.lumaLen
  | .gChromaLen => s.g.chromaLen
  | .gUvOffset => s.g.uvOffset
  | .gDstWindow => s.g.dstWindow

/-- The 32-bit value at an offset of the window; the reserved offsets read 0 (R33, R34). -/
def readOffset (s : State) (off : Nat) : Word :=
  match regAt off with
  | some r => readReg s r
  | none => 0

/-- Byte k of a register in a platform's byte view: bits [8k+7:8k] (R52). -/
def regByte (w : Word) (k : Nat) : Byte := w.extractLsb' (8 * k) 8

/-! ## The life of a command -/

/-- R28: a CMD write while BUSY = 0 issues the word, whatever it is. WBUSY and GEOM_VALID do not change. -/
def State.issue (s : State) (w : Word) : State :=
  { s with pending := some w, busy := true, done := false, err := false, errcode := 0 }

/-- R146: `raise Error(CODE)`. The block saves no address, word, mode or stack; no handler runs, so there is no return
instruction (R136, R148): the host acknowledges by a STATUS write (`State.writeStatus`) or by the next issue (`State.issue`). -/
def State.raise (s : State) (e : ErrCode) : State :=
  { s with err := true, errcode := e.code, done := false, pending := none, busy := false }

/-- R147: `complete()`, after every memory write of the command (R63). -/
def State.complete (s : State) : State :=
  { s with done := true, err := false, errcode := 0, pending := none, busy := false }

/-- The registers of R158 after reset: all 0, PENDING none. M and everything outside the block stay (R160). -/
def State.resetRegisters (s : State) : State :=
  { s with
    width := 0, height := 0, layout := 0, srcAddr := 0, dstAddr := 0, scrAddr := 0
    busy := false, done := false, err := false, geomValid := false, wbusy := false, errcode := 0
    g := Descriptor.zero, pending := none }

/-! ## The outside world's bookkeeping -/

/-- The host has seen something (log 5). -/
def State.observe (s : State) (o : Observation) : State := { s with observed := o :: s.observed }

/-- The scheduled turn is used up. -/
def State.tick (s : State) : State := { s with turns := s.turns.tail }

/-- The agent that takes the next step: the one `turns` names; when it names none, the engine while a command is pending
(R173: a step that stays enabled is eventually taken), else the host. -/
def State.mover (s : State) : Agent :=
  match s.turns with
  | a :: _ => a
  | [] => if s.pending.isSome then .engine else .host

end Sys2Proof.Machine
end

