-- ==== Sys2Proof/Machine/Operands.lean ====
section
/-! DEFINITION. What the commands take as operands: the geometry functions (40_geometry.md R80 … R92), the windows and their checks (20_memory.md R55 … R57), the planes and the tile order (41_detile.md R100 … R108), and the shape every command that uses windows shares (60_exceptions.md R144 … R147). -/

namespace Sys2Proof.Machine

/-! ## Constants (R8) -/

def tileW : Nat := 64
def tileH : Nat := 32
def tileBytes : Nat := 2048
def widthAlign : Nat := 128
def heightAlign : Nat := 32
def padMod : Nat := 4

/-! ## Geometry -/

/-- The least multiple of m that is ≥ x (R13). -/
def roundUp (x m : Nat) : Nat := (x + m - 1) / m * m

/-- R83. -/
def paddedWidth (w : Nat) : Nat := roundUp w widthAlign

/-- R83. -/
def paddedHeight (h : Nat) : Nat := roundUp h heightAlign

/-- R80. -/
def wTiles (w : Nat) : Nat := paddedWidth w / tileW

/-- R81. -/
def hTiles (h : Nat) : Nat := paddedHeight h / tileH

/-- R84: the chroma plane has half the rows. -/
def hTilesChroma (h : Nat) : Nat := hTiles (h / 2)

/-- R82. -/
def boundaryPadding (wT hT : Nat) : Nat := wT * hT % padMod * tileBytes

/-- R82, the literal formula. -/
def planeSize (wT hT : Nat) : Nat := wT * hT * tileBytes + boundaryPadding wT hT

/-- R87. -/
def linearFrameBytes (w h : Nat) : Nat := w * h * 3 / 2

/-- R91: the actual height, not the padded one. -/
def uvOffset (w h : Nat) : Nat := paddedWidth w * h

/-- R92. -/
def dstWindowBytes (w h : Nat) : Nat :=
  max (max (paddedWidth w * paddedHeight h) (uvOffset w h + hTilesChroma h * 32 * paddedWidth w))
    (linearFrameBytes w h)

/-- The sixteen G_* values of R95, each `zext_32` of its number (R32); cut to 32 bits, which a legal MAX_DIM never does (R94; DEDUCED, log 16; safe). -/
def describe (w h : Nat) : Descriptor :=
  let luma := planeSize (wTiles w) (hTiles h)
  let chroma := planeSize (wTiles w) (hTilesChroma h)
  { width := BitVec.ofNat 32 w
    height := BitVec.ofNat 32 h
    pWidth := BitVec.ofNat 32 (paddedWidth w)
    pHeight := BitVec.ofNat 32 (paddedHeight h)
    wTiles := BitVec.ofNat 32 (wTiles w)
    hTiles := BitVec.ofNat 32 (hTiles h)
    hTilesC := BitVec.ofNat 32 (hTilesChroma h)
    lumaBytes := BitVec.ofNat 32 luma
    chromaBytes := BitVec.ofNat 32 chroma
    tiledBytes := BitVec.ofNat 32 (luma + chroma)
    linearBytes := BitVec.ofNat 32 (linearFrameBytes w h)
    cropRows := BitVec.ofNat 32 (h * 3 / 2)
    lumaLen := BitVec.ofNat 32 (w * h)
    chromaLen := BitVec.ofNat 32 (w * h / 4)
    uvOffset := BitVec.ofNat 32 (uvOffset w h)
    dstWindow := BitVec.ofNat 32 (dstWindowBytes w h) }

/-- R96: the width and height that GEOM accepts. -/
def geomLegal (maxDim w h : Nat) : Bool := !(w == 0 || h == 0 || maxDim < w || maxDim < h)

/-! ## Windows -/

/-- R56: the window ends at or below MEM_BYTES, with no wrap-around. -/
def inBounds (w : Window) (memBytes : Nat) : Bool := w.base + w.size ≤ memBytes

/-- R57. -/
def overlap (w v : Window) : Bool := w.base < v.base + v.size && v.base < w.base + w.size

/-- The address lies in the window. -/
def inWindow (w : Window) (a : Nat) : Bool := w.base ≤ a && a < w.base + w.size

/-- SRC_WIN (R55). -/
def State.srcWin (s : State) : Window := ⟨s.srcAddr.toNat, s.g.tiledBytes.toNat⟩

/-- DST_WIN (R55). -/
def State.dstWin (s : State) : Window := ⟨s.dstAddr.toNat, s.g.dstWindow.toNat⟩

/-- SCR_WIN (R55). -/
def State.scrWin (s : State) : Window := ⟨s.scrAddr.toNat, s.g.linearBytes.toNat⟩

/-- LAYOUT selects yuv420p output (R24). -/
def State.planarOutput (s : State) : Bool := s.layout == 1

/-- The windows a command uses, in the order its checks name them (R61, R73). -/
def usedWindows (s : State) : Instr → List Window
  | .geom => []
  | .detileY => [s.srcWin, s.dstWin]
  | .detileUV => [s.srcWin, s.dstWin]
  | .crop => [s.dstWin]
  | .planar => [s.dstWin, s.scrWin]
  | .frame => if s.planarOutput then [s.srcWin, s.dstWin, s.scrWin] else [s.srcWin, s.dstWin]

/-- The windows a command may write (R58, R159). -/
def writeWindows (s : State) : Instr → List Window
  | .geom => []
  | .detileY => [s.dstWin]
  | .detileUV => [s.dstWin]
  | .crop => [s.dstWin]
  | .planar => [s.dstWin, s.scrWin]
  | .frame => if s.planarOutput then [s.dstWin, s.scrWin] else [s.dstWin]

/-- The pairs a command checks for overlap, in order (R57, R142, R144). -/
def overlapPairs (s : State) : Instr → List (Window × Window)
  | .geom => []
  | .detileY => [(s.srcWin, s.dstWin)]
  | .detileUV => [(s.srcWin, s.dstWin)]
  | .crop => []
  | .planar => [(s.scrWin, s.dstWin)]
  | .frame =>
    if s.planarOutput then [(s.srcWin, s.dstWin), (s.scrWin, s.dstWin)] else [(s.srcWin, s.dstWin)]

/-- R144 for the commands that need a descriptor: the first error that applies, NO_GEOMETRY, then BOUNDS of each window
used, then OVERLAP of each pair. STATUS does not tell which window or pair it was (R141). -/
def windowError (s : State) (i : Instr) : Option ErrCode :=
  if !s.geomValid then some .noGeometry
  else if (usedWindows s i).any (fun w => !inBounds w s.params.memBytes) then some .bounds
  else if (overlapPairs s i).any (fun p => overlap p.1 p.2) then some .overlap
  else none

/-- The windows lie in ordinary memory (R54, R167): they meet no range of the platform's devices. -/
def ordinary (s : State) (ws : List Window) : Bool :=
  ws.all (fun w => s.params.devices.all (fun d => !overlap w d))

/-- The shape of every command that uses windows: the checks of R144, all before the first write (R145); then, where the
windows lie in ordinary memory (R167; log 11), the body's writes, inside the windows (R58; DEDUCED, log 13; safe), and `complete()` (R147). -/
def runCommand (i : Instr) (body : State → Memory → Memory) (s : State) : Host.Outcome State Fault Refusal :=
  match windowError s i with
  | some e => .next (s.raise e)
  | none =>
    if ordinary s (usedWindows s i) then .next { s with mem := body s s.mem }.complete
    else .refused .notOrdinaryMemory

/-! ## Planes and the tile order -/

/-- What DETILE takes from its PLANE field (R100). -/
structure Plane where
  wT : Nat
  hT : Nat
  srcBase : Nat
  dstBase : Nat
deriving DecidableEq, Repr

/-- PLANE = 0 (R100). -/
def State.planeY (s : State) : Plane :=
  { wT := s.g.wTiles.toNat, hT := s.g.hTiles.toNat, srcBase := s.srcAddr.toNat, dstBase := s.dstAddr.toNat }

/-- PLANE = 1 (R100). -/
def State.planeUV (s : State) : Plane :=
  { wT := s.g.wTiles.toNat, hT := s.g.hTilesC.toNat
    srcBase := s.srcAddr.toNat + s.g.lumaBytes.toNat, dstBase := s.dstAddr.toNat + s.g.uvOffset.toNat }

/-- The destination row stride (R100). -/
def Plane.stride (p : Plane) : Nat := p.wT * tileW

/-- Where byte x of row y of stream tile n is read (R102). -/
def Plane.srcByte (p : Plane) (n y x : Nat) : Nat := p.srcBase + n * tileBytes + y * tileW + x

/-- Where byte x of row y of the tile at grid position (row, col) goes (R101). -/
def Plane.dstByte (p : Plane) (row col y x : Nat) : Nat :=
  p.dstBase + (row * tileH + y) * p.stride + col * tileW + x

/-- The grid position of stream tile n: pairs of tile rows in Z and flip-Z order (R103, R104), then the remainder row (R105); the closed form of R108. -/
def tilePos (wT hT n : Nat) : Nat × Nat :=
  let perPair := 2 * wT
  let inPairs := hT / 2 * perPair
  if n < inPairs then
    let p := n / perPair
    let r := n % perPair
    let z := r / 4
    let k := r % 4
    (if z % 2 = 0 then 2 * p + k / 2 else 2 * p + 1 - k / 2, 2 * z + k % 2)
  else (hT - 1, n - inPairs)

end Sys2Proof.Machine
end

