-- ==== Sys2Proof/Machine/Crop.lean ====
section
/-! DEFINITION. CROP, the linear-buffer compactor (42_crop.md R114). -/

namespace Sys2Proof.Machine

/-- Move `w` bytes of row i from stride `pw` to stride `w`, in increasing byte order (R116). -/
def cropRow (dst w pw i : Nat) (m : Memory) : Memory :=
  loop w (fun x m => m.move (dst + i * w + x) (dst + i * pw + x)) m

/-- CROP after its checks: the rows in increasing order (R115, R116); nothing when the width needs no padding (R117). -/
def cropBody (s : State) (m : Memory) : Memory :=
  if s.g.width ≠ s.g.pWidth then
    loop s.g.cropRows.toNat (cropRow s.dstAddr.toNat s.g.width.toNat s.g.pWidth.toNat) m
  else m

/-- CROP (R114). -/
def execCrop (s : State) : Host.Outcome State Fault Refusal := runCommand .crop cropBody s

end Sys2Proof.Machine
end

