-- ==== Sys2Proof/Machine/Detile.lean ====
section
/-! DEFINITION. DETILE.Y and DETILE.UV, the detile engine (41_detile.md R109). -/

namespace Sys2Proof.Machine

/-- Copy the 32 rows of 64 bytes of stream tile n to its grid position (R101, R102). -/
def detileTile (p : Plane) (n : Nat) (m : Memory) : Memory :=
  let pos := tilePos p.wT p.hT n
  loop tileH (fun y m => m.copy (p.dstByte pos.1 pos.2 y 0) (p.srcByte n y 0) tileW) m

/-- The body of R109: every tile of the plane in stream order. -/
def detilePlane (p : Plane) (m : Memory) : Memory := loop (p.wT * p.hT) (detileTile p) m

/-- DETILE with PLANE = 0, after its checks. -/
def detileYBody (s : State) (m : Memory) : Memory := detilePlane s.planeY m

/-- DETILE with PLANE = 1, after its checks. -/
def detileUVBody (s : State) (m : Memory) : Memory := detilePlane s.planeUV m

/-- DETILE.Y (R109). -/
def execDetileY (s : State) : Host.Outcome State Fault Refusal := runCommand .detileY detileYBody s

/-- DETILE.UV (R109). -/
def execDetileUV (s : State) : Host.Outcome State Fault Refusal := runCommand .detileUV detileUVBody s

end Sys2Proof.Machine
end

