-- ==== Sys2Proof/Machine/Planar.lean ====
section
/-! DEFINITION. PLANAR, the chroma deinterleaver (43_planar.md R121). -/

namespace Sys2Proof.Machine

/-- U and V sample k: from the scratch copy to their planes (R124). -/
def deinterleaveOne (dst scr lumaLen chromaLen k : Nat) (m : Memory) : Memory :=
  (m.move (dst + lumaLen + k) (scr + lumaLen + 2 * k)).move
    (dst + lumaLen + chromaLen + k) (scr + lumaLen + 2 * k + 1)

/-- PLANAR after its checks: the scratch copy (R122), Y back verbatim (R123), the deinterleave (R124). -/
def planarBody (s : State) (m : Memory) : Memory :=
  let dst := s.dstAddr.toNat
  let scr := s.scrAddr.toNat
  let m := m.copy scr dst s.g.linearBytes.toNat
  let m := m.copy dst scr s.g.lumaLen.toNat
  loop s.g.chromaLen.toNat (deinterleaveOne dst scr s.g.lumaLen.toNat s.g.chromaLen.toNat) m

/-- PLANAR (R121). -/
def execPlanar (s : State) : Host.Outcome State Fault Refusal := runCommand .planar planarBody s

end Sys2Proof.Machine
end

