-- ==== Sys2Proof/Machine/Frame.lean ====
section
/-! DEFINITION. FRAME, the frame sequencer (44_frame.md R128). -/

namespace Sys2Proof.Machine

/-- FRAME after its checks: the four bodies in their fixed order, each on the memory the one before it left (R128, R129); LAYOUT adds the last (R130). -/
def frameBody (s : State) (m : Memory) : Memory :=
  let m := cropBody s (detileUVBody s (detileYBody s m))
  if s.planarOutput then planarBody s m else m

/-- FRAME (R128). -/
def execFrame (s : State) : Host.Outcome State Fault Refusal := runCommand .frame frameBody s

end Sys2Proof.Machine
end

