-- ==== Sys2Proof/Machine/Geometry.lean ====
section
/-! DEFINITION. GEOM, the tile-geometry calculator (40_geometry.md R95 … R99). -/

namespace Sys2Proof.Machine

/-- R96, R97: all sixteen G_* and GEOM_VALID become 0, then INVALID_GEOMETRY is raised. -/
def geomReject (s : State) : State :=
  { s with g := Descriptor.zero, geomValid := false }.raise .invalidGeometry

/-- R95: the descriptor of WIDTH and HEIGHT is latched, GEOM_VALID becomes 1, and the command completes. -/
def geomLatch (s : State) : State :=
  { s with g := describe s.width.toNat s.height.toNat, geomValid := true }.complete

/-- GEOM (R95). It needs no descriptor and touches no memory (R99). -/
def execGeom (s : State) : Host.Outcome State Fault Refusal :=
  if geomLegal s.params.maxDim s.width.toNat s.height.toNat then .next (geomLatch s)
  else .next (geomReject s)

end Sys2Proof.Machine
end

