-- ==== Sys2Proof/Machine/Dispatch.lean ====
section
/-! DEFINITION. One arm per command (30_encoding.md R69): the meaning the engine gives it. -/

namespace Sys2Proof.Machine

def exec (i : Instr) (s : State) : Host.Outcome State Fault Refusal :=
  match i with
  | .geom => Sys2Proof.Machine.execGeom s
  | .detileY => Sys2Proof.Machine.execDetileY s
  | .detileUV => Sys2Proof.Machine.execDetileUV s
  | .crop => Sys2Proof.Machine.execCrop s
  | .planar => Sys2Proof.Machine.execPlanar s
  | .frame => Sys2Proof.Machine.execFrame s

end Sys2Proof.Machine
end

