-- ==== Sys2Proof/WellFormed.lean ====
section
/-! DEFINITION. When the fields of a command word are those of a legal command (30_encoding.md R69 … R72, R75). -/

namespace Sys2Proof

/-- RSVD must be 0 (R71). -/
def CmdFields.rsvdClear (f : CmdFields) : Bool := f.rsvd == 0

/-- PLANE = 1 only with OP = 0x2 (R70). -/
def CmdFields.planeAllowed (f : CmdFields) : Bool := f.plane == 0 || f.op == 2

/-- OP is one of 0x1 … 0x5 (R69). -/
def CmdFields.opDefined (f : CmdFields) : Bool := 1 ≤ f.op.toNat && f.op.toNat ≤ 5

/-- All three checks: the fields of exactly the six legal words (R72). -/
def CmdFields.wf (f : CmdFields) : Bool := f.rsvdClear && f.planeAllowed && f.opDefined

end Sys2Proof
end

