-- ==== Sys2Proof/Decode.lean ====
section
/-! DEFINITION. Decoding a command word, total on all 2^32 words and rejecting by name, and the encoder, both from the field tables R68 … R72. -/

namespace Sys2Proof

/-- Cut a word into the fields of R68: OP[3:0], PLANE[4], RSVD[31:5]. -/
def CmdFields.ofWord (w : Word) : CmdFields :=
  { rsvd := w.extractLsb' 5 27, plane := w.extractLsb' 4 1, op := w.extractLsb' 0 4 }

/-- Put the fields of R68 together again, RSVD in the high bits. -/
def CmdFields.toWord (f : CmdFields) : Word := f.rsvd ++ f.plane ++ f.op

/-- The command that well-formed fields name: OP picks the unit (R69), PLANE the DETILE form (R70). -/
def CmdFields.command (f : CmdFields) : Option Instr :=
  match f.op.toNat with
  | 1 => some .geom
  | 2 => some (if f.plane == 0 then .detileY else .detileUV)
  | 3 => some .crop
  | 4 => some .planar
  | 5 => some .frame
  | _ => none

/-- R72: the six legal words, everything else Illegal (R75), named RSVD before PLANE before OP (DEDUCED, log 17; safe). No state is consulted (R76). -/
def decode (w : Word) : Except Illegal Instr :=
  let f := CmdFields.ofWord w
  if !f.rsvdClear then .error .rsvdSet
  else if !f.planeAllowed then .error .planeWithoutDetile
  else match f.command with
    | some i => .ok i
    | none => .error .reservedOp

/-- The fields of each command (R69, R70; RSVD = 0 by R71). -/
def Instr.fields : Instr → CmdFields
  | .geom     => { rsvd := 0, plane := 0, op := 1 }
  | .detileY  => { rsvd := 0, plane := 0, op := 2 }
  | .detileUV => { rsvd := 0, plane := 1, op := 2 }
  | .crop     => { rsvd := 0, plane := 0, op := 3 }
  | .planar   => { rsvd := 0, plane := 0, op := 4 }
  | .frame    => { rsvd := 0, plane := 0, op := 5 }

/-- The word of a command (R78). -/
def encode (i : Instr) : Word := i.fields.toWord

/-- The command the decoder reads from a table word: one 32-bit word is the whole command (R76), bit 0 the least significant. -/
def decodeTableWord (nbits w : Nat) : Option Instr :=
  (decode (BitVec.ofNat 32 (w % 2 ^ nbits))).toOption

end Sys2Proof
end

