-- ==== Sys2Proof/Machine/HostPort.lean ====
section
/-! DEFINITION. The moves of the host: register reads and writes (10_state.md R34, R35), WAIT, FILL, CHECK (30_encoding.md R77 … R79), its accesses to M (20_memory.md R50, R61), and a reset of the block (70_reset_and_hazards.md R158 … R160). -/

namespace Sys2Proof.Machine

/-! ## Register accesses -/

/-- R35: a host write of 32 bits to an aligned offset. -/
def writeOffset (s : State) (off : Nat) (data : Word) : State :=
  if off = 0x20 then s.writeStatus data
  else if s.busy then { s with wbusy := true }
  else if off = 0x04 then { s with width := data.setWidth 16, geomValid := false }
  else if off = 0x08 then { s with height := data.setWidth 16, geomValid := false }
  else if off = 0x0C then { s with layout := data.setWidth 1 }
  else if off = 0x10 then { s with srcAddr := data }
  else if off = 0x14 then { s with dstAddr := data }
  else if off = 0x18 then { s with scrAddr := data }
  else if off = 0x1C then s.issue data
  else s

/-- A bus access to the register window: its offset, or why it gets no step. The window is `[REG_BASE, REG_BASE + 0x80)`
(R20; log 9); an access in it must be 4 bytes wide at a multiple of 4 (R53). -/
def windowOffset (s : State) (addr bytes : Nat) : Except Refusal Nat :=
  if addr < s.params.regBase ∨ s.params.regBase + 0x80 ≤ addr then .error .outsideRegisterWindow
  else if bytes = 4 ∧ (addr - s.params.regBase) % 4 = 0 then .ok (addr - s.params.regBase)
  else .error .accessForm

/-- A host read: the value is seen, nothing of the block changes (R34). -/
def hostRead (s : State) (addr bytes : Nat) : Host.Outcome State Fault Refusal :=
  match windowOffset s addr bytes with
  | .ok off => .next (s.observe (.reg off (readOffset s off)))
  | .error r => .refused r

/-- A host write (R35). -/
def hostWrite (s : State) (addr bytes : Nat) (data : Word) : Host.Outcome State Fault Refusal :=
  match windowOffset s addr bytes with
  | .ok off => .next (writeOffset s off data)
  | .error r => .refused r

/-- One read of STATUS (R79): while it gives BUSY = 1 the WAIT stays the host's next move. -/
def hostWait (s : State) : State :=
  let s' := s.observe (.reg 0x20 (readOffset s 0x20))
  if s.busy then { s' with script := .wait :: s'.script } else s'

/-- The last value the host read at a window offset, if it read there. -/
def lastRead (off : Nat) : List Observation → Option Word
  | [] => none
  | .reg o v :: rest => if o = off then some v else lastRead off rest
  | .mem _ _ :: rest => lastRead off rest
  | .check _ :: rest => lastRead off rest

/-- CHECK (R77): an assertion with no bus effect; the host keeps whether it held (log 5). -/
def hostCheck (s : State) (onLastRead : Bool) (r : Reg) (value : Word) : State :=
  let seen := if onLastRead then lastRead (regOffset r) s.observed else some (readReg s r)
  s.observe (.check (seen == some value))

/-! ## Accesses to M -/

/-- The command in PENDING, when it is one (R36, R72). -/
def pendingCommand (s : State) : Option Instr :=
  match s.pending with
  | none => none
  | some w => (decode w).toOption

/-- The windows the pending command uses; none for a word that is no command, and none without a descriptor, since the
windows are defined only by a valid one (R55, R61; log 8, log 10). -/
def pendingWindows (windows : State → Instr → List Window) (s : State) : List Window :=
  if s.busy && s.geomValid then
    match pendingCommand s with
    | some i => windows s i
    | none => []
  else []

/-- The engine owns the byte (R61). -/
def ownedByEngine (s : State) (a : Nat) : Bool := (pendingWindows usedWindows s).any (fun w => inWindow w a)

/-- Why the host may not touch the byte at `a`, if so: it does not exist (R50), it is not ordinary memory (R54, R167; log 11), or
the engine owns it (R61, R166): a duty of the host that the block does not check, so that giving the access no move assumes a host
that keeps it, which errs toward proving (log 21). -/
def hostMayTouch (s : State) (a : Nat) (k : State) : Host.Outcome State Fault Refusal :=
  if s.params.memBytes ≤ a then .fault .noSuchByte
  else if !ordinary s [⟨a, 1⟩] then .refused .notOrdinaryMemory
  else if ownedByEngine s a then .refused .ownedByEngine
  else .next k

/-- A host write of the first byte; the rest stay the host's next move (R79; log 6). -/
def hostFill (s : State) (addr : Nat) : List Byte → Host.Outcome State Fault Refusal
  | [] => .next s
  | b :: rest =>
    hostMayTouch s addr
      { s with
        mem := s.mem.write addr b
        script := if rest.isEmpty then s.script else .fill (addr + 1) rest :: s.script }

/-- A host read of one byte of M. -/
def hostMemRead (s : State) (addr : Nat) : Host.Outcome State Fault Refusal :=
  hostMayTouch s addr (s.observe (.mem addr (s.mem.read addr)))

/-! ## Reset -/

/-- The next `n` free bytes (R159). -/
def freeBytes (draws n : Nat) : List Byte := (List.range n).map (fun k => Config.freeByte (draws + k))

/-- The part of a window that exists in M (R50; log 8). -/
def existing (w : Window) (memBytes : Nat) : Nat := min w.size (memBytes - w.base)

/-- Give every byte of the window that exists a free value, one draw each (R159). -/
def scrambleWindow (s : State) (w : Window) : State :=
  { s with
    mem := s.mem.writeRange w.base (freeBytes s.draws (existing w s.params.memBytes))
    draws := s.draws + existing w s.params.memBytes }

/-- The pending command is abandoned: its write windows hold any values (R159); nothing happens when none is pending (R160). -/
def abandonCommand (s : State) : State := (pendingWindows writeWindows s).foldl scrambleWindow s

/-- Reset (R158 … R160). A pending command whose windows are not ordinary memory gives a run the model refuses (R167).
R158 and R159 do not say from whom a reset comes; here it is a move of the host's script (DESIGN CHOICE, log 20; safe). -/
def hostReset (s : State) : Host.Outcome State Fault Refusal :=
  if ordinary s (pendingWindows usedWindows s) then .next (abandonCommand s).resetRegisters
  else .refused .notOrdinaryMemory

/-! ## The host's step -/

/-- One move of the host; `s` has the move already taken off its script. -/
def hostMove (s : State) : HostMove → Host.Outcome State Fault Refusal
  | .busRead addr bytes => hostRead s addr bytes
  | .busWrite addr bytes data => hostWrite s addr bytes data
  | .wait => .next (hostWait s)
  | .fill addr data => hostFill s addr data
  | .memRead addr => hostMemRead s addr
  | .check onLastRead r value => .next (hostCheck s onLastRead r value)
  | .reset => hostReset s

/-- The host's step: its next move, or nothing when the script is used up (log 15). -/
def hostStep (s : State) : Host.Outcome State Fault Refusal :=
  match s.script with
  | [] => .next s
  | mv :: rest => hostMove { s with script := rest } mv

/-- A line of a host script as a move (R77 … R79): `CMD m` is the write of m's word to CMD. -/
def lineMove (p : Params) : ScriptLine → HostMove
  | .wr r value => .busWrite (p.regBase + regOffset r) 4 value
  | .rd r => .busRead (p.regBase + regOffset r) 4
  | .cmd i => .busWrite (p.regBase + regOffset .cmd) 4 (encode i)
  | .cmdWord n => .busWrite (p.regBase + regOffset .cmd) 4 n
  | .wait => .wait
  | .fill addr data => .fill addr data
  | .checkLast r value => .check true r value
  | .checkReg r value => .check false r value

/-- Place a host script: what comes to run is what the host does (log 3). A reset, which no script line of R77 is, is placed in State.script itself (log 20). -/
def State.withScript (s : State) (lines : List ScriptLine) : State :=
  { s with script := lines.map (lineMove s.params) }

end Sys2Proof.Machine
end

