-- ==== Sys2Proof/Machine/Step.lean ====
section
/-! DEFINITION. One step of the machine: the engine's step or one move of the host (70_reset_and_hazards.md R172), and how a word comes to be the next command. -/

namespace Sys2Proof.Machine

/-- The engine's step (R172): the whole pending command in one step (DEDUCED, log 18; safe), decoded now (R72); a word that is no command raises ILLEGAL_CMD
and has no other effect (R138). With nothing pending the engine does nothing (R157). -/
def engineStep (s : State) : Host.Outcome State Fault Refusal :=
  match s.pending with
  | none => .next s
  | some w =>
    match decode w with
    | .ok i => exec i s
    | .error _ => .next (s.raise .illegalCmd)

/-- One step: the agent whose turn it is moves (R172; log 4). -/
def step (s : State) : Host.Outcome State Fault Refusal :=
  match s.mover with
  | .engine => engineStep s.tick
  | .host => hostStep s.tick

/-- The word issued as the host's CMD write would issue it (R28), and the next turn given to the engine (log 3). -/
def State.withFetchWord (s : State) (nbits w : Nat) : State :=
  { s.issue (BitVec.ofNat 32 (w % 2 ^ nbits)) with turns := .engine :: s.turns }

end Sys2Proof.Machine
end

