-- ==== Sys2Proof/Safety.lean ====
section
/-! DEFINITION. What every reachable state satisfies, and when a run has ended. -/

namespace Sys2Proof.Machine

/-- R29, R36: BUSY and PENDING go together; DONE and ERR exclude each other and a running command; ERRCODE is 0 exactly when ERR is, and never a reserved code (R137, I9). -/
def State.flagsOk (s : State) : Bool :=
  s.busy == s.pending.isSome && !(s.done && s.err) && !(s.busy && (s.done || s.err))
    && (s.err == (s.errcode != 0)) && s.errcode.toNat ≤ 5

/-- R29, R32: while GEOM_VALID = 1 the G_* registers hold the descriptor of the current WIDTH and HEIGHT, which are legal. -/
def State.geomOk (s : State) : Bool :=
  !s.geomValid || (geomLegal s.params.maxDim s.width.toNat s.height.toNat
    && s.g == describe s.width.toNat s.height.toNat)

/-- R32: whatever GEOM_VALID is, the G_* registers are all 0 or hold the descriptor of the legal width and height they record. -/
def State.descriptorOk (s : State) : Bool :=
  s.g == Descriptor.zero || (geomLegal s.params.maxDim s.g.width.toNat s.g.height.toNat
    && s.g == describe s.g.width.toNat s.g.height.toNat)

/-- M is in its canonical form and lists no byte that does not exist (R50). -/
def State.memOk (s : State) : Bool := s.mem.wf && s.mem.within s.params.memBytes

/-- The invariant of the machine. -/
def State.Inv (s : State) : Bool :=
  s.params.legal && s.flagsOk && s.geomOk && s.descriptorOk && s.memOk

/-- R174: the script is used up and BUSY = 0. -/
def State.ended (s : State) : Bool := s.script.isEmpty && !s.busy

end Sys2Proof.Machine
end

