-- ==== Sys2Proof/Certificates/Slice0/Obligations.lean ====
section
/-! DEFINITION. What the provers are asked to prove of the machine, from the numbered rules of spec/, and the words the statements share. -/

open Sys2Proof Sys2Proof.Machine

/-! ## Words the statements share -/

namespace Sys2Proof.Claims

/-- The state after a command that raised the error with this code: nothing else changed (R146). -/
def failed (s : State) (code : BitVec 4) : State :=
  { s with err := true, errcode := code, done := false, pending := none, busy := false }

/-- The state after a command that completed and left the memory `m`: no other register changed (R147). -/
def finished (s : State) (m : Memory) : State :=
  { s with mem := m, done := true, err := false, errcode := 0, pending := none, busy := false }

/-- It is the host's turn and `mv` is its next move. A reset of the block arrives as such a move (the model's choice, log 20). -/
def hostTurn (s : State) (mv : HostMove) (rest : List HostMove) : Prop :=
  s.mover = .host ∧ s.script = mv :: rest

/-- The state in which the move, taken off the script, is made. -/
def moving (s : State) (rest : List HostMove) : State := { s with turns := s.turns.tail, script := rest }

/-- The code of the first check that fails, in the order given. -/
def firstCode : List (Bool × BitVec 4) → Option (BitVec 4)
  | [] => none
  | (fails, code) :: rest => if fails then some code else firstCode rest

/-- The window ends beyond MEM_BYTES (R56). -/
def endsBeyondM (s : State) (w : Window) : Bool := s.params.memBytes < w.base + w.size

/-- DETILE of one plane, all of R109: the errors in order, and the effect in closed form on every byte of M. -/
def detilesPlane (s : State) (i : Instr) (wT hT srcBase dstBase : Nat) : Prop :=
  (s.geomValid = false → exec i s = .next (failed s 3)) ∧
  (s.geomValid = true → endsBeyondM s s.srcWin = true ∨ endsBeyondM s s.dstWin = true →
    exec i s = .next (failed s 4)) ∧
  (s.geomValid = true → endsBeyondM s s.srcWin = false → endsBeyondM s s.dstWin = false →
    overlap s.srcWin s.dstWin = true → exec i s = .next (failed s 5)) ∧
  (s.geomValid = true → endsBeyondM s s.srcWin = false → endsBeyondM s s.dstWin = false →
    overlap s.srcWin s.dstWin = false → ordinary s [s.srcWin, s.dstWin] = true →
    ∃ t, exec i s = .next t ∧ t = finished s t.mem ∧
      (∀ n y x, n < wT * hT → y < 32 → x < 64 →
        t.mem.read (dstBase + ((tilePos wT hT n).1 * 32 + y) * (wT * 64) + (tilePos wT hT n).2 * 64 + x)
          = s.mem.read (srcBase + n * 2048 + y * 64 + x)) ∧
      (∀ a, ¬ (dstBase ≤ a ∧ a < dstBase + hT * 32 * (wT * 64)) → t.mem.read a = s.mem.read a))

/-- DETILE of one plane whose source tiles are the re-tiled raster R leaves R in the destination (R113). -/
def restoresRaster (s : State) (i : Instr) (wT hT srcBase dstBase : Nat) : Prop :=
  ∀ R : Nat → Nat → Byte,
    (∀ n y x, n < wT * hT → y < 32 → x < 64 →
      s.mem.read (srcBase + n * 2048 + y * 64 + x)
        = R ((tilePos wT hT n).1 * 32 + y) ((tilePos wT hT n).2 * 64 + x)) →
    ∃ t, exec i s = .next t ∧
      ∀ r c, r < hT * 32 → c < wT * 64 → t.mem.read (dstBase + r * (wT * 64) + c) = R r c

/-- Everything but M is the same in the two states. -/
def sameButMemory (s u : State) : Prop := u = { s with mem := u.mem }

/-- R133's NV12 output of FRAME, byte by byte, and every byte outside DST_WIN as before. -/
def nv12Output (s t : State) : Prop :=
  let w := s.g.width.toNat
  let h := s.g.height.toNat
  let pw := s.g.pWidth.toNat
  let ph := s.g.pHeight.toNat
  let wT := s.g.wTiles.toNat
  let hT := s.g.hTiles.toNat
  let hTC := s.g.hTilesC.toNat
  let rows := s.g.cropRows.toNat
  let src := s.srcAddr.toNat
  let dst := s.dstAddr.toNat
  let luma := s.g.lumaBytes.toNat
  (∀ j, j < rows * w → j / w < h →
    ∃ n, n < wT * hT ∧ tilePos wT hT n = (j / w / 32, j % w / 64) ∧
      t.mem.read (dst + j) = s.mem.read (src + n * 2048 + j / w % 32 * 64 + j % w % 64)) ∧
  (∀ j, j < rows * w → h ≤ j / w →
    ∃ n, n < wT * hTC ∧ tilePos wT hTC n = ((j / w - h) / 32, j % w / 64) ∧
      t.mem.read (dst + j) = s.mem.read (src + luma + n * 2048 + (j / w - h) % 32 * 64 + j % w % 64)) ∧
  (∀ j, rows * w ≤ j → j < s.g.linearBytes.toNat → pw * h ≤ j → j < pw * (h + 32 * hTC) →
    ∃ n, n < wT * hTC ∧ tilePos wT hTC n = ((j - pw * h) / pw / 32, (j - pw * h) % pw / 64) ∧
      t.mem.read (dst + j)
        = s.mem.read (src + luma + n * 2048 + (j - pw * h) / pw % 32 * 64 + (j - pw * h) % pw % 64)) ∧
  (∀ j, rows * w ≤ j → j < s.g.linearBytes.toNat → ¬ (pw * h ≤ j ∧ j < pw * (h + 32 * hTC)) → j < pw * ph →
    ∃ n, n < wT * hT ∧ tilePos wT hT n = (j / pw / 32, j % pw / 64) ∧
      t.mem.read (dst + j) = s.mem.read (src + n * 2048 + j / pw % 32 * 64 + j % pw % 64)) ∧
  (∀ j, rows * w ≤ j → j < s.g.linearBytes.toNat → ¬ (pw * h ≤ j ∧ j < pw * (h + 32 * hTC)) → pw * ph ≤ j →
    t.mem.read (dst + j) = s.mem.read (dst + j)) ∧
  (∀ a, inWindow s.dstWin a = false → t.mem.read a = s.mem.read a)

/-- R121's effect in closed form: `t` holds in SCR the bytes `u` holds in DST, the luma bytes stay, U and V are split, and every other byte is as in `u`. -/
def planarOf (s u t : State) : Prop :=
  let N := s.g.linearBytes.toNat
  let L := s.g.lumaLen.toNat
  let C := s.g.chromaLen.toNat
  let dst := s.dstAddr.toNat
  let scr := s.scrAddr.toNat
  (∀ j, j < N → t.mem.read (scr + j) = u.mem.read (dst + j)) ∧
  (∀ j, j < L → t.mem.read (dst + j) = u.mem.read (dst + j)) ∧
  (∀ k, k < C → t.mem.read (dst + L + k) = u.mem.read (dst + L + 2 * k)) ∧
  (∀ k, k < C → t.mem.read (dst + L + C + k) = u.mem.read (dst + L + 2 * k + 1)) ∧
  (∀ a, ¬ (scr ≤ a ∧ a < scr + N) → ¬ (dst ≤ a ∧ a < dst + L + 2 * C) → t.mem.read a = u.mem.read a)

/-- No check of FRAME fails and its windows are ordinary memory. -/
def frameReady (s : State) : Prop :=
  s.geomValid = true ∧ endsBeyondM s s.srcWin = false ∧ endsBeyondM s s.dstWin = false ∧
  overlap s.srcWin s.dstWin = false ∧ ordinary s [s.srcWin, s.dstWin] = true ∧
  (s.layout = 1 → endsBeyondM s s.scrWin = false ∧ overlap s.scrWin s.dstWin = false ∧
    ordinary s [s.scrWin] = true)

/-- The windows the command in a word owns while it is pending (R61): none for a word that is no command. -/
def owned (s : State) (w : Word) : List Window :=
  if w = 0x00000002 ∨ w = 0x00000012 then [s.srcWin, s.dstWin]
  else if w = 0x00000003 then [s.dstWin]
  else if w = 0x00000004 then [s.dstWin, s.scrWin]
  else if w = 0x00000005 then
    (if s.layout = 1 then [s.srcWin, s.dstWin, s.scrWin] else [s.srcWin, s.dstWin])
  else []

/-- The windows the command in a word may write (R58, R159). -/
def written (s : State) (w : Word) : List Window :=
  if w = 0x00000002 ∨ w = 0x00000012 ∨ w = 0x00000003 then [s.dstWin]
  else if w = 0x00000004 then [s.dstWin, s.scrWin]
  else if w = 0x00000005 then (if s.layout = 1 then [s.dstWin, s.scrWin] else [s.dstWin])
  else []

/-- The address lies in none of the windows. -/
def outside (ws : List Window) (a : Nat) : Prop := ∀ w ∈ ws, ¬ (w.base ≤ a ∧ a < w.base + w.size)

/-- What the host has left to do after the first byte of a FILL at `a`: the rest of the FILL, if any, then `rest`. -/
def afterFirstByte (a : Nat) (data : List Byte) (rest : List HostMove) : List HostMove :=
  match data with
  | [] => rest
  | c :: more => .fill (a + 1) (c :: more) :: rest

/-- The state after a FILL has written the byte `b` at `a` and has `data` left: that byte of M, and no other, has changed. -/
def fillsByte (s : State) (a : Nat) (b : Byte) (data : List Byte) (rest : List HostMove) : Prop :=
  ∃ t, step s = .next t ∧ t = { moving s (afterFirstByte a data rest) with mem := t.mem } ∧
    t.mem.read a = b ∧ ∀ x, x ≠ a → t.mem.read x = s.mem.read x

/-- The state after the host has read the byte of M at `a`: only what the host has seen has grown. -/
def readsByte (s : State) (a : Nat) (rest : List HostMove) : Prop :=
  step s = .next { moving s rest with observed := .mem a (s.mem.read a) :: s.observed }

end Sys2Proof.Claims

open Sys2Proof.Claims

/-! ## Encoding -/

/-- R72: the six listed words decode to their commands, every other word is Illegal; and the engine decodes the word in PENDING when it starts on it, running the command or raising ILLEGAL_CMD. -/
def Obligations.DecodeAcceptsExactlyTheSixWords : Prop :=
  (∀ w : Word,
    (w = 0x00000001 → decode w = .ok .geom) ∧
    (w = 0x00000002 → decode w = .ok .detileY) ∧
    (w = 0x00000012 → decode w = .ok .detileUV) ∧
    (w = 0x00000003 → decode w = .ok .crop) ∧
    (w = 0x00000004 → decode w = .ok .planar) ∧
    (w = 0x00000005 → decode w = .ok .frame) ∧
    (w ∉ [0x00000001, 0x00000002, 0x00000012, 0x00000003, 0x00000004, 0x00000005] →
      ∃ e, decode w = .error e)) ∧
  (∀ (s : State) (w : Word), s.pending = some w →
    (∀ i, decode w = .ok i → engineStep s = exec i s) ∧
    (∀ e, decode w = .error e → engineStep s = .next (failed s 1)))

/-- R69, R70, R71, R75: a word is rejected by the name of what is reserved in it: RSVD, PLANE without DETILE, or OP.
Which of several reasons is named, RSVD before PLANE before OP, is the model's choice (DEDUCED, log 17); every such word has one and the same effect (R75). -/
def Obligations.ReservedWordsAreRejectedByName : Prop :=
  ∀ w : Word,
    (decode w = .error .rsvdSet ↔ 32 ≤ w.toNat) ∧
    (decode w = .error .planeWithoutDetile ↔ w.toNat < 32 ∧ 16 ≤ w.toNat ∧ w.toNat ≠ 18) ∧
    (decode w = .error .reservedOp ↔ w.toNat < 16 ∧ (w.toNat = 0 ∨ 6 ≤ w.toNat))

/-- Decoding inverts encoding for every command, both ways, and no bit of a word is dropped by cutting it into the fields of R68. -/
def Obligations.DecodeInvertsEncode : Prop :=
  (∀ (w : Word) (i : Instr), decode w = .ok i ↔ encode i = w) ∧
  (∀ w : Word, (CmdFields.ofWord w).toWord = w) ∧
  (∀ f : CmdFields, CmdFields.ofWord f.toWord = f ∧ (f.wf = true ↔ ∃ i, encode i = f.toWord))

/-- Some words written out from R68 … R71 stand for the commands of the table. -/
def Obligations.TableWordsDecode : Prop :=
  decodeTableWord 32 0b00000000000000000000000000000001 = some .geom ∧
  decodeTableWord 32 0b00000000000000000000000000010010 = some .detileUV ∧
  decodeTableWord 32 0b00000000000000000000000000000101 = some .frame ∧
  decodeTableWord 32 0b00000000000000000000000000010011 = none ∧
  decodeTableWord 32 0b00000000000000000000000000000000 = none

/-! ## The step -/

/-- R172: when it is the engine's turn and PENDING decodes to a command, the step is that command at this state, its turn used up; when it is the host's turn, the step is the host's. Whose turn it is follows `turns`, and a pending command goes first when no turn is named (the model's own order, log 4). -/
def Obligations.StepRunsThePendingCommand : Prop :=
  (∀ (s : State) (w : Word) (i : Instr), s.mover = .engine → s.pending = some w → decode w = .ok i →
    step s = exec i { s with turns := s.turns.tail }) ∧
  (∀ s : State, s.mover = .host → step s = hostStep { s with turns := s.turns.tail }) ∧
  (∀ (s : State) (a : Agent) (rest : List Agent), s.turns = a :: rest → s.mover = a) ∧
  (∀ s : State, s.turns = [] → (s.mover = .engine ↔ s.pending ≠ none))

/-- A word placed as the next command is the command the next step runs (the model's load of a program, log 3). -/
def Obligations.PlacedWordRunsNext : Prop :=
  ∀ (s : State) (w : Word) (i : Instr), decode w = .ok i →
    step (s.withFetchWord 32 w.toNat)
      = exec i { s with pending := some w, busy := true, done := false, err := false, errcode := 0 }

/-- R138: a word that is none of the six raises ILLEGAL_CMD, with no other effect. -/
def Obligations.IllegalWordOnlyReportsIllegalCmd : Prop :=
  ∀ (s : State) (w : Word), s.mover = .engine → s.pending = some w →
    w ∉ [0x00000001, 0x00000002, 0x00000012, 0x00000003, 0x00000004, 0x00000005] →
    step s = .next (failed { s with turns := s.turns.tail } 1)

/-- R157: with nothing pending and no move of the host left, a step changes nothing but the turn, and the run stays ended (R174). -/
def Obligations.EndedMachineStaysAsItIs : Prop :=
  ∀ s : State, s.Inv = true → s.ended = true →
    ∃ t, step s = .next t ∧ t = { s with turns := s.turns.tail } ∧ t.ended = true

/-! ## GEOM -/

/-- R95, R96: GEOM latches the sixteen numbers of R95, each as it is, or, on a width or height that is 0 or above MAX_DIM, clears the descriptor and raises INVALID_GEOMETRY; nothing else changes. -/
def Obligations.GeomLatchesOrRejects : Prop :=
  ∀ s : State, s.params.maxDim ≤ 16384 →
    let w := s.width.toNat
    let h := s.height.toNat
    ((w = 0 ∨ h = 0 ∨ s.params.maxDim < w ∨ s.params.maxDim < h) →
      exec .geom s = .next { failed s 2 with g := ⟨0, 0, 0, 0, 0, 0, 0, 0, 0, 0, 0, 0, 0, 0, 0, 0⟩, geomValid := false }) ∧
    (¬ (w = 0 ∨ h = 0 ∨ s.params.maxDim < w ∨ s.params.maxDim < h) →
      let pw := (w + 127) / 128 * 128
      let ph := (h + 31) / 32 * 32
      let wT := pw / 64
      let hT := ph / 32
      let hTC := (h / 2 + 31) / 32 * 32 / 32
      let luma := wT * hT * 2048 + wT * hT % 4 * 2048
      let chroma := wT * hTC * 2048 + wT * hTC % 4 * 2048
      ∃ t, exec .geom s = .next t ∧ t = { finished s s.mem with g := t.g, geomValid := true } ∧
        t.g.width.toNat = w ∧ t.g.height.toNat = h ∧ t.g.pWidth.toNat = pw ∧ t.g.pHeight.toNat = ph ∧
        t.g.wTiles.toNat = wT ∧ t.g.hTiles.toNat = hT ∧ t.g.hTilesC.toNat = hTC ∧
        t.g.lumaBytes.toNat = luma ∧ t.g.chromaBytes.toNat = chroma ∧ t.g.tiledBytes.toNat = luma + chroma ∧
        t.g.linearBytes.toNat = w * h * 3 / 2 ∧ t.g.cropRows.toNat = h * 3 / 2 ∧ t.g.lumaLen.toNat = w * h ∧
        t.g.chromaLen.toNat = w * h / 4 ∧ t.g.uvOffset.toNat = pw * h ∧
        t.g.dstWindow.toNat = max (max (pw * ph) (pw * h + hTC * 32 * pw)) (w * h * 3 / 2))

/-- R93: the nine derived facts of every legal geometry, of the registers a GEOM leaves. -/
def Obligations.GeomResultHasTheDerivedFacts : Prop :=
  ∀ s t : State, s.params.maxDim ≤ 16384 → exec .geom s = .next t → t.geomValid = true →
    let w := t.g.width.toNat
    let h := t.g.height.toNat
    let pw := t.g.pWidth.toNat
    let ph := t.g.pHeight.toNat
    let wT := t.g.wTiles.toNat
    let hT := t.g.hTiles.toNat
    let hTC := t.g.hTilesC.toNat
    let rows := t.g.cropRows.toNat
    let lin := t.g.linearBytes.toNat
    (wT % 2 = 0 ∧ 2 ≤ wT ∧ wT * 64 = pw ∧ 1 ≤ hT ∧ hT * 32 = ph) ∧
    ((w % 128 = 0 → pw = w) ∧ (h % 32 = 0 → ph = h)) ∧
    ((hTC = 0 ↔ h = 1) ∧ (hTC = 0 → t.g.chromaBytes.toNat = 0)) ∧
    ((wT * hT % 4 = 0 ∨ wT * hT % 4 = 2) ∧ (wT * hTC % 4 = 0 ∨ wT * hTC % 4 = 2) ∧
      t.g.lumaBytes.toNat = wT * hT * 2048 + (if wT / 2 % 2 = 1 ∧ hT % 2 = 1 then 4096 else 0) ∧
      t.g.chromaBytes.toNat = wT * hTC * 2048 + (if wT / 2 % 2 = 1 ∧ hTC % 2 = 1 then 4096 else 0)) ∧
    (lin = t.g.lumaLen.toNat + w * h / 2) ∧
    (rows * w ≤ lin ∧ (rows * w = lin ↔ h % 2 = 0 ∨ w = 1) ∧ (h % 2 = 1 → 2 ≤ w → lin - rows * w = w / 2)) ∧
    (t.g.lumaLen.toNat + 2 * t.g.chromaLen.toNat ≤ lin ∧
      (t.g.lumaLen.toNat + 2 * t.g.chromaLen.toNat = lin ↔ w * h % 4 = 0 ∨ w * h % 4 = 1)) ∧
    (rows * pw ≤ t.g.dstWindow.toNat ∧ h / 2 ≤ 32 * hTC) ∧
    (4096 ≤ t.g.dstWindow.toNat ∧ 8192 ≤ t.g.tiledBytes.toNat ∧ 1 ≤ lin)

/-- R94: with MAX_DIM ≤ 16384 every value is below 2^29, none exceeds its value at 16384×16384, and a plane's padding is at most 4096 bytes. -/
def Obligations.GeomResultFitsItsRegisters : Prop :=
  ∀ s t : State, s.params.maxDim ≤ 16384 → exec .geom s = .next t → t.geomValid = true →
    (∀ r : Word, r ∈ [t.g.width, t.g.height, t.g.pWidth, t.g.pHeight, t.g.wTiles, t.g.hTiles, t.g.hTilesC,
        t.g.lumaBytes, t.g.chromaBytes, t.g.tiledBytes, t.g.linearBytes, t.g.cropRows, t.g.lumaLen, t.g.chromaLen,
        t.g.uvOffset, t.g.dstWindow] → r.toNat < 2 ^ 29) ∧
    t.g.pWidth.toNat ≤ 16384 ∧ t.g.pHeight.toNat ≤ 16384 ∧ t.g.wTiles.toNat ≤ 256 ∧ t.g.hTiles.toNat ≤ 512 ∧
    t.g.hTilesC.toNat ≤ 256 ∧ t.g.lumaBytes.toNat ≤ 268435456 ∧ t.g.chromaBytes.toNat ≤ 134217728 ∧
    t.g.tiledBytes.toNat ≤ 402653184 ∧ t.g.linearBytes.toNat ≤ 402653184 ∧ t.g.dstWindow.toNat ≤ 402653184 ∧
    (s.width.toNat = 16384 → s.height.toNat = 16384 →
      t.g.pWidth.toNat = 16384 ∧ t.g.pHeight.toNat = 16384 ∧ t.g.wTiles.toNat = 256 ∧ t.g.hTiles.toNat = 512 ∧
      t.g.hTilesC.toNat = 256 ∧ t.g.lumaBytes.toNat = 268435456 ∧ t.g.chromaBytes.toNat = 134217728 ∧
      t.g.tiledBytes.toNat = 402653184 ∧ t.g.linearBytes.toNat = 402653184 ∧ t.g.dstWindow.toNat = 402653184) ∧
    t.g.lumaBytes.toNat ≤ t.g.wTiles.toNat * t.g.hTiles.toNat * 2048 + 4096 ∧
    t.g.chromaBytes.toNat ≤ t.g.wTiles.toNat * t.g.hTilesC.toNat * 2048 + 4096

/-- R99: GEOM reads and writes no memory, its result depends only on WIDTH, HEIGHT and MAX_DIM, and issuing it again leaves the same registers. -/
def Obligations.GeomIsPure : Prop :=
  (∀ s t : State, exec .geom s = .next t → t.mem = s.mem) ∧
  (∀ s u t v : State, u.width = s.width → u.height = s.height → u.params.maxDim = s.params.maxDim →
    exec .geom s = .next t → exec .geom u = .next v →
    v.g = t.g ∧ v.geomValid = t.geomValid ∧ v.done = t.done ∧ v.err = t.err ∧ v.errcode = t.errcode) ∧
  (∀ s t : State, exec .geom s = .next t → exec .geom (t.issue 0x00000001) = .next t)

/-- R97: after a failed GEOM all sixteen G_* are 0, GEOM_VALID is 0 and M is as it was; GEOM_VALID then stays 0 over every step but a GEOM that
succeeds; while it is 0 every other command fails with NO_GEOMETRY; and no GEOM writes memory. -/
def Obligations.FailedGeomLeavesNoDescriptor : Prop :=
  (∀ s t : State, exec .geom s = .next t → t.err = true →
    t = { failed s 2 with g := ⟨0, 0, 0, 0, 0, 0, 0, 0, 0, 0, 0, 0, 0, 0, 0, 0⟩, geomValid := false } ∧
    ∀ (i : Instr) (w : Word), i ≠ .geom → exec i (t.issue w) = .next (failed t 3)) ∧
  (∀ s t : State, s.geomValid = false → step s = .next t →
    t.geomValid = false ∨
      (s.mover = .engine ∧ s.pending = some 0x00000001 ∧ t.done = true ∧ t.err = false)) ∧
  (∀ (s : State) (i : Instr), s.geomValid = false → i ≠ .geom → exec i s = .next (failed s 3)) ∧
  (∀ s t : State, exec .geom s = .next t → t.mem = s.mem)

/-! ## DETILE -/

/-- R103, R104, R105: the pair scan in Z and flip-Z order, and the remainder row, as positions of stream tiles. -/
def Obligations.TileOrderIsTheZScan : Prop :=
  ∀ wT hT : Nat, wT % 2 = 0 →
    (∀ p z, p < hT / 2 → z < wT / 2 →
      (z % 2 = 0 →
        tilePos wT hT (p * (2 * wT) + 4 * z) = (2 * p, 2 * z) ∧
        tilePos wT hT (p * (2 * wT) + 4 * z + 1) = (2 * p, 2 * z + 1) ∧
        tilePos wT hT (p * (2 * wT) + 4 * z + 2) = (2 * p + 1, 2 * z) ∧
        tilePos wT hT (p * (2 * wT) + 4 * z + 3) = (2 * p + 1, 2 * z + 1)) ∧
      (z % 2 = 1 →
        tilePos wT hT (p * (2 * wT) + 4 * z) = (2 * p + 1, 2 * z) ∧
        tilePos wT hT (p * (2 * wT) + 4 * z + 1) = (2 * p + 1, 2 * z + 1) ∧
        tilePos wT hT (p * (2 * wT) + 4 * z + 2) = (2 * p, 2 * z) ∧
        tilePos wT hT (p * (2 * wT) + 4 * z + 3) = (2 * p, 2 * z + 1))) ∧
    (hT % 2 = 1 → ∀ i, i < wT → tilePos wT hT (hT / 2 * (2 * wT) + i) = (hT - 1, i))

/-- R110: the stream tiles and the grid positions correspond one to one. -/
def Obligations.TileOrderIsABijection : Prop :=
  ∀ wT hT : Nat, wT % 2 = 0 →
    (∀ n, n < wT * hT → (tilePos wT hT n).1 < hT ∧ (tilePos wT hT n).2 < wT) ∧
    (∀ n m, n < wT * hT → m < wT * hT → tilePos wT hT n = tilePos wT hT m → n = m) ∧
    (∀ row col, row < hT → col < wT → ∃ n, n < wT * hT ∧ tilePos wT hT n = (row, col))

/-- R109, R101, R102: DETILE.Y and DETILE.UV, whole: the errors, and every tile at its grid position, every other byte as before. -/
def Obligations.DetilePlacesEveryTile : Prop :=
  ∀ s : State, s.Inv = true →
    detilesPlane s .detileY s.g.wTiles.toNat s.g.hTiles.toNat s.srcAddr.toNat s.dstAddr.toNat ∧
    detilesPlane s .detileUV s.g.wTiles.toNat s.g.hTilesC.toNat (s.srcAddr.toNat + s.g.lumaBytes.toNat)
      (s.dstAddr.toNat + s.g.uvOffset.toNat)

/-- R113: DETILE applied to a re-tiled raster reproduces the raster, for both planes. -/
def Obligations.DetileRestoresARetiledRaster : Prop :=
  ∀ s : State, s.Inv = true → s.geomValid = true → endsBeyondM s s.srcWin = false →
    endsBeyondM s s.dstWin = false → overlap s.srcWin s.dstWin = false → ordinary s [s.srcWin, s.dstWin] = true →
    restoresRaster s .detileY s.g.wTiles.toNat s.g.hTiles.toNat s.srcAddr.toNat s.dstAddr.toNat ∧
    restoresRaster s .detileUV s.g.wTiles.toNat s.g.hTilesC.toNat (s.srcAddr.toNat + s.g.lumaBytes.toNat)
      (s.dstAddr.toNat + s.g.uvOffset.toNat)

/-- R107: the plane's raster depends on the plane's wT*hT*2048 source bytes only; the padding is not read. -/
def Obligations.DetileReadsOnlyThePlanesTiles : Prop :=
  ∀ s u t v : State, s.Inv = true → u.Inv = true → sameButMemory s u →
    ((∀ a, s.srcAddr.toNat ≤ a → a < s.srcAddr.toNat + s.g.wTiles.toNat * s.g.hTiles.toNat * 2048 →
        u.mem.read a = s.mem.read a) →
      exec .detileY s = .next t → exec .detileY u = .next v → t.err = false →
      ∀ a, s.dstAddr.toNat ≤ a → a < s.dstAddr.toNat + s.g.hTiles.toNat * 32 * (s.g.wTiles.toNat * 64) →
        v.mem.read a = t.mem.read a) ∧
    ((∀ a, s.srcAddr.toNat + s.g.lumaBytes.toNat ≤ a →
        a < s.srcAddr.toNat + s.g.lumaBytes.toNat + s.g.wTiles.toNat * s.g.hTilesC.toNat * 2048 →
        u.mem.read a = s.mem.read a) →
      exec .detileUV s = .next t → exec .detileUV u = .next v → t.err = false →
      ∀ a, s.dstAddr.toNat + s.g.uvOffset.toNat ≤ a →
        a < s.dstAddr.toNat + s.g.uvOffset.toNat + s.g.hTilesC.toNat * 32 * (s.g.wTiles.toNat * 64) →
        v.mem.read a = t.mem.read a)

/-- R112 item 6: DETILE issued again with the same inputs leaves the same memory. -/
def Obligations.DetileAgainChangesNothing : Prop :=
  ∀ (s t : State) (i : Instr) (w : Word), s.Inv = true → i = .detileY ∨ i = .detileUV →
    exec i s = .next t → t.err = false → exec i (t.issue w) = .next t

/-! ## CROP -/

/-- R114, R117: CROP, whole: the errors, and row i moved from stride G_PWIDTH to stride G_WIDTH for every i < G_CROP_ROWS, every other byte as before; with an aligned width M is the same. -/
def Obligations.CropCompactsTheRows : Prop :=
  ∀ s : State, s.Inv = true →
    (s.geomValid = false → exec .crop s = .next (failed s 3)) ∧
    (s.geomValid = true → endsBeyondM s s.dstWin = true → exec .crop s = .next (failed s 4)) ∧
    (s.geomValid = true → endsBeyondM s s.dstWin = false → ordinary s [s.dstWin] = true →
      let w := s.g.width.toNat
      let pw := s.g.pWidth.toNat
      let rows := s.g.cropRows.toNat
      let dst := s.dstAddr.toNat
      ∃ t, exec .crop s = .next t ∧ t = finished s t.mem ∧
        (∀ i x, i < rows → x < w → t.mem.read (dst + i * w + x) = s.mem.read (dst + i * pw + x)) ∧
        (∀ a, ¬ (dst ≤ a ∧ a < dst + rows * w) → t.mem.read a = s.mem.read a) ∧
        (w = pw → t.mem = s.mem))

/-! ## PLANAR -/

/-- R121, R122, R123, R124: PLANAR, whole: the errors in order, the scratch copy, luma verbatim, U and V split, every other byte as before. -/
def Obligations.PlanarSplitsTheChroma : Prop :=
  ∀ s : State, s.Inv = true →
    (s.geomValid = false → exec .planar s = .next (failed s 3)) ∧
    (s.geomValid = true → endsBeyondM s s.dstWin = true ∨ endsBeyondM s s.scrWin = true →
      exec .planar s = .next (failed s 4)) ∧
    (s.geomValid = true → endsBeyondM s s.dstWin = false → endsBeyondM s s.scrWin = false →
      overlap s.scrWin s.dstWin = true → exec .planar s = .next (failed s 5)) ∧
    (s.geomValid = true → endsBeyondM s s.dstWin = false → endsBeyondM s s.scrWin = false →
      overlap s.scrWin s.dstWin = false → ordinary s [s.dstWin, s.scrWin] = true →
      ∃ t, exec .planar s = .next t ∧ t = finished s t.mem ∧ planarOf s s t)

/-- R127: PLANAR undoes interleave: U0, V0, U1, V1, … at offset L become U at [L, L+C) and V at [L+C, L+2C). -/
def Obligations.PlanarUndoesInterleave : Prop :=
  ∀ (s : State) (U V : Nat → Byte), s.Inv = true → s.geomValid = true → endsBeyondM s s.dstWin = false →
    endsBeyondM s s.scrWin = false → overlap s.scrWin s.dstWin = false → ordinary s [s.dstWin, s.scrWin] = true →
    (∀ k, k < s.g.chromaLen.toNat →
      s.mem.read (s.dstAddr.toNat + s.g.lumaLen.toNat + 2 * k) = U k ∧
      s.mem.read (s.dstAddr.toNat + s.g.lumaLen.toNat + 2 * k + 1) = V k) →
    ∃ t, exec .planar s = .next t ∧
      ∀ k, k < s.g.chromaLen.toNat →
        t.mem.read (s.dstAddr.toNat + s.g.lumaLen.toNat + k) = U k ∧
        t.mem.read (s.dstAddr.toNat + s.g.lumaLen.toNat + s.g.chromaLen.toNat + k) = V k

/-! ## FRAME -/

/-- R128, R129, R130: FRAME, whole: the errors in order; otherwise it is DETILE.Y, DETILE.UV, CROP and, when LAYOUT = 1, PLANAR, each on what the one before it left, none of which can fail. -/
def Obligations.FrameRunsTheUnitsInOrder : Prop :=
  ∀ s : State, s.Inv = true →
    (s.geomValid = false → exec .frame s = .next (failed s 3)) ∧
    (s.geomValid = true →
      endsBeyondM s s.srcWin = true ∨ endsBeyondM s s.dstWin = true ∨ (s.layout = 1 ∧ endsBeyondM s s.scrWin = true) →
      exec .frame s = .next (failed s 4)) ∧
    (s.geomValid = true → endsBeyondM s s.srcWin = false → endsBeyondM s s.dstWin = false →
      (s.layout = 1 → endsBeyondM s s.scrWin = false) →
      overlap s.srcWin s.dstWin = true ∨ (s.layout = 1 ∧ overlap s.scrWin s.dstWin = true) →
      exec .frame s = .next (failed s 5)) ∧
    (frameReady s →
      ∃ a b c, exec .detileY s = .next a ∧ exec .detileUV a = .next b ∧ exec .crop b = .next c ∧
        (s.layout = 0 → exec .frame s = .next c ∧ c = finished s c.mem) ∧
        (s.layout = 1 → ∃ d, exec .planar c = .next d ∧ exec .frame s = .next d ∧ d = finished s d.mem))

/-- R133: the output frame of FRAME in closed form, for both layouts. -/
def Obligations.FrameOutputInClosedForm : Prop :=
  ∀ s : State, s.Inv = true → frameReady s →
    (s.layout = 0 → ∃ t, exec .frame s = .next t ∧ t = finished s t.mem ∧ nv12Output s t) ∧
    (s.layout = 1 → ∃ u t, exec .frame { s with layout := 0 } = .next u ∧ nv12Output s u ∧
      exec .frame s = .next t ∧ t = finished s t.mem ∧ planarOf s u t)

/-- R134 item 4: FRAME again on the same source gives the same output, if SCR_WIN does not overlap SRC_WIN (in planar output) and no output byte is left unwritten. -/
def Obligations.FrameAgainGivesTheSameOutput : Prop :=
  ∀ (s t : State) (w : Word), s.Inv = true → frameReady s →
    (s.layout = 1 → overlap s.scrWin s.srcWin = false) →
    s.g.linearBytes.toNat ≤ max (s.g.pWidth.toNat * s.g.pHeight.toNat)
      (s.g.pWidth.toNat * (s.g.height.toNat + 32 * s.g.hTilesC.toNat)) →
    exec .frame s = .next t →
    ∃ u, exec .frame (t.issue w) = .next u ∧
      ∀ j, j < s.g.linearBytes.toNat →
        u.mem.read (s.dstAddr.toNat + j) = t.mem.read (s.dstAddr.toNat + j)

/-! ## All commands -/

/-- R144: each command reports the first error that applies, in the order of the table; an illegal word before everything. -/
def Obligations.FirstErrorIsReported : Prop :=
  ∀ s : State,
    let dims := s.width.toNat = 0 ∨ s.height.toNat = 0 ∨ s.params.maxDim < s.width.toNat ∨ s.params.maxDim < s.height.toNat
    let reports := fun (i : Instr) (checks : List (Bool × BitVec 4)) =>
      match firstCode checks with
      | some code => exec i s = .next (failed s code)
      | none => ∀ t, exec i s = .next t → t.err = false
    let src := endsBeyondM s s.srcWin
    let dst := endsBeyondM s s.dstWin
    let scr := endsBeyondM s s.scrWin
    let planar := s.layout == 1
    (∀ w e, decode w = .error e → engineStep { s with pending := some w } = .next (failed { s with pending := some w } 1)) ∧
    (∀ t, exec .geom s = .next t → (t.err = true ↔ dims) ∧ (t.err = true → t.errcode = 2)) ∧
    reports .detileY [(!s.geomValid, 3), (src, 4), (dst, 4), (overlap s.srcWin s.dstWin, 5)] ∧
    reports .detileUV [(!s.geomValid, 3), (src, 4), (dst, 4), (overlap s.srcWin s.dstWin, 5)] ∧
    reports .crop [(!s.geomValid, 3), (dst, 4)] ∧
    reports .planar [(!s.geomValid, 3), (dst, 4), (scr, 4), (overlap s.scrWin s.dstWin, 5)] ∧
    reports .frame [(!s.geomValid, 3), (src, 4), (dst, 4), (planar && scr, 4), (overlap s.srcWin s.dstWin, 5),
      (planar && overlap s.scrWin s.dstWin, 5)]

/-- R140: every command but GEOM fails with NO_GEOMETRY, changing nothing else, when GEOM_VALID = 0. -/
def Obligations.CommandsNeedADescriptor : Prop :=
  ∀ (s : State) (i : Instr), i ≠ .geom → s.geomValid = false → exec i s = .next (failed s 3)

/-- R145: a command that raises an error leaves M, and, but for GEOM, the G_* registers and GEOM_VALID, exactly as they were. -/
def Obligations.ErrorsArePrecise : Prop :=
  ∀ (s t : State) (i : Instr), exec i s = .next t → t.err = true →
    t.mem = s.mem ∧ (i ≠ .geom → t = failed s t.errcode)

/-- R146, R147: a command that ends has ended: BUSY = 0, PENDING none, and either DONE alone or ERR with one of the five codes; it changes no register but STATUS, and M, the G_* registers and GEOM_VALID only. -/
def Obligations.CommandsCompleteWithDoneOrError : Prop :=
  ∀ (s t : State) (i : Instr), exec i s = .next t →
    t.busy = false ∧ t.pending = none ∧
    ((t.done = true ∧ t.err = false ∧ t.errcode = 0) ∨
      (t.done = false ∧ t.err = true ∧ 1 ≤ t.errcode.toNat ∧ t.errcode.toNat ≤ 5)) ∧
    t = { s with done := t.done, err := t.err, errcode := t.errcode, busy := false, pending := none,
                 mem := t.mem, g := t.g, geomValid := t.geomValid } ∧
    (i ≠ .geom → t.g = s.g ∧ t.geomValid = s.geomValid)

/-- Every command answers a next state on a platform whose M is all ordinary memory, whatever the state; where it is not, a command that passes its checks over a device is refused by name, and nothing else stops (R54, R167). -/
def Obligations.CommandsStopOnlyOverDevices : Prop :=
  ∀ (s : State) (i : Instr),
    (s.params.devices = [] → ∃ t, exec i s = .next t) ∧
    (∀ f, exec i s ≠ .fault f) ∧
    (∀ r, exec i s = .refused r → r = .notOrdinaryMemory ∧ i ≠ .geom ∧ s.geomValid = true ∧
      ∃ w ∈ owned s (encode i), ∃ d ∈ s.params.devices, overlap w d = true) ∧
    (∀ t, exec i s = .next t → t.err = false → i ≠ .geom →
      ∀ w ∈ owned s (encode i), ∀ d ∈ s.params.devices, overlap w d = false)

/-- R58: a command changes no byte outside the windows it may write, and what it does depends on no byte outside the windows it uses. -/
def Obligations.CommandsStayInTheirWindows : Prop :=
  (∀ (s t : State) (i : Instr), s.Inv = true → exec i s = .next t →
    ∀ a, outside (written s (encode i)) a → t.mem.read a = s.mem.read a) ∧
  (∀ (s u t : State) (i : Instr), s.Inv = true → sameButMemory s u → exec i s = .next t →
    (∀ a, ¬ outside (owned s (encode i)) a → u.mem.read a = s.mem.read a) →
    ∃ v, exec i u = .next v ∧ sameButMemory t v ∧
      ∀ a, ¬ outside (owned s (encode i)) a → v.mem.read a = t.mem.read a)

/-- R51: the engine writes only bytes it has read: after a command each byte of M is the one that stood there before, or one that stood in an existing
byte of the windows the command uses. -/
def Obligations.CommandsOnlyMoveBytes : Prop :=
  ∀ (s t : State) (i : Instr), s.Inv = true → exec i s = .next t →
    ∀ a, ∃ b, (b = a ∨ (¬ outside (owned s (encode i)) b ∧ b < s.params.memBytes)) ∧ t.mem.read a = s.mem.read b

/-- R57: two windows of at least one byte overlap, as the checks compute it, exactly when some byte lies in both; and R56: a window is out of bounds exactly when some byte of it does not exist. -/
def Obligations.WindowChecksMeanWhatTheySay : Prop :=
  ∀ (s : State) (w v : Window), 0 < w.size → 0 < v.size →
    (overlap w v = true ↔ ∃ a, (w.base ≤ a ∧ a < w.base + w.size) ∧ (v.base ≤ a ∧ a < v.base + v.size)) ∧
    (inBounds w s.params.memBytes = true ↔ ∀ a, w.base ≤ a → a < w.base + w.size → a < s.params.memBytes)

/-! ## The register window -/

/-- R29: where each field stands in STATUS, the reserved bits 0. -/
def Obligations.StatusWordHasItsFields : Prop :=
  ∀ s : State,
    (statusWord s).toNat = s.busy.toNat + 2 * s.done.toNat + 4 * s.err.toNat + 8 * s.geomValid.toNat
      + 16 * s.wbusy.toNat + 256 * s.errcode.toNat

/-- R34: a 32-bit aligned read returns the register's value, reserved bits 0, CMD and the reserved offsets 0, and changes nothing but what the host has seen; the G_* registers change while BUSY = 1 only in a GEOM (or in a reset, R158). -/
def Obligations.RegisterReadsHaveNoSideEffect : Prop :=
  (∀ (s : State) (rest : List HostMove) (off : Nat) (v : Word),
    (off, v) ∈ [(0x00, 0x4E563132), (0x04, s.width.setWidth 32), (0x08, s.height.setWidth 32),
      (0x0C, s.layout.setWidth 32), (0x10, s.srcAddr), (0x14, s.dstAddr), (0x18, s.scrAddr), (0x1C, 0),
      (0x20, statusWord s), (0x24, 0), (0x28, 0), (0x2C, 0), (0x30, 0), (0x34, 0), (0x38, 0), (0x3C, 0),
      (0x40, s.g.width), (0x44, s.g.height), (0x48, s.g.pWidth), (0x4C, s.g.pHeight), (0x50, s.g.wTiles),
      (0x54, s.g.hTiles), (0x58, s.g.hTilesC), (0x5C, s.g.lumaBytes), (0x60, s.g.chromaBytes),
      (0x64, s.g.tiledBytes), (0x68, s.g.linearBytes), (0x6C, s.g.cropRows), (0x70, s.g.lumaLen),
      (0x74, s.g.chromaLen), (0x78, s.g.uvOffset), (0x7C, s.g.dstWindow)] →
    hostTurn s (.busRead (s.params.regBase + off) 4) rest →
    step s = .next { moving s rest with observed := .reg off v :: s.observed }) ∧
  (∀ s t : State, s.busy = true → step s = .next t → t.g ≠ s.g →
    (s.mover = .engine ∧ s.pending = some 0x00000001) ∨ ∃ rest, hostTurn s .reset rest)

/-- R35: the effect of a 32-bit aligned host write at every offset of the window, issue (R28) and STATUS (R30) included. -/
def Obligations.RegisterWritesFollowTheTable : Prop :=
  ∀ (s : State) (rest : List HostMove) (off : Nat) (d : Word), off < 0x80 → off % 4 = 0 →
    hostTurn s (.busWrite (s.params.regBase + off) 4 d) rest →
    let u := moving s rest
    (off = 0x20 → step s = .next { u with
      done := if d.getLsbD 1 then false else s.done
      err := if d.getLsbD 2 then false else s.err
      errcode := if d.getLsbD 2 then 0 else s.errcode
      wbusy := if d.getLsbD 4 then false else s.wbusy }) ∧
    (off ≠ 0x20 → s.busy = true → step s = .next { u with wbusy := true }) ∧
    (s.busy = false →
      (off = 0x04 → step s = .next { u with width := d.extractLsb' 0 16, geomValid := false }) ∧
      (off = 0x08 → step s = .next { u with height := d.extractLsb' 0 16, geomValid := false }) ∧
      (off = 0x0C → step s = .next { u with layout := d.extractLsb' 0 1 }) ∧
      (off = 0x10 → step s = .next { u with srcAddr := d }) ∧
      (off = 0x14 → step s = .next { u with dstAddr := d }) ∧
      (off = 0x18 → step s = .next { u with scrAddr := d }) ∧
      (off = 0x1C → step s = .next { u with
        pending := some d, busy := true, done := false, err := false, errcode := 0 }) ∧
      (off = 0x00 ∨ (0x24 ≤ off ∧ off < 0x80) → step s = .next u))

/-- R53: a register access that is not 32 bits wide or not at a multiple of 4 gets no step. -/
def Obligations.OtherRegisterAccessesAreRefused : Prop :=
  ∀ (s : State) (rest : List HostMove) (off bytes : Nat) (d : Word), off < 0x80 → ¬ (bytes = 4 ∧ off % 4 = 0) →
    (hostTurn s (.busRead (s.params.regBase + off) bytes) rest → step s = .refused .accessForm) ∧
    (hostTurn s (.busWrite (s.params.regBase + off) bytes d) rest → step s = .refused .accessForm)

/-- R78: `CMD m` is the write of m's word to CMD, and `CMD n` that of the number n; while idle each issues its word. -/
def Obligations.CommandLinesIssueTheirWord : Prop :=
  (∀ (p : Params) (i : Instr) (w : Word),
    (i, w) ∈ [(Instr.geom, (0x00000001 : Word)), (.detileY, 0x00000002), (.detileUV, 0x00000012), (.crop, 0x00000003),
      (.planar, 0x00000004), (.frame, 0x00000005)] →
    lineMove p (.cmd i) = lineMove p (.wr .cmd w)) ∧
  (∀ (p : Params) (n : Word), lineMove p (.cmdWord n) = lineMove p (.wr .cmd n)) ∧
  (∀ (s : State) (rest : List HostMove) (w : Word), s.busy = false → hostTurn s (lineMove s.params (.wr .cmd w)) rest →
    step s = .next { moving s rest with pending := some w, busy := true, done := false, err := false, errcode := 0 })

/-- R52: the four bytes of a register's byte view, the least significant first, make up the word. -/
def Obligations.RegisterBytesAreLittleEndian : Prop :=
  ∀ w : Word, w.toNat = (regByte w 0).toNat + 256 * (regByte w 1).toNat + 65536 * (regByte w 2).toNat
    + 16777216 * (regByte w 3).toNat

/-! ## The machine as a whole -/

/-- R158, R160, and every register's first value: the reset state meets the invariant. -/
def Obligations.ResetMeetsTheInvariant : Prop := State.reset.Inv = true

/-- The invariant (R29, R31, R32, R36, R50, R94) is kept by every step, of the engine and of the host. -/
def Obligations.EveryStepKeepsTheInvariant : Prop :=
  ∀ s t : State, s.Inv = true → step s = .next t → t.Inv = true

/-- R31: BUSY goes from 1 to 0 only when the engine completes the pending command, or in a reset; until then PENDING holds that one command. -/
def Obligations.BusyEndsOnlyByCompletionOrReset : Prop :=
  ∀ s t : State, s.Inv = true → step s = .next t → s.busy = true →
    (t.busy = true → t.pending = s.pending ∧ t.pending ≠ none) ∧
    (t.busy = false → (s.mover = .engine ∧ (t.done = true ∨ t.err = true)) ∨ ∃ rest, hostTurn s .reset rest)

/-- R29: GEOM_VALID rises only in a successful GEOM, and falls only in a failed GEOM, an accepted write to WIDTH or HEIGHT, or a reset. -/
def Obligations.GeomValidFollowsGeom : Prop :=
  ∀ s t : State, step s = .next t →
    let legal := 1 ≤ s.width.toNat ∧ s.width.toNat ≤ s.params.maxDim ∧ 1 ≤ s.height.toNat ∧ s.height.toNat ≤ s.params.maxDim
    (s.geomValid = false → t.geomValid = true →
      s.mover = .engine ∧ s.pending = some 0x00000001 ∧ legal) ∧
    (s.geomValid = true → t.geomValid = false →
      (s.mover = .engine ∧ s.pending = some 0x00000001 ∧ ¬ legal) ∨
      (∃ rest, hostTurn s .reset rest) ∨
      (s.busy = false ∧ ∃ off d rest, (off = 0x04 ∨ off = 0x08) ∧
        hostTurn s (.busWrite (s.params.regBase + off) 4 d) rest))

/-- R149: WBUSY is raised only by a host write while BUSY = 1, which changes nothing else of the block, and stays until the host writes 1 to it or resets the block; no command touches it. -/
def Obligations.WbusyIsSticky : Prop :=
  (∀ (s t : State) (i : Instr), exec i s = .next t → t.wbusy = s.wbusy) ∧
  (∀ s t : State, step s = .next t →
    (s.wbusy = false → t.wbusy = true →
      s.busy = true ∧ ∃ a b d rest, hostTurn s (.busWrite a b d) rest ∧ t = { moving s rest with wbusy := true }) ∧
    (s.wbusy = true → t.wbusy = false →
      (∃ rest, hostTurn s .reset rest) ∨
      ∃ d rest, d.getLsbD 4 = true ∧ hostTurn s (.busWrite (s.params.regBase + 0x20) 4 d) rest))

/-- R165, R61: while a command is pending no move of the host but a reset changes a register the command reads, the descriptor, the command, or a byte of the windows it owns. -/
def Obligations.RunningCommandKeepsItsOperands : Prop :=
  ∀ (s t : State) (w : Word), s.Inv = true → s.pending = some w → s.mover = .host →
    (¬ ∃ rest, hostTurn s .reset rest) → step s = .next t →
    t.width = s.width ∧ t.height = s.height ∧ t.layout = s.layout ∧ t.srcAddr = s.srcAddr ∧ t.dstAddr = s.dstAddr ∧
    t.scrAddr = s.scrAddr ∧ t.g = s.g ∧ t.geomValid = s.geomValid ∧ t.pending = some w ∧ t.busy = true ∧
    (s.geomValid = true → ∀ a, ¬ outside (owned s w) a → t.mem.read a = s.mem.read a)

/-- R61, R166: while a command with a valid descriptor is pending, a host access to a byte of the windows it owns gets no step, and an access to any
other existing byte of ordinary memory does. Without a valid descriptor the command owns no byte and the host reaches every one: that is the model's
reading of R55 and R61 (DEDUCED, log 10). A FILL of several bytes makes one access a step (log 6). -/
def Obligations.OwnedBytesAreOutOfTheHostsReach : Prop :=
  ∀ (s : State) (w : Word) (a : Nat) (b : Byte) (data : List Byte) (rest : List HostMove), s.Inv = true →
    s.pending = some w → s.params.devices = [] → a < s.params.memBytes →
    (s.geomValid = true → ¬ outside (owned s w) a →
      (hostTurn s (.memRead a) rest → step s = .refused .ownedByEngine) ∧
      (hostTurn s (.fill a (b :: data)) rest → step s = .refused .ownedByEngine)) ∧
    (s.geomValid = false ∨ outside (owned s w) a →
      (hostTurn s (.memRead a) rest → readsByte s a rest) ∧
      (hostTurn s (.fill a (b :: data)) rest → fillsByte s a b data rest))

/-- R79, R50: with nothing pending, FILL writes its bytes one after the other, each a host write, until none is left, and a read of an existing byte of M
returns it. One byte a step is the model's (log 6); so is the fault on a byte of M that does not exist (log 12). -/
def Obligations.FillWritesItsBytesInOrder : Prop :=
  ∀ (s : State) (a : Nat) (b : Byte) (data : List Byte) (rest : List HostMove), s.pending = none → s.Inv = true →
    s.params.devices = [] →
    (a < s.params.memBytes →
      (hostTurn s (.fill a (b :: data)) rest → fillsByte s a b data rest) ∧
      (hostTurn s (.memRead a) rest → readsByte s a rest)) ∧
    (hostTurn s (.fill a []) rest → step s = .next (moving s rest)) ∧
    (s.params.memBytes ≤ a →
      (hostTurn s (.fill a (b :: data)) rest → step s = .fault .noSuchByte) ∧
      (hostTurn s (.memRead a) rest → step s = .fault .noSuchByte))

/-- R158: a reset leaves every register at its reset value and PENDING none; ID reads as ever. -/
def Obligations.ResetRestoresTheRegisters : Prop :=
  ∀ (s : State) (rest : List HostMove), s.Inv = true → s.params.devices = [] → hostTurn s .reset rest →
    ∃ t, step s = .next t ∧
      t.width = 0 ∧ t.height = 0 ∧ t.layout = 0 ∧ t.srcAddr = 0 ∧ t.dstAddr = 0 ∧ t.scrAddr = 0 ∧
      t.busy = false ∧ t.done = false ∧ t.err = false ∧ t.geomValid = false ∧ t.wbusy = false ∧ t.errcode = 0 ∧
      t.g = ⟨0, 0, 0, 0, 0, 0, 0, 0, 0, 0, 0, 0, 0, 0, 0, 0⟩ ∧ t.pending = none ∧
      readReg t .id = 0x4E563132 ∧ (∀ r : Reg, r ≠ .id → readReg t r = 0)

/-- R160: a reset with nothing pending leaves M as it was; and, the model's own choice (log 19), no reset changes the platform's constants, the host's coming moves or what the host has seen. -/
def Obligations.ResetStaysInTheBlock : Prop :=
  ∀ (s t : State) (rest : List HostMove), s.Inv = true → hostTurn s .reset rest → step s = .next t →
    t = { State.reset with mem := t.mem, params := s.params, script := rest, turns := s.turns.tail,
                           observed := s.observed, draws := t.draws } ∧
    (s.busy = false → t.mem = s.mem ∧ t.draws = s.draws)

/-- R159: a reset of a running command leaves each existing byte of its write windows a free value, and every other byte of M as it was; a GEOM, an
illegal word, and any word without a valid descriptor (the model's reading, DEDUCED, log 8) leave M unchanged. -/
def Obligations.ResetFreesOnlyTheWriteWindows : Prop :=
  ∀ (s t : State) (w : Word) (rest : List HostMove), s.Inv = true → s.pending = some w →
    hostTurn s .reset rest → step s = .next t →
    (s.geomValid = true →
      (∀ a, outside (written s w) a → t.mem.read a = s.mem.read a) ∧
      (∀ a, ¬ outside (written s w) a → a < s.params.memBytes →
        ∃ k, s.draws ≤ k ∧ t.mem.read a = Config.freeByte k)) ∧
    (s.geomValid = false ∨ written s w = [] → t.mem = s.mem ∧ t.draws = s.draws)

/-- R79, R173, under the model's order of turns (DESIGN CHOICE, log 4): WAIT ends. From any state in which WAIT is the host's next move, within one step for each turn named and two more, the host goes on with BUSY = 0. -/
def Obligations.WaitEnds : Prop :=
  ∀ (s : State) (rest : List HostMove), s.Inv = true → s.params.devices = [] → s.script = .wait :: rest →
    ∃ (k : Nat) (t : State), k ≤ s.turns.length + 2 ∧ Host.Core.run Sys2Proof.core k s = .next t ∧
      t.script = rest ∧ t.busy = false

/-- R9, R40, R21: no step changes a parameter, and ID reads the same in every state. -/
def Obligations.ParametersAndIdNeverChange : Prop :=
  ∀ s t : State, step s = .next t → t.params = s.params ∧ readReg t .id = 0x4E563132

/-- R32: no step but a GEOM and a reset changes a G_* register. -/
def Obligations.OnlyGeomAndResetWriteTheDescriptor : Prop :=
  ∀ s t : State, step s = .next t → t.g ≠ s.g →
    (s.mover = .engine ∧ s.pending = some 0x00000001) ∨ ∃ rest, hostTurn s .reset rest

/-- R77: CHECK has no bus effect: only the host's record grows, by whether the register, or the last value the host read from it, is the one given. That
a CHECK records its outcome, and the run goes on, is the model's (DESIGN CHOICE, log 5). -/
def Obligations.CheckHasNoBusEffect : Prop :=
  ∀ (s : State) (r : Reg) (v : Word) (rest : List HostMove),
    (hostTurn s (lineMove s.params (.checkReg r v)) rest →
      step s = .next { moving s rest with observed := .check (readReg s r == v) :: s.observed }) ∧
    (hostTurn s (lineMove s.params (.checkLast r v)) rest →
      step s = .next { moving s rest with
        observed := .check (lastRead (regOffset r) s.observed == some v) :: s.observed }) ∧
    (lastRead (regOffset r) s.observed = some v ↔
      ∃ newer older, s.observed = newer ++ .reg (regOffset r) v :: older ∧ ∀ x, .reg (regOffset r) x ∉ newer)
end

