-- ==== Sys2Proof/Laws/Memory.lean ====
section
/-! SUPPORT. The laws of M: what each operation leaves at every address, and that each keeps the canonical form. -/

namespace Sys2Proof.Machine

/-! ## Reading -/

@[simp] theorem Memory.lookup_nil (a : Nat) : Memory.lookup [] a = none := rfl

theorem Memory.lookup_cons (k : Nat) (b : Byte) (m : Memory) (a : Nat) :
    Memory.lookup ((k, b) :: m) a = if k = a then some b else Memory.lookup m a := rfl

@[simp] theorem Memory.read_nil (a : Nat) : Memory.read [] a = Config.powerUpByte a := rfl

theorem Memory.read_cons (k : Nat) (b : Byte) (m : Memory) (a : Nat) :
    Memory.read ((k, b) :: m) a = if k = a then b else Memory.read m a := by
  unfold Memory.read
  rw [Memory.lookup_cons]
  split <;> rfl

/-- Memories that list the same byte, or both none, at an address read alike there. -/
theorem Memory.read_congr {m m' : Memory} {a : Nat} (h : m.lookup a = m'.lookup a) :
    m.read a = m'.read a := by
  rw [Memory.read, Memory.read, h]

/-- Dropping cells that hold other addresses does not change what is written at an address. -/
theorem Memory.lookup_filter (p : Host.Cell → Bool) (m : Memory) (a : Nat)
    (hp : ∀ b, p (a, b) = true) : Memory.lookup (m.filter p) a = Memory.lookup m a := by
  induction m with
  | nil => rfl
  | cons c m ih =>
    obtain ⟨k, b⟩ := c
    by_cases h : k = a
    · subst h
      simp [hp, Memory.lookup_cons]
    · by_cases hk : p (k, b) = true
      · simp [hk, Memory.lookup_cons, h, ih]
      · simp [hk, Memory.lookup_cons, h, ih]

/-- Nothing is written at an address that no cell holds. -/
theorem Memory.lookup_of_absent (m : Memory) (a : Nat) (h : ∀ c ∈ m, c.1 ≠ a) :
    Memory.lookup m a = none := by
  induction m with
  | nil => rfl
  | cons c m ih =>
    obtain ⟨k, b⟩ := c
    have hk : k ≠ a := h (k, b) (by simp)
    simp only [Memory.lookup_cons, hk, if_false]
    exact ih (fun c hc => h c (by simp [hc]))

/-- An address that no cell holds reads as its power-up byte. -/
theorem Memory.read_of_absent (m : Memory) (a : Nat) (h : ∀ c ∈ m, c.1 ≠ a) :
    Memory.read m a = Config.powerUpByte a := by
  rw [Memory.read, Memory.lookup_of_absent m a h, Option.getD_none]

/-- An address that the first part does not hold is looked up in the second. -/
theorem Memory.lookup_append_right (m m' : Memory) (a : Nat) (h : ∀ c ∈ m, c.1 ≠ a) :
    Memory.lookup (m ++ m') a = Memory.lookup m' a := by
  induction m with
  | nil => rfl
  | cons c m ih =>
    obtain ⟨k, b⟩ := c
    have hk : k ≠ a := h (k, b) (by simp)
    simp only [List.cons_append, Memory.lookup_cons, hk, if_false]
    exact ih (fun c hc => h c (by simp [hc]))

/-- An address that the second part does not hold is looked up in the first. -/
theorem Memory.lookup_append_left (m m' : Memory) (a : Nat) (h : ∀ c ∈ m', c.1 ≠ a) :
    Memory.lookup (m ++ m') a = Memory.lookup m a := by
  induction m with
  | nil => simpa using Memory.lookup_of_absent m' a h
  | cons c m ih =>
    obtain ⟨k, b⟩ := c
    simp only [List.cons_append, Memory.lookup_cons, ih]

@[simp] theorem Memory.bytes_length (m : Memory) (a n : Nat) : (Memory.bytes m a n).length = n := by
  simp [Memory.bytes]

@[simp] theorem Memory.readRange_length (m : Memory) (a n : Nat) :
    (Memory.readRange m a n).length = n := by
  simp [Memory.readRange]

/-- `MemRead` gives the bytes of M in order (R15). -/
theorem Memory.readRange_getElem (m : Memory) (a n k : Nat) (h : k < (Memory.readRange m a n).length) :
    (Memory.readRange m a n)[k] = Memory.read m (a + k) := by
  have hk : k < n := by simpa using h
  simp only [Memory.readRange, Memory.bytes, List.getElem_map, List.getElem_range]
  exact Memory.read_congr (Memory.lookup_filter _ m (a + k) (fun b => by simp [hk]))

/-! ## The cells of a written range -/

theorem Memory.cells_ge (a : Nat) (v : List Byte) : ∀ c ∈ Memory.cells a v, a ≤ c.1 := by
  induction v generalizing a with
  | nil => simp [Memory.cells]
  | cons b v ih =>
    intro c hc
    rcases List.mem_cons.1 hc with rfl | hc
    · exact Nat.le_refl a
    · exact Nat.le_of_succ_le (ih (a + 1) c hc)

theorem Memory.cells_lt (a : Nat) (v : List Byte) : ∀ c ∈ Memory.cells a v, c.1 < a + v.length := by
  induction v generalizing a with
  | nil => simp [Memory.cells]
  | cons b v ih =>
    intro c hc
    have hlen : (b :: v).length = v.length + 1 := rfl
    rcases List.mem_cons.1 hc with rfl | hc
    · simp
    · have := ih (a + 1) c hc
      omega

theorem Memory.lookup_cells (a : Nat) (v : List Byte) (k : Nat) (h : k < v.length) :
    Memory.lookup (Memory.cells a v) (a + k) = some v[k] := by
  induction v generalizing a k with
  | nil => simp at h
  | cons b v ih =>
    rw [Memory.cells, Memory.lookup_cons]
    cases k with
    | zero => simp
    | succ k =>
      have := ih (a + 1) k (by simpa using h)
      rw [Nat.add_right_comm, Nat.add_assoc] at this
      rw [if_neg (by omega)]
      simpa using this

/-! ## Writing -/

/-- `MemWrite` puts byte k at `a + k` and leaves every other address alone (R15). -/
theorem Memory.lookup_writeRange (m : Memory) (a : Nat) (v : List Byte) (x : Nat) :
    Memory.lookup (m.writeRange a v) x =
      if h : a ≤ x ∧ x < a + v.length then some (v[x - a]'(by omega)) else Memory.lookup m x := by
  have hlow : ∀ c ∈ m.filter (fun c => c.1 < a), c.1 < a := by
    intro c hc
    simpa using (List.mem_filter.1 hc).2
  have hhigh : ∀ c ∈ m.filter (fun c => a + v.length ≤ c.1), a + v.length ≤ c.1 := by
    intro c hc
    simpa using (List.mem_filter.1 hc).2
  unfold Memory.writeRange
  by_cases hx : a ≤ x ∧ x < a + v.length
  · rw [dif_pos hx, Memory.lookup_append_right, Memory.lookup_append_left]
    · have := Memory.lookup_cells a v (x - a) (by omega)
      rwa [Nat.add_sub_cancel' hx.1] at this
    · intro c hc
      have := hhigh c hc
      omega
    · intro c hc
      have := hlow c hc
      omega
  · rw [dif_neg hx]
    by_cases hlt : x < a
    · rw [Memory.lookup_append_left]
      · exact Memory.lookup_filter _ m x (fun b => by simp [hlt])
      · intro c hc
        rcases List.mem_append.1 hc with hc | hc
        · have := Memory.cells_ge a v c hc
          omega
        · have := hhigh c hc
          omega
    · rw [Memory.lookup_append_right, Memory.lookup_append_right]
      · exact Memory.lookup_filter _ m x (fun b => by simp; omega)
      · intro c hc
        have := Memory.cells_lt a v c hc
        omega
      · intro c hc
        have := hlow c hc
        omega

@[simp] theorem Memory.lookup_write (m : Memory) (a : Nat) (b : Byte) (x : Nat) :
    Memory.lookup (m.write a b) x = if x = a then some b else Memory.lookup m x := by
  unfold Memory.write
  rw [Memory.lookup_writeRange]
  by_cases h : x = a
  · subst h
    simp
  · have hn : ¬ (a ≤ x ∧ x < a + [b].length) := by simp; omega
    rw [dif_neg hn, if_neg h]

theorem Memory.lookup_copy (m : Memory) (d s n x : Nat) :
    Memory.lookup (m.copy d s n) x =
      if d ≤ x ∧ x < d + n then some (Memory.read m (s + (x - d))) else Memory.lookup m x := by
  unfold Memory.copy
  rw [Memory.lookup_writeRange]
  by_cases h : d ≤ x ∧ x < d + n
  · rw [dif_pos (by simpa using h), if_pos h, Memory.readRange_getElem]
  · rw [dif_neg (by simpa using h), if_neg h]

@[simp] theorem Memory.lookup_move (m : Memory) (d s x : Nat) :
    Memory.lookup (m.move d s) x = if x = d then some (Memory.read m s) else Memory.lookup m x := by
  simp [Memory.move]

theorem Memory.read_writeRange (m : Memory) (a : Nat) (v : List Byte) (x : Nat) :
    Memory.read (m.writeRange a v) x =
      if h : a ≤ x ∧ x < a + v.length then v[x - a]'(by omega) else Memory.read m x := by
  rw [Memory.read, Memory.lookup_writeRange]
  split <;> rfl

@[simp] theorem Memory.read_write (m : Memory) (a : Nat) (b : Byte) (x : Nat) :
    Memory.read (m.write a b) x = if x = a then b else Memory.read m x := by
  rw [Memory.read, Memory.lookup_write]
  split <;> rfl

/-- `copy(d, s, n)` (R15): the range at d takes the bytes that stood at s, everything else stays. -/
theorem Memory.read_copy (m : Memory) (d s n x : Nat) :
    Memory.read (m.copy d s n) x =
      if d ≤ x ∧ x < d + n then Memory.read m (s + (x - d)) else Memory.read m x := by
  rw [Memory.read, Memory.lookup_copy]
  split <;> rfl

@[simp] theorem Memory.read_move (m : Memory) (d s x : Nat) :
    Memory.read (m.move d s) x = if x = d then Memory.read m s else Memory.read m x := by
  simp [Memory.move]

/-! ## The canonical form -/

theorem Memory.below_iff (a : Nat) (m : Memory) : Memory.below a m = true ↔ ∀ c ∈ m, a < c.1 := by
  simp [Memory.below]

theorem Memory.wf_cons (a : Nat) (b : Byte) (m : Memory) :
    Memory.wf ((a, b) :: m) = true ↔ (∀ c ∈ m, a < c.1) ∧ Memory.wf m = true := by
  simp [Memory.wf, Memory.below_iff]

theorem Memory.wf_filter (p : Host.Cell → Bool) (m : Memory) (h : Memory.wf m = true) :
    Memory.wf (m.filter p) = true := by
  induction m with
  | nil => rfl
  | cons c m ih =>
    obtain ⟨k, b⟩ := c
    obtain ⟨h1, h2⟩ := (Memory.wf_cons k b m).1 h
    by_cases hk : p (k, b) = true
    · rw [List.filter_cons_of_pos hk, Memory.wf_cons]
      exact ⟨fun c hc => h1 c (List.mem_filter.1 hc).1, ih h2⟩
    · rw [List.filter_cons_of_neg hk]
      exact ih h2

/-- Two canonical parts, the first wholly below the second, form a canonical memory. -/
theorem Memory.wf_append (m m' : Memory) (h : Memory.wf m = true) (h' : Memory.wf m' = true)
    (hlt : ∀ c ∈ m, ∀ c' ∈ m', c.1 < c'.1) : Memory.wf (m ++ m') = true := by
  induction m with
  | nil => simpa using h'
  | cons c m ih =>
    obtain ⟨k, b⟩ := c
    obtain ⟨h1, h2⟩ := (Memory.wf_cons k b m).1 h
    rw [List.cons_append, Memory.wf_cons]
    refine ⟨?_, ih h2 (fun c hc => hlt c (by simp [hc]))⟩
    intro c hc
    rcases List.mem_append.1 hc with hc | hc
    · exact h1 c hc
    · exact hlt (k, b) (by simp) c hc

theorem Memory.wf_cells (a : Nat) (v : List Byte) : Memory.wf (Memory.cells a v) = true := by
  induction v generalizing a with
  | nil => rfl
  | cons b v ih =>
    rw [Memory.cells, Memory.wf_cons]
    exact ⟨fun c hc => Memory.cells_ge (a + 1) v c hc, ih (a + 1)⟩

theorem Memory.wf_writeRange (m : Memory) (a : Nat) (v : List Byte) (h : Memory.wf m = true) :
    Memory.wf (m.writeRange a v) = true := by
  refine Memory.wf_append _ _ (Memory.wf_filter _ m h)
    (Memory.wf_append _ _ (Memory.wf_cells a v) (Memory.wf_filter _ m h) ?_) ?_
  · intro c hc c' hc'
    have h1 := Memory.cells_lt a v c hc
    have h2 : a + v.length ≤ c'.1 := by simpa using (List.mem_filter.1 hc').2
    omega
  · intro c hc c' hc'
    have h1 : c.1 < a := by simpa using (List.mem_filter.1 hc).2
    rcases List.mem_append.1 hc' with hc' | hc'
    · have := Memory.cells_ge a v c' hc'
      omega
    · have : a + v.length ≤ c'.1 := by simpa using (List.mem_filter.1 hc').2
      omega

theorem Memory.wf_write (m : Memory) (a : Nat) (b : Byte) (h : Memory.wf m = true) :
    Memory.wf (m.write a b) = true := Memory.wf_writeRange m a [b] h

theorem Memory.wf_copy (m : Memory) (d s n : Nat) (h : Memory.wf m = true) :
    Memory.wf (m.copy d s n) = true := Memory.wf_writeRange m d _ h

theorem Memory.wf_move (m : Memory) (d s : Nat) (h : Memory.wf m = true) :
    Memory.wf (m.move d s) = true := Memory.wf_write m d _ h

/-! ## Existing bytes -/

theorem Memory.within_iff (m : Memory) (n : Nat) :
    Memory.within m n = true ↔ ∀ c ∈ m, c.1 < n := by
  simp [Memory.within]

theorem Memory.within_writeRange (m : Memory) (a : Nat) (v : List Byte) (n : Nat)
    (h : Memory.within m n = true) (hv : a + v.length ≤ n) :
    Memory.within (m.writeRange a v) n = true := by
  rw [Memory.within_iff] at h ⊢
  intro c hc
  rcases List.mem_append.1 hc with hc | hc
  · exact h c (List.mem_filter.1 hc).1
  · rcases List.mem_append.1 hc with hc | hc
    · have := Memory.cells_lt a v c hc
      omega
    · exact h c (List.mem_filter.1 hc).1

theorem Memory.within_write (m : Memory) (a : Nat) (b : Byte) (n : Nat)
    (h : Memory.within m n = true) (ha : a < n) : Memory.within (m.write a b) n = true :=
  Memory.within_writeRange m a [b] n h (by simpa using ha)

theorem Memory.within_copy (m : Memory) (d s k n : Nat)
    (h : Memory.within m n = true) (hd : d + k ≤ n) : Memory.within (m.copy d s k) n = true :=
  Memory.within_writeRange m d _ n h (by simpa using hd)

theorem Memory.within_move (m : Memory) (d s n : Nat)
    (h : Memory.within m n = true) (hd : d < n) : Memory.within (m.move d s) n = true :=
  Memory.within_write m d _ n h hd

/-! ## Equal memories are equal lists -/

/-- Canonical memories that list the same byte, or both none, at every address are the same list. -/
theorem Memory.ext_lookup (m m' : Memory) (h : Memory.wf m = true) (h' : Memory.wf m' = true)
    (heq : ∀ a, Memory.lookup m a = Memory.lookup m' a) : m = m' := by
  induction m generalizing m' with
  | nil =>
    cases m' with
    | nil => rfl
    | cons c m' => simpa [Memory.lookup] using heq c.1
  | cons c m ih =>
    obtain ⟨k, b⟩ := c
    have hw := (Memory.wf_cons k b m).1 h
    cases m' with
    | nil => simpa [Memory.lookup] using heq k
    | cons c' m' =>
      obtain ⟨k', b'⟩ := c'
      have hw' := (Memory.wf_cons k' b' m').1 h'
      have hkk : k = k' := by
        rcases Nat.lt_trichotomy k k' with hlt | heq' | hgt
        · have h1 := heq k
          rw [Memory.lookup_cons, if_pos rfl, Memory.lookup_of_absent ((k', b') :: m') k] at h1
          · cases h1
          · intro c hc
            rcases List.mem_cons.1 hc with rfl | hc
            · exact Nat.ne_of_gt hlt
            · have := hw'.1 c hc
              omega
        · exact heq'
        · have h1 := heq k'
          rw [Memory.lookup_cons k' b' m', if_pos rfl, Memory.lookup_of_absent ((k, b) :: m) k'] at h1
          · cases h1
          · intro c hc
            rcases List.mem_cons.1 hc with rfl | hc
            · exact Nat.ne_of_gt hgt
            · have := hw.1 c hc
              omega
      subst hkk
      have hb : b = b' := by simpa [Memory.lookup_cons] using heq k
      subst hb
      congr 1
      refine ih m' hw.2 hw'.2 (fun a => ?_)
      by_cases ha : k = a
      · subst ha
        rw [Memory.lookup_of_absent m k (fun c hc => Nat.ne_of_gt (hw.1 c hc)),
          Memory.lookup_of_absent m' k (fun c hc => Nat.ne_of_gt (hw'.1 c hc))]
      · simpa [Memory.lookup_cons, ha] using heq a

/-! ## Loops -/

@[simp] theorem loop_zero {α : Type} (body : Nat → α → α) (x : α) : loop 0 body x = x := rfl

theorem loop_succ {α : Type} (n : Nat) (body : Nat → α → α) (x : α) :
    loop (n + 1) body x = body n (loop n body x) := rfl

/-- What every round keeps, the whole loop keeps. -/
theorem loop_keeps {α : Type} (P : α → Prop) (n : Nat) (body : Nat → α → α) (x : α) (hx : P x)
    (hbody : ∀ k, k < n → ∀ y, P y → P (body k y)) : P (loop n body x) := by
  induction n with
  | zero => exact hx
  | succ n ih => exact hbody n (Nat.lt_succ_self n) _ (ih (fun k hk => hbody k (Nat.lt_succ_of_lt hk)))

/-- A property that depends on how many rounds have run, established round by round. -/
theorem loop_induct {α : Type} (P : Nat → α → Prop) (n : Nat) (body : Nat → α → α) (x : α) (hx : P 0 x)
    (hbody : ∀ k, k < n → ∀ y, P k y → P (k + 1) (body k y)) : P n (loop n body x) := by
  induction n with
  | zero => exact hx
  | succ n ih => exact hbody n (Nat.lt_succ_self n) _ (ih (fun k hk => hbody k (Nat.lt_succ_of_lt hk)))

end Sys2Proof.Machine
end

