-- ==== Sys2Proof/Laws/Crop.lean ====
section
/-! SUPPORT. What CROP's body does to M (42_crop.md R114 … R118): in place, in increasing order, it gives the closed form. -/

namespace Sys2Proof.Machine

/-- Row i, after rows below it are done: byte x moves down, nothing above the written bytes changes (R116). -/
theorem read_cropRow (dst w pw i : Nat) (m : Memory) (hw : w ≤ pw) :
    (∀ x, x < w → Memory.read (cropRow dst w pw i m) (dst + i * w + x) = Memory.read m (dst + i * pw + x)) ∧
    (∀ a, ¬ (dst + i * w ≤ a ∧ a < dst + i * w + w) →
      Memory.read (cropRow dst w pw i m) a = Memory.read m a) := by
  have hle : i * w ≤ i * pw := Nat.mul_le_mul_left i hw
  have key : ∀ j, j ≤ w →
      (∀ x, x < j → Memory.read (loop j (fun x m => m.move (dst + i * w + x) (dst + i * pw + x)) m) (dst + i * w + x)
        = Memory.read m (dst + i * pw + x)) ∧
      (∀ a, ¬ (dst + i * w ≤ a ∧ a < dst + i * w + j) →
        Memory.read (loop j (fun x m => m.move (dst + i * w + x) (dst + i * pw + x)) m) a = Memory.read m a) := by
    intro j
    induction j with
    | zero => exact fun _ => ⟨fun x hx => absurd hx (Nat.not_lt_zero x), fun a _ => rfl⟩
    | succ j ih =>
      intro hj
      obtain ⟨ih1, ih2⟩ := ih (by omega)
      refine ⟨?_, ?_⟩
      · intro x hx
        rw [loop_succ, Memory.read_move]
        by_cases hxj : x = j
        · subst hxj
          rw [if_pos rfl]
          exact ih2 _ (by omega)
        · rw [if_neg (by omega)]
          exact ih1 x (by omega)
      · intro a ha
        rw [loop_succ, Memory.read_move, if_neg (by omega)]
        exact ih2 a (by omega)
  exact key w (Nat.le_refl w)

/-- R114's effect in closed form, for the first `rows` rows. -/
theorem read_cropRows (dst w pw rows : Nat) (m : Memory) (hw : w ≤ pw) :
    (∀ i x, i < rows → x < w →
      Memory.read (loop rows (cropRow dst w pw) m) (dst + i * w + x) = Memory.read m (dst + i * pw + x)) ∧
    (∀ a, ¬ (dst ≤ a ∧ a < dst + rows * w) →
      Memory.read (loop rows (cropRow dst w pw) m) a = Memory.read m a) := by
  induction rows with
  | zero => exact ⟨fun i x hi => absurd hi (Nat.not_lt_zero i), fun a _ => rfl⟩
  | succ rows ih =>
    obtain ⟨ih1, ih2⟩ := ih
    have hle : rows * w ≤ rows * pw := Nat.mul_le_mul_left rows hw
    obtain ⟨r1, r2⟩ := read_cropRow dst w pw rows (loop rows (cropRow dst w pw) m) hw
    refine ⟨?_, ?_⟩
    · intro i x hi hx
      rw [loop_succ]
      by_cases hir : i = rows
      · subst hir
        rw [r1 x hx]
        exact ih2 _ (by omega)
      · have hlt : (i + 1) * w ≤ rows * w := Nat.mul_le_mul_right w (by omega)
        rw [Nat.add_mul] at hlt
        rw [r2 _ (by omega)]
        exact ih1 i x (by omega) hx
    · intro a ha
      rw [Nat.add_mul] at ha
      rw [loop_succ, r2 a (by omega)]
      exact ih2 a (by omega)

theorem wf_cropBody (s : State) (m : Memory) (h : Memory.wf m = true) : Memory.wf (cropBody s m) = true := by
  unfold cropBody
  split
  · exact loop_keeps (fun m => Memory.wf m = true) _ _ m h (fun _ _ m hm =>
      loop_keeps (fun m => Memory.wf m = true) _ _ m hm (fun _ _ m hm => Memory.wf_move m _ _ hm))
  · exact h

theorem within_cropBody (s : State) (m : Memory) (k : Nat) (h : Memory.within m k = true)
    (hk : s.dstAddr.toNat + s.g.cropRows.toNat * s.g.width.toNat ≤ k) :
    Memory.within (cropBody s m) k = true := by
  unfold cropBody
  split
  · refine loop_keeps (fun m => Memory.within m k = true) _ _ m h (fun i hi m hm => ?_)
    refine loop_keeps (fun m => Memory.within m k = true) _ _ m hm (fun x hx m hm => ?_)
    refine Memory.within_move m _ _ k hm ?_
    have hle : (i + 1) * s.g.width.toNat ≤ s.g.cropRows.toNat * s.g.width.toNat := Nat.mul_le_mul_right _ hi
    rw [Nat.add_mul] at hle
    omega
  · exact h

end Sys2Proof.Machine
end

