-- ==== Sys2Proof/Laws/Tiles.lean ====
section
/-! SUPPORT. The tile order (41_detile.md R103 … R105, R108, R110): where a stream tile lands, and which stream tile lands at a grid position. -/

namespace Sys2Proof.Machine

/-- The stream index of the tile that lands at (row, col): the inverse of `tilePos`, read off R103 … R105. -/
def tileIndex (wT hT row col : Nat) : Nat :=
  if row / 2 < hT / 2 then
    row / 2 * (2 * wT)
      + (4 * (col / 2) + 2 * (if col / 2 % 2 = 0 then row % 2 else 1 - row % 2) + col % 2)
  else hT / 2 * (2 * wT) + col

/-- The tile that is k-th of Z step z in pair p (R104). -/
theorem tilePos_pair (wT hT p z k : Nat) (hw : wT % 2 = 0) (hp : p < hT / 2) (hz : z < wT / 2) (hk : k < 4) :
    tilePos wT hT (p * (2 * wT) + (4 * z + k)) =
      (if z % 2 = 0 then 2 * p + k / 2 else 2 * p + 1 - k / 2, 2 * z + k % 2) := by
  have hr : 4 * z + k < 2 * wT := by omega
  have hpos : 0 < 2 * wT := by omega
  have hin : p * (2 * wT) + (4 * z + k) < hT / 2 * (2 * wT) := by
    have : (p + 1) * (2 * wT) ≤ hT / 2 * (2 * wT) := Nat.mul_le_mul_right _ hp
    rw [Nat.add_mul] at this
    omega
  have hdiv : (p * (2 * wT) + (4 * z + k)) / (2 * wT) = p := by
    rw [Nat.mul_comm p, Nat.mul_add_div hpos, Nat.div_eq_of_lt hr, Nat.add_zero]
  have hmod : (p * (2 * wT) + (4 * z + k)) % (2 * wT) = 4 * z + k := by
    rw [Nat.mul_comm p, Nat.mul_add_mod, Nat.mod_eq_of_lt hr]
  have hz4 : (4 * z + k) / 4 = z := by omega
  have hk4 : (4 * z + k) % 4 = k := by omega
  simp only [tilePos, if_pos hin, hdiv, hmod, hz4, hk4]

/-- The i-th tile of the remainder row (R105). -/
theorem tilePos_remainder (wT hT i : Nat) :
    tilePos wT hT (hT / 2 * (2 * wT) + i) = (hT - 1, i) := by
  have : ¬ hT / 2 * (2 * wT) + i < hT / 2 * (2 * wT) := by omega
  simp only [tilePos, if_neg this, Nat.add_sub_cancel_left]

/-- Every stream index is a tile of some Z step of some pair, or of the remainder row. -/
theorem tile_cases (wT hT n : Nat) (hw : wT % 2 = 0) (hn : n < wT * hT) :
    (∃ p z k, p < hT / 2 ∧ z < wT / 2 ∧ k < 4 ∧ n = p * (2 * wT) + (4 * z + k)) ∨
    (hT % 2 = 1 ∧ ∃ i, i < wT ∧ n = hT / 2 * (2 * wT) + i) := by
  by_cases hin : n < hT / 2 * (2 * wT)
  · left
    have hpos : 0 < 2 * wT := by
      rcases Nat.eq_zero_or_pos wT with h | h
      · subst h
        simp at hn
      · omega
    have hmod : n % (2 * wT) < 2 * wT := Nat.mod_lt _ hpos
    refine ⟨n / (2 * wT), n % (2 * wT) / 4, n % (2 * wT) % 4, ?_, by omega, by omega, ?_⟩
    · exact (Nat.div_lt_iff_lt_mul hpos).2 hin
    · have h1 := Nat.div_add_mod n (2 * wT)
      have h2 := Nat.div_add_mod (n % (2 * wT)) 4
      rw [Nat.mul_comm (n / (2 * wT))]
      omega
  · right
    have hsplit : wT * hT = hT / 2 * (2 * wT) + wT * (hT % 2) := by
      conv_lhs => rw [← Nat.div_add_mod hT 2]
      ring
    rcases Nat.mod_two_eq_zero_or_one hT with h | h
    · rw [h] at hsplit
      omega
    · rw [h] at hsplit
      exact ⟨h, n - hT / 2 * (2 * wT), by omega, by omega⟩

/-- A stream tile lands inside the grid. -/
theorem tilePos_inGrid (wT hT n : Nat) (hw : wT % 2 = 0) (hn : n < wT * hT) :
    (tilePos wT hT n).1 < hT ∧ (tilePos wT hT n).2 < wT := by
  rcases tile_cases wT hT n hw hn with ⟨p, z, k, hp, hz, hk, rfl⟩ | ⟨h, i, hi, rfl⟩
  · rw [tilePos_pair wT hT p z k hw hp hz hk]
    constructor
    · simp only
      split <;> omega
    · simp only
      omega
  · rw [tilePos_remainder]
    simp only
    omega

/-- The stream tile of a grid position lands there. -/
theorem tilePos_tileIndex (wT hT row col : Nat) (hw : wT % 2 = 0) (hr : row < hT) (hc : col < wT) :
    tilePos wT hT (tileIndex wT hT row col) = (row, col) := by
  unfold tileIndex
  by_cases h : row / 2 < hT / 2
  · rw [if_pos h, Nat.add_assoc (4 * (col / 2)), tilePos_pair wT hT _ _ _ hw h (by omega) (by split <;> omega)]
    rcases Nat.mod_two_eq_zero_or_one (col / 2) with hz | hz
    · simp only [hz, if_true]
      rw [Prod.mk.injEq]
      omega
    · simp only [hz, Nat.one_ne_zero, if_false]
      rw [Prod.mk.injEq]
      omega
  · rw [if_neg h, tilePos_remainder, Prod.mk.injEq]
    omega

/-- The stream tile of a grid position is one of the plane's tiles. -/
theorem tileIndex_lt (wT hT row col : Nat) (hw : wT % 2 = 0) (hr : row < hT) (hc : col < wT) :
    tileIndex wT hT row col < wT * hT := by
  have hsplit : wT * hT = hT / 2 * (2 * wT) + wT * (hT % 2) := by
    conv_lhs => rw [← Nat.div_add_mod hT 2]
    ring
  unfold tileIndex
  by_cases h : row / 2 < hT / 2
  · rw [if_pos h]
    have h1 : (row / 2 + 1) * (2 * wT) ≤ hT / 2 * (2 * wT) := Nat.mul_le_mul_right _ h
    rw [Nat.add_mul] at h1
    split <;> omega
  · rw [if_neg h, hsplit]
    have h1 : hT % 2 = 1 := by omega
    rw [h1]
    omega

/-- `tileIndex` undoes `tilePos`. -/
theorem tileIndex_tilePos (wT hT n : Nat) (hw : wT % 2 = 0) (hn : n < wT * hT) :
    tileIndex wT hT (tilePos wT hT n).1 (tilePos wT hT n).2 = n := by
  rcases tile_cases wT hT n hw hn with ⟨p, z, k, hp, hz, hk, rfl⟩ | ⟨h, i, hi, rfl⟩
  · rw [tilePos_pair wT hT p z k hw hp hz hk]
    simp only [tileIndex]
    have hcol : (2 * z + k % 2) / 2 = z := by omega
    have hcolm : (2 * z + k % 2) % 2 = k % 2 := by omega
    rcases Nat.mod_two_eq_zero_or_one z with hz' | hz'
    · simp only [hz', if_true, hcol, hcolm]
      have hrow : (2 * p + k / 2) / 2 = p := by omega
      have hrowm : (2 * p + k / 2) % 2 = k / 2 := by omega
      rw [hrow, hrowm, if_pos hp]
      omega
    · simp only [hz', Nat.one_ne_zero, if_false, hcol, hcolm]
      have hrow : (2 * p + 1 - k / 2) / 2 = p := by omega
      have hrowm : (2 * p + 1 - k / 2) % 2 = 1 - k / 2 := by omega
      rw [hrow, hrowm, if_pos hp]
      omega
  · rw [tilePos_remainder]
    have hr : ¬ (hT - 1) / 2 < hT / 2 := by omega
    simp only [tileIndex, if_neg hr]

end Sys2Proof.Machine
end

