-- ==== Sys2Proof/Laws/Detile.lean ====
section
/-! SUPPORT. What DETILE's body does to M (41_detile.md R109 … R111): each tile's 2048 bytes, then the whole plane. -/

namespace Sys2Proof.Machine

/-! ## Row-major addresses -/

/-- A column below the stride keeps a row's bytes below the next row. -/
theorem rowMajor_lt (r c R S : Nat) (hr : r < R) (hc : c < S) : r * S + c < R * S := by
  have h : (r + 1) * S ≤ R * S := Nat.mul_le_mul_right S hr
  rw [Nat.add_mul] at h
  omega

/-- Row and column can be read back from a row-major offset. -/
theorem rowMajor_inj (r c r' c' S : Nat) (hc : c < S) (hc' : c' < S) (h : r * S + c = r' * S + c') :
    r = r' ∧ c = c' := by
  have hpos : 0 < S := by omega
  have e1 : (r * S + c) / S = r := by
    rw [Nat.mul_comm, Nat.mul_add_div hpos, Nat.div_eq_of_lt hc, Nat.add_zero]
  have e2 : (r' * S + c') / S = r' := by
    rw [Nat.mul_comm, Nat.mul_add_div hpos, Nat.div_eq_of_lt hc', Nat.add_zero]
  have hr : r = r' := by rw [← e1, ← e2, h]
  subst hr
  exact ⟨rfl, by omega⟩

/-! ## The two regions of a plane -/

/-- The plane's raster in the destination (R101). -/
def Plane.dstRegion (p : Plane) : Window := ⟨p.dstBase, p.hT * tileH * p.stride⟩

/-- The plane's tiles in the source, without the boundary padding (R107). -/
def Plane.srcRegion (p : Plane) : Window := ⟨p.srcBase, p.wT * p.hT * tileBytes⟩

theorem inWindow_iff (w : Window) (a : Nat) : inWindow w a = true ↔ w.base ≤ a ∧ a < w.base + w.size := by
  simp [inWindow]

theorem Plane.dstByte_eq (p : Plane) (row col y x : Nat) :
    p.dstByte row col y x = p.dstBase + ((row * 32 + y) * p.stride + (col * 64 + x)) := by
  simp only [Plane.dstByte, tileH, tileW]
  omega

theorem Plane.dstByte_inRegion (p : Plane) (row col y x : Nat) (hr : row < p.hT) (hc : col < p.wT)
    (hy : y < 32) (hx : x < 64) : inWindow p.dstRegion (p.dstByte row col y x) = true := by
  have h := rowMajor_lt (row * 32 + y) (col * 64 + x) (p.hT * 32) p.stride (by omega)
    (by simp only [Plane.stride, tileW]; omega)
  rw [inWindow_iff, Plane.dstByte_eq]
  simp only [Plane.dstRegion, tileH]
  omega

theorem Plane.dstByte_inj (p : Plane) (row col y x row' col' y' x' : Nat) (hc : col < p.wT) (hc' : col' < p.wT)
    (hy : y < 32) (hx : x < 64) (hy' : y' < 32) (hx' : x' < 64)
    (h : p.dstByte row col y x = p.dstByte row' col' y' x') : row = row' ∧ col = col' ∧ y = y' ∧ x = x' := by
  rw [Plane.dstByte_eq, Plane.dstByte_eq] at h
  have := rowMajor_inj (row * 32 + y) (col * 64 + x) (row' * 32 + y') (col' * 64 + x') p.stride
    (by simp only [Plane.stride, tileW]; omega) (by simp only [Plane.stride, tileW]; omega) (by omega)
  omega

theorem Plane.srcByte_inRegion (p : Plane) (n y x : Nat) (hn : n < p.wT * p.hT) (hy : y < 32) (hx : x < 64) :
    inWindow p.srcRegion (p.srcByte n y x) = true := by
  have h : (n + 1) * 2048 ≤ p.wT * p.hT * 2048 := Nat.mul_le_mul_right _ hn
  rw [Nat.add_mul] at h
  rw [inWindow_iff]
  simp only [Plane.srcRegion, Plane.srcByte, tileBytes, tileW]
  omega

/-- Every byte of the destination region belongs to exactly the tile, row and column it lies in. -/
theorem Plane.dstRegion_cases (p : Plane) (a : Nat) (h : inWindow p.dstRegion a = true) :
    ∃ row col y x, row < p.hT ∧ col < p.wT ∧ y < 32 ∧ x < 64 ∧ a = p.dstByte row col y x := by
  rw [inWindow_iff] at h
  simp only [Plane.dstRegion, tileH] at h
  have hpos : 0 < p.stride := by
    rcases Nat.eq_zero_or_pos p.stride with h0 | h0
    · rw [h0] at h
      omega
    · exact h0
  have hmod := Nat.mod_lt (a - p.dstBase) hpos
  have hdiv : (a - p.dstBase) / p.stride < p.hT * 32 := (Nat.div_lt_iff_lt_mul hpos).2 (by omega)
  have hsum := Nat.div_add_mod (a - p.dstBase) p.stride
  rw [Nat.mul_comm] at hsum
  refine ⟨(a - p.dstBase) / p.stride / 32, (a - p.dstBase) % p.stride / 64, (a - p.dstBase) / p.stride % 32,
    (a - p.dstBase) % p.stride % 64, by omega, ?_, by omega, by omega, ?_⟩
  · simp only [Plane.stride, tileW] at hmod ⊢
    omega
  · rw [Plane.dstByte_eq]
    have e1 : (a - p.dstBase) / p.stride / 32 * 32 + (a - p.dstBase) / p.stride % 32 = (a - p.dstBase) / p.stride := by
      omega
    have e2 : (a - p.dstBase) % p.stride / 64 * 64 + (a - p.dstBase) % p.stride % 64 = (a - p.dstBase) % p.stride := by
      omega
    rw [e1, e2]
    omega

/-! ## One tile -/

/-- One tile copied: its bytes stand at its grid position, every other address holds what it held. -/
theorem lookup_detileTile (p : Plane) (n : Nat) (m : Memory) (hw : p.wT % 2 = 0) (hn : n < p.wT * p.hT)
    (hdis : ∀ a, inWindow p.srcRegion a = true → inWindow p.dstRegion a = false) :
    (∀ y x, y < 32 → x < 64 →
      Memory.lookup (detileTile p n m) (p.dstByte (tilePos p.wT p.hT n).1 (tilePos p.wT p.hT n).2 y x)
        = some (Memory.read m (p.srcByte n y x))) ∧
    (∀ a, (∀ y x, y < 32 → x < 64 →
        a ≠ p.dstByte (tilePos p.wT p.hT n).1 (tilePos p.wT p.hT n).2 y x) →
      Memory.lookup (detileTile p n m) a = Memory.lookup m a) := by
  obtain ⟨hr, hc⟩ := tilePos_inGrid p.wT p.hT n hw hn
  generalize hpos : tilePos p.wT p.hT n = pos at *
  obtain ⟨row, col⟩ := pos
  have key : ∀ j, j ≤ 32 →
      (∀ y x, y < j → x < 64 →
        Memory.lookup (loop j (fun y m => m.copy (p.dstByte row col y 0) (p.srcByte n y 0) tileW) m)
          (p.dstByte row col y x) = some (Memory.read m (p.srcByte n y x))) ∧
      (∀ a, (∀ y x, y < j → x < 64 → a ≠ p.dstByte row col y x) →
        Memory.lookup (loop j (fun y m => m.copy (p.dstByte row col y 0) (p.srcByte n y 0) tileW) m) a
          = Memory.lookup m a) := by
    intro j
    induction j with
    | zero => exact fun _ => ⟨fun y x hy => absurd hy (Nat.not_lt_zero y), fun a _ => rfl⟩
    | succ j ih =>
      intro hj
      obtain ⟨ih1, ih2⟩ := ih (by omega)
      have hsrc : ∀ x, x < 64 →
          Memory.read (loop j (fun y m => m.copy (p.dstByte row col y 0) (p.srcByte n y 0) tileW) m)
            (p.srcByte n j x) = Memory.read m (p.srcByte n j x) := by
        intro x hx
        refine Memory.read_congr (ih2 _ ?_)
        intro y x' hy hx' heq
        have h1 := hdis _ (Plane.srcByte_inRegion p n j x hn (by omega) hx)
        rw [heq, Plane.dstByte_inRegion p row col y x' hr hc (by omega) hx'] at h1
        exact absurd h1 (by decide)
      refine ⟨?_, ?_⟩
      · intro y x hy hx
        rw [loop_succ, Memory.lookup_copy]
        by_cases hyj : y = j
        · subst hyj
          have hin : p.dstByte row col y 0 ≤ p.dstByte row col y x ∧
              p.dstByte row col y x < p.dstByte row col y 0 + tileW := by
            simp only [Plane.dstByte_eq, tileW]
            omega
          rw [if_pos hin]
          have hadr : p.srcByte n y 0 + (p.dstByte row col y x - p.dstByte row col y 0) = p.srcByte n y x := by
            simp only [Plane.dstByte_eq, Plane.srcByte, tileW]
            omega
          rw [hadr, hsrc x hx]
        · have hout : ¬ (p.dstByte row col j 0 ≤ p.dstByte row col y x ∧
              p.dstByte row col y x < p.dstByte row col j 0 + tileW) := by
            intro ⟨h1, h2⟩
            have heq : p.dstByte row col y x
                = p.dstByte row col j (p.dstByte row col y x - p.dstByte row col j 0) := by
              simp only [Plane.dstByte_eq] at h1 ⊢
              omega
            have := Plane.dstByte_inj p row col y x row col j _ hc hc (by omega) hx (by omega)
              (by simp only [tileW] at h2; omega) heq
            omega
          rw [if_neg hout]
          exact ih1 y x (by omega) hx
      · intro a ha
        rw [loop_succ, Memory.lookup_copy]
        have hout : ¬ (p.dstByte row col j 0 ≤ a ∧ a < p.dstByte row col j 0 + tileW) := by
          intro ⟨h1, h2⟩
          refine ha j (a - p.dstByte row col j 0) (by omega) (by simp only [tileW] at h2; omega) ?_
          simp only [Plane.dstByte_eq] at h1 ⊢
          omega
        rw [if_neg hout]
        exact ih2 a (fun y x hy hx => ha y x (by omega) hx)
  have := key 32 (Nat.le_refl 32)
  simpa only [detileTile, hpos, tileH] using this

/-! ## The plane -/

/-- R109's effect in closed form: every tile stands at its grid position, every address outside the raster holds what it held. -/
theorem lookup_detilePlane (p : Plane) (m : Memory) (hw : p.wT % 2 = 0)
    (hdis : ∀ a, inWindow p.srcRegion a = true → inWindow p.dstRegion a = false) :
    (∀ n y x, n < p.wT * p.hT → y < 32 → x < 64 →
      Memory.lookup (detilePlane p m) (p.dstByte (tilePos p.wT p.hT n).1 (tilePos p.wT p.hT n).2 y x)
        = some (Memory.read m (p.srcByte n y x))) ∧
    (∀ a, inWindow p.dstRegion a = false → Memory.lookup (detilePlane p m) a = Memory.lookup m a) := by
  have key : ∀ j, j ≤ p.wT * p.hT →
      (∀ n y x, n < j → y < 32 → x < 64 →
        Memory.lookup (loop j (detileTile p) m) (p.dstByte (tilePos p.wT p.hT n).1 (tilePos p.wT p.hT n).2 y x)
          = some (Memory.read m (p.srcByte n y x))) ∧
      (∀ a, inWindow p.dstRegion a = false → Memory.lookup (loop j (detileTile p) m) a = Memory.lookup m a) := by
    intro j
    induction j with
    | zero => exact fun _ => ⟨fun n y x hn => absurd hn (Nat.not_lt_zero n), fun a _ => rfl⟩
    | succ j ih =>
      intro hj
      obtain ⟨ih1, ih2⟩ := ih (by omega)
      obtain ⟨t1, t2⟩ := lookup_detileTile p j (loop j (detileTile p) m) hw (by omega) hdis
      refine ⟨?_, ?_⟩
      · intro n y x hn hy hx
        rw [loop_succ]
        by_cases hnj : n = j
        · subst hnj
          rw [t1 y x hy hx, Memory.read_congr (ih2 _ ?_)]
          exact hdis _ (Plane.srcByte_inRegion p n y x (by omega) hy hx)
        · rw [t2, ih1 n y x (by omega) hy hx]
          intro y' x' hy' hx' heq
          have g1 := tilePos_inGrid p.wT p.hT n hw (by omega)
          have g2 := tilePos_inGrid p.wT p.hT j hw (by omega)
          obtain ⟨e1, e2, -, -⟩ := Plane.dstByte_inj p _ _ y x _ _ y' x' g1.2 g2.2 hy hx hy' hx' heq
          have h1 := tileIndex_tilePos p.wT p.hT n hw (by omega)
          have h2 := tileIndex_tilePos p.wT p.hT j hw (by omega)
          rw [e1, e2, h2] at h1
          omega
      · intro a ha
        rw [loop_succ, t2, ih2 a ha]
        intro y x hy hx heq
        have g := tilePos_inGrid p.wT p.hT j hw (by omega)
        rw [heq, Plane.dstByte_inRegion p _ _ y x g.1 g.2 hy hx] at ha
        exact absurd ha (by decide)
  exact key (p.wT * p.hT) (Nat.le_refl _)

/-- The same as what each address reads as. -/
theorem read_detilePlane (p : Plane) (m : Memory) (hw : p.wT % 2 = 0)
    (hdis : ∀ a, inWindow p.srcRegion a = true → inWindow p.dstRegion a = false) :
    (∀ n y x, n < p.wT * p.hT → y < 32 → x < 64 →
      Memory.read (detilePlane p m) (p.dstByte (tilePos p.wT p.hT n).1 (tilePos p.wT p.hT n).2 y x)
        = Memory.read m (p.srcByte n y x)) ∧
    (∀ a, inWindow p.dstRegion a = false → Memory.read (detilePlane p m) a = Memory.read m a) := by
  obtain ⟨h1, h2⟩ := lookup_detilePlane p m hw hdis
  refine ⟨fun n y x hn hy hx => ?_, fun a ha => Memory.read_congr (h2 a ha)⟩
  rw [Memory.read, h1 n y x hn hy hx, Option.getD_some]

/-- The same, read from the raster's side: byte (y, x) of the tile at (row, col) comes from that position's stream tile. -/
theorem read_detilePlane_at (p : Plane) (m : Memory) (hw : p.wT % 2 = 0)
    (hdis : ∀ a, inWindow p.srcRegion a = true → inWindow p.dstRegion a = false)
    (row col y x : Nat) (hr : row < p.hT) (hc : col < p.wT) (hy : y < 32) (hx : x < 64) :
    Memory.read (detilePlane p m) (p.dstByte row col y x)
      = Memory.read m (p.srcByte (tileIndex p.wT p.hT row col) y x) := by
  have h := (read_detilePlane p m hw hdis).1 (tileIndex p.wT p.hT row col) y x
    (tileIndex_lt p.wT p.hT row col hw hr hc) hy hx
  rwa [tilePos_tileIndex p.wT p.hT row col hw hr hc] at h

/-! ## What every detile keeps -/

theorem wf_detilePlane (p : Plane) (m : Memory) (h : Memory.wf m = true) : Memory.wf (detilePlane p m) = true :=
  loop_keeps (fun m => Memory.wf m = true) _ _ m h (fun _ _ m hm =>
    loop_keeps (fun m => Memory.wf m = true) _ _ m hm (fun _ _ m hm => Memory.wf_copy m _ _ _ hm))

theorem within_detilePlane (p : Plane) (m : Memory) (k : Nat) (hw : p.wT % 2 = 0)
    (hk : p.dstRegion.base + p.dstRegion.size ≤ k) (h : Memory.within m k = true) :
    Memory.within (detilePlane p m) k = true := by
  refine loop_keeps (fun m => Memory.within m k = true) _ _ m h (fun n hn m hm => ?_)
  refine loop_keeps (fun m => Memory.within m k = true) _ _ m hm (fun y hy m hm => ?_)
  refine Memory.within_copy m _ _ _ k hm ?_
  have g := tilePos_inGrid p.wT p.hT n hw hn
  have h63 := Plane.dstByte_inRegion p _ _ y 63 g.1 g.2 (by simpa [tileH] using hy) (by omega)
  rw [inWindow_iff] at h63
  simp only [Plane.dstByte_eq, tileW] at h63 ⊢
  omega

end Sys2Proof.Machine
end

