-- ==== Sys2Proof/Laws/Geometry.lean ====
section
/-! SUPPORT. The geometry functions (40_geometry.md R80 … R94): closed bounds, the register values as numbers, and the relations the commands rest on. -/

namespace Sys2Proof.Machine

/-! ## The functions -/

theorem geomLegal_iff (maxDim w h : Nat) :
    geomLegal maxDim w h = true ↔ 1 ≤ w ∧ 1 ≤ h ∧ w ≤ maxDim ∧ h ≤ maxDim := by
  simp [geomLegal]
  omega

theorem roundUp_le (x m : Nat) (hm : 0 < m) : x ≤ roundUp x m := by
  have h1 := Nat.div_add_mod (x + m - 1) m
  have h2 := Nat.mod_lt (x + m - 1) hm
  rw [Nat.mul_comm] at h1
  unfold roundUp
  omega

theorem paddedWidth_eq (w : Nat) : paddedWidth w = (w + 127) / 128 * 128 := by
  unfold paddedWidth roundUp widthAlign
  omega

theorem paddedHeight_eq (h : Nat) : paddedHeight h = (h + 31) / 32 * 32 := by
  unfold paddedHeight roundUp heightAlign
  omega

theorem wTiles_eq (w : Nat) : wTiles w = 2 * ((w + 127) / 128) := by
  unfold wTiles tileW
  rw [paddedWidth_eq]
  omega

theorem hTiles_eq (h : Nat) : hTiles h = (h + 31) / 32 := by
  unfold hTiles tileH
  rw [paddedHeight_eq]
  omega

theorem hTilesChroma_eq (h : Nat) : hTilesChroma h = (h / 2 + 31) / 32 := hTiles_eq (h / 2)

theorem wTiles_even (w : Nat) : wTiles w % 2 = 0 := by
  rw [wTiles_eq]
  omega

theorem wTiles_stride (w : Nat) : wTiles w * 64 = paddedWidth w := by
  rw [wTiles_eq, paddedWidth_eq]
  omega

theorem hTiles_rows (h : Nat) : hTiles h * 32 = paddedHeight h := by
  rw [hTiles_eq, paddedHeight_eq]

theorem boundaryPadding_le (wT hT : Nat) : boundaryPadding wT hT ≤ 6144 := by
  unfold boundaryPadding padMod tileBytes
  omega

/-- R93 item 4: with an even number of columns the padding is 0 or 4096. -/
theorem boundaryPadding_cases (v hT : Nat) :
    boundaryPadding (2 * v) hT = if v % 2 = 1 ∧ hT % 2 = 1 then 4096 else 0 := by
  have h : 2 * v * hT % 4 = 2 * (v * hT % 2) := by
    rw [Nat.mul_assoc]
    omega
  unfold boundaryPadding padMod tileBytes
  rw [h, Nat.mul_mod]
  rcases Nat.mod_two_eq_zero_or_one v with hv | hv <;>
    rcases Nat.mod_two_eq_zero_or_one hT with hh | hh <;> simp [hv, hh]

/-- R93 item 8: the rows the crop reads lie in the destination window. -/
theorem cropRows_le (h : Nat) : h * 3 / 2 ≤ h + hTilesChroma h * 32 := by
  rw [hTilesChroma_eq]
  omega

/-! ## Bounds (R94) -/

theorem paddedWidth_le (w : Nat) (hw : w ≤ 16384) : paddedWidth w ≤ 16384 := by
  rw [paddedWidth_eq]
  omega

theorem paddedHeight_le (h : Nat) (hh : h ≤ 16384) : paddedHeight h ≤ 16384 := by
  rw [paddedHeight_eq]
  omega

theorem wTiles_le (w : Nat) (hw : w ≤ 16384) : wTiles w ≤ 256 := by
  rw [wTiles_eq]
  omega

theorem hTiles_le (h : Nat) (hh : h ≤ 16384) : hTiles h ≤ 512 := by
  rw [hTiles_eq]
  omega

theorem hTilesChroma_le (h : Nat) (hh : h ≤ 16384) : hTilesChroma h ≤ 256 := by
  rw [hTilesChroma_eq]
  omega

/-- The padding never lifts a plane above the size of the full grid. -/
theorem planeSize_le (w hT H : Nat) (hw : w ≤ 16384) (hH : hT ≤ H) (hev : H % 2 = 0) :
    planeSize (wTiles w) hT ≤ 256 * H * 2048 := by
  have hv : wTiles w ≤ 256 := wTiles_le w hw
  have hmul : wTiles w * hT ≤ 256 * H := Nat.mul_le_mul hv hH
  unfold planeSize
  rw [wTiles_eq] at hmul ⊢
  rw [boundaryPadding_cases]
  simp only [tileBytes]
  split
  · next hodd =>
    have hv2 : 2 * ((w + 127) / 128) ≤ 254 := by omega
    have hlt : hT + 1 ≤ H := by omega
    have h1 : 2 * ((w + 127) / 128) * (hT + 1) ≤ 254 * H := Nat.mul_le_mul hv2 hlt
    rw [Nat.mul_add] at h1
    omega
  · omega

theorem luma_le (w h : Nat) (hw : w ≤ 16384) (hh : h ≤ 16384) :
    planeSize (wTiles w) (hTiles h) ≤ 268435456 :=
  planeSize_le w (hTiles h) 512 hw (hTiles_le h hh) rfl

theorem chroma_le (w h : Nat) (hw : w ≤ 16384) (hh : h ≤ 16384) :
    planeSize (wTiles w) (hTilesChroma h) ≤ 134217728 :=
  planeSize_le w (hTilesChroma h) 256 hw (hTilesChroma_le h hh) rfl

theorem area_le (w h : Nat) (hw : w ≤ 16384) (hh : h ≤ 16384) : w * h ≤ 268435456 :=
  Nat.mul_le_mul hw hh

theorem linear_le (w h : Nat) (hw : w ≤ 16384) (hh : h ≤ 16384) : linearFrameBytes w h ≤ 402653184 := by
  have := area_le w h hw hh
  unfold linearFrameBytes
  omega

theorem uvOffset_le (w h : Nat) (hw : w ≤ 16384) (hh : h ≤ 16384) : uvOffset w h ≤ 268435456 :=
  Nat.mul_le_mul (paddedWidth_le w hw) hh

theorem uvEnd_le (w h : Nat) (hw : w ≤ 16384) (hh : h ≤ 16384) :
    uvOffset w h + hTilesChroma h * 32 * paddedWidth w ≤ 402653184 := by
  have h1 : h + hTilesChroma h * 32 ≤ 24576 := by
    rw [hTilesChroma_eq]
    omega
  have h2 := Nat.mul_le_mul (paddedWidth_le w hw) h1
  rw [Nat.mul_add] at h2
  unfold uvOffset
  rw [Nat.mul_comm (hTilesChroma h * 32)]
  omega

theorem dstWindow_le (w h : Nat) (hw : w ≤ 16384) (hh : h ≤ 16384) : dstWindowBytes w h ≤ 402653184 := by
  have h1 : paddedWidth w * paddedHeight h ≤ 268435456 :=
    Nat.mul_le_mul (paddedWidth_le w hw) (paddedHeight_le h hh)
  have h2 := uvEnd_le w h hw hh
  have h3 := linear_le w h hw hh
  unfold dstWindowBytes
  omega

/-! ## The registers as numbers -/

/-- A number below 2^32 survives `zext_32` (R32, R94). -/
theorem toNat_word (n : Nat) (h : n < 4294967296) : (BitVec.ofNat 32 n).toNat = n := by
  rw [BitVec.toNat_ofNat]
  exact Nat.mod_eq_of_lt h

/-- Every G_* register as the number R95 gives it. -/
theorem describe_toNat (w h : Nat) (hw : w ≤ 16384) (hh : h ≤ 16384) :
    (describe w h).width.toNat = w ∧
    (describe w h).height.toNat = h ∧
    (describe w h).pWidth.toNat = paddedWidth w ∧
    (describe w h).pHeight.toNat = paddedHeight h ∧
    (describe w h).wTiles.toNat = wTiles w ∧
    (describe w h).hTiles.toNat = hTiles h ∧
    (describe w h).hTilesC.toNat = hTilesChroma h ∧
    (describe w h).lumaBytes.toNat = planeSize (wTiles w) (hTiles h) ∧
    (describe w h).chromaBytes.toNat = planeSize (wTiles w) (hTilesChroma h) ∧
    (describe w h).tiledBytes.toNat = planeSize (wTiles w) (hTiles h) + planeSize (wTiles w) (hTilesChroma h) ∧
    (describe w h).linearBytes.toNat = linearFrameBytes w h ∧
    (describe w h).cropRows.toNat = h * 3 / 2 ∧
    (describe w h).lumaLen.toNat = w * h ∧
    (describe w h).chromaLen.toNat = w * h / 4 ∧
    (describe w h).uvOffset.toNat = uvOffset w h ∧
    (describe w h).dstWindow.toNat = dstWindowBytes w h := by
  have a1 := paddedWidth_le w hw
  have a2 := paddedHeight_le h hh
  have a3 := wTiles_le w hw
  have a4 := hTiles_le h hh
  have a5 := hTilesChroma_le h hh
  have a6 := luma_le w h hw hh
  have a7 := chroma_le w h hw hh
  have a8 := area_le w h hw hh
  have a9 := linear_le w h hw hh
  have a10 := uvOffset_le w h hw hh
  have a11 := dstWindow_le w h hw hh
  refine ⟨toNat_word _ ?_, toNat_word _ ?_, toNat_word _ ?_, toNat_word _ ?_, toNat_word _ ?_, toNat_word _ ?_,
    toNat_word _ ?_, toNat_word _ ?_, toNat_word _ ?_, toNat_word _ ?_, toNat_word _ ?_, toNat_word _ ?_,
    toNat_word _ ?_, toNat_word _ ?_, toNat_word _ ?_, toNat_word _ ?_⟩ <;> omega

/-- What the commands need of a descriptor: the columns are even, each plane's tiles and raster fit their windows, and the
crop and the deinterleave stay inside the output frame's room (R92, R93, R111, R118, R125). -/
structure DescriptorFacts (g : Descriptor) : Prop where
  even : g.wTiles.toNat % 2 = 0
  width_le : g.width.toNat ≤ g.pWidth.toNat
  stride : g.wTiles.toNat * 64 = g.pWidth.toNat
  lumaTiles : g.wTiles.toNat * g.hTiles.toNat * 2048 ≤ g.lumaBytes.toNat
  lumaFits : g.lumaBytes.toNat ≤ g.tiledBytes.toNat
  chromaTiles : g.lumaBytes.toNat + g.wTiles.toNat * g.hTilesC.toNat * 2048 ≤ g.tiledBytes.toNat
  lumaRaster : g.hTiles.toNat * 32 * (g.wTiles.toNat * 64) ≤ g.dstWindow.toNat
  chromaRaster : g.uvOffset.toNat + g.hTilesC.toNat * 32 * (g.wTiles.toNat * 64) ≤ g.dstWindow.toNat
  cropFits : g.cropRows.toNat * g.width.toNat ≤ g.dstWindow.toNat
  cropReads : g.cropRows.toNat * g.pWidth.toNat ≤ g.dstWindow.toNat
  cropInFrame : g.cropRows.toNat * g.width.toNat ≤ g.linearBytes.toNat
  planesFit : g.lumaLen.toNat + 2 * g.chromaLen.toNat ≤ g.linearBytes.toNat
  frameFits : g.linearBytes.toNat ≤ g.dstWindow.toNat

theorem describe_facts (w h : Nat) (hw : w ≤ 16384) (hh : h ≤ 16384) : DescriptorFacts (describe w h) := by
  obtain ⟨e1, e2, e3, e4, e5, e6, e7, e8, e9, e10, e11, e12, e13, e14, e15, e16⟩ := describe_toNat w h hw hh
  have hpw : w ≤ paddedWidth w := by
    rw [paddedWidth_eq]
    omega
  have hcrop : h * 3 / 2 * paddedWidth w ≤ uvOffset w h + hTilesChroma h * 32 * paddedWidth w := by
    have := Nat.mul_le_mul_right (paddedWidth w) (cropRows_le h)
    rw [Nat.add_mul] at this
    unfold uvOffset
    rw [Nat.mul_comm (paddedWidth w)]
    exact this
  have hcw : h * 3 / 2 * w ≤ h * 3 / 2 * paddedWidth w := Nat.mul_le_mul_left _ hpw
  have hlin : h * 3 / 2 * w ≤ linearFrameBytes w h := by
    unfold linearFrameBytes
    have h1 : h * 3 / 2 * 2 ≤ h * 3 := by omega
    have h2 := Nat.mul_le_mul_right w h1
    have h3 : h * 3 * w = w * h * 3 := by ring
    have h4 : h * 3 / 2 * 2 * w = h * 3 / 2 * w * 2 := by ring
    omega
  have hpad1 : wTiles w * hTiles h * 2048 ≤ planeSize (wTiles w) (hTiles h) :=
    Nat.le_add_right _ _
  have hpad2 : wTiles w * hTilesChroma h * 2048 ≤ planeSize (wTiles w) (hTilesChroma h) :=
    Nat.le_add_right _ _
  have hdst : dstWindowBytes w h = max (max (paddedWidth w * paddedHeight h)
      (uvOffset w h + hTilesChroma h * 32 * paddedWidth w)) (linearFrameBytes w h) := rfl
  constructor
  · rw [e5]
    exact wTiles_even w
  · rw [e1, e3]
    exact hpw
  · rw [e5, e3]
    exact wTiles_stride w
  · rw [e5, e6, e8]
    exact hpad1
  · rw [e8, e10]
    omega
  · rw [e8, e5, e7, e10]
    omega
  · rw [e6, e5, e16, wTiles_stride, hTiles_rows, Nat.mul_comm (paddedHeight h), hdst]
    omega
  · rw [e15, e7, e5, e16, wTiles_stride, hdst]
    omega
  · rw [e12, e1, e16, hdst]
    omega
  · rw [e12, e3, e16, hdst]
    omega
  · rw [e12, e1, e11]
    exact hlin
  · rw [e13, e14, e11]
    unfold linearFrameBytes
    omega
  · rw [e11, e16, hdst]
    omega

end Sys2Proof.Machine
end

