-- ==== Sys2Proof/Laws/Planar.lean ====
section
/-! SUPPORT. What PLANAR's body does to M (43_planar.md R121 … R125). -/

namespace Sys2Proof.Machine

/-- The deinterleave alone: U and V stand in their planes, every other address reads as before (R124). -/
theorem read_deinterleave (dst scr L C : Nat) (m : Memory)
    (hdis : ∀ j k, j < 2 * C → k < 2 * C → scr + L + j ≠ dst + L + k) :
    (∀ k, k < C → Memory.read (loop C (deinterleaveOne dst scr L C) m) (dst + L + k)
        = Memory.read m (scr + L + 2 * k)) ∧
    (∀ k, k < C → Memory.read (loop C (deinterleaveOne dst scr L C) m) (dst + L + C + k)
        = Memory.read m (scr + L + 2 * k + 1)) ∧
    (∀ a, ¬ (dst + L ≤ a ∧ a < dst + L + 2 * C) →
      Memory.read (loop C (deinterleaveOne dst scr L C) m) a = Memory.read m a) := by
  have key : ∀ j, j ≤ C →
      (∀ k, k < j → Memory.read (loop j (deinterleaveOne dst scr L C) m) (dst + L + k)
          = Memory.read m (scr + L + 2 * k)) ∧
      (∀ k, k < j → Memory.read (loop j (deinterleaveOne dst scr L C) m) (dst + L + C + k)
          = Memory.read m (scr + L + 2 * k + 1)) ∧
      (∀ a, ¬ (dst + L ≤ a ∧ a < dst + L + 2 * C) →
        Memory.read (loop j (deinterleaveOne dst scr L C) m) a = Memory.read m a) := by
    intro j
    induction j with
    | zero =>
      exact fun _ => ⟨fun k hk => absurd hk (Nat.not_lt_zero k), fun k hk => absurd hk (Nat.not_lt_zero k), fun a _ => rfl⟩
    | succ j ih =>
      intro hj
      obtain ⟨ih1, ih2, ih3⟩ := ih (by omega)
      have hsrc : ∀ i, i < 2 * C → ¬ (dst + L ≤ scr + L + i ∧ scr + L + i < dst + L + 2 * C) := by
        intro i hi ⟨h1, h2⟩
        exact hdis i (scr + L + i - (dst + L)) hi (by omega) (by omega)
      have hs0 := hsrc (2 * j) (by omega)
      have hs1 := hsrc (2 * j + 1) (by omega)
      refine ⟨?_, ?_, ?_⟩
      · intro k hk
        rw [loop_succ, deinterleaveOne, Memory.read_move, if_neg (by omega), Memory.read_move]
        by_cases hkj : k = j
        · subst hkj
          rw [if_pos rfl]
          exact ih3 _ (by omega)
        · rw [if_neg (by omega)]
          exact ih1 k (by omega)
      · intro k hk
        rw [loop_succ, deinterleaveOne, Memory.read_move]
        by_cases hkj : k = j
        · subst hkj
          rw [if_pos rfl, Memory.read_move, if_neg (by omega)]
          exact ih3 _ (by omega)
        · rw [if_neg (by omega), Memory.read_move, if_neg (by omega)]
          exact ih2 k (by omega)
      · intro a ha
        rw [loop_succ, deinterleaveOne, Memory.read_move, if_neg (by omega), Memory.read_move, if_neg (by omega)]
        exact ih3 a ha
  exact key C (Nat.le_refl C)

/-- R121's effect in closed form. -/
theorem read_planarBody (s : State) (m : Memory)
    (hLC : s.g.lumaLen.toNat + 2 * s.g.chromaLen.toNat ≤ s.g.linearBytes.toNat)
    (hdis : ∀ j k, j < s.g.linearBytes.toNat → k < s.g.linearBytes.toNat →
      s.scrAddr.toNat + j ≠ s.dstAddr.toNat + k) :
    (∀ j, j < s.g.linearBytes.toNat →
      Memory.read (planarBody s m) (s.scrAddr.toNat + j) = Memory.read m (s.dstAddr.toNat + j)) ∧
    (∀ k, k < s.g.chromaLen.toNat →
      Memory.read (planarBody s m) (s.dstAddr.toNat + s.g.lumaLen.toNat + k)
        = Memory.read m (s.dstAddr.toNat + s.g.lumaLen.toNat + 2 * k)) ∧
    (∀ k, k < s.g.chromaLen.toNat →
      Memory.read (planarBody s m) (s.dstAddr.toNat + s.g.lumaLen.toNat + s.g.chromaLen.toNat + k)
        = Memory.read m (s.dstAddr.toNat + s.g.lumaLen.toNat + 2 * k + 1)) ∧
    (∀ a, ¬ (s.scrAddr.toNat ≤ a ∧ a < s.scrAddr.toNat + s.g.linearBytes.toNat) →
      ¬ (s.dstAddr.toNat + s.g.lumaLen.toNat ≤ a ∧
        a < s.dstAddr.toNat + s.g.lumaLen.toNat + 2 * s.g.chromaLen.toNat) →
      Memory.read (planarBody s m) a = Memory.read m a) := by
  unfold planarBody
  generalize s.g.linearBytes.toNat = N at *
  generalize s.g.lumaLen.toNat = L at *
  generalize s.g.chromaLen.toNat = C at *
  generalize s.dstAddr.toNat = dst at *
  generalize s.scrAddr.toNat = scr at *
  have hdis' : ∀ j, j < N → ¬ (dst ≤ scr + j ∧ scr + j < dst + N) := by
    intro j hj ⟨h1, h2⟩
    exact hdis j (scr + j - dst) hj (by omega) (by omega)
  have hscr : ∀ j, j < N →
      Memory.read ((m.copy scr dst N).copy dst scr L) (scr + j) = Memory.read m (dst + j) := by
    intro j hj
    have := hdis' j hj
    rw [Memory.read_copy, if_neg (by omega), Memory.read_copy, if_pos (by omega)]
    congr 1
    omega
  have hdst : ∀ a, ¬ (scr ≤ a ∧ a < scr + N) →
      Memory.read ((m.copy scr dst N).copy dst scr L) a = Memory.read m a := by
    intro a ha
    rw [Memory.read_copy]
    split
    · next h =>
      have h2 := hdis' (a - dst) (by omega)
      rw [Memory.read_copy, if_pos (by omega)]
      congr 1
      omega
    · rw [Memory.read_copy, if_neg ha]
  obtain ⟨d1, d2, d3⟩ := read_deinterleave dst scr L C ((m.copy scr dst N).copy dst scr L)
    (fun j k hj hk h => hdis (L + j) (L + k) (by omega) (by omega) (by omega))
  refine ⟨?_, ?_, ?_, ?_⟩
  · intro j hj
    have := hdis' j hj
    rw [d3 _ (by omega), hscr j hj]
  · intro k hk
    rw [d1 k hk, Nat.add_assoc scr, hscr (L + 2 * k) (by omega)]
    congr 1
    omega
  · intro k hk
    rw [d2 k hk]
    have := hscr (L + 2 * k + 1) (by omega)
    rw [show scr + L + 2 * k + 1 = scr + (L + 2 * k + 1) by omega, this]
    congr 1
    omega
  · intro a h1 h2
    rw [d3 a h2, hdst a h1]

theorem wf_planarBody (s : State) (m : Memory) (h : Memory.wf m = true) : Memory.wf (planarBody s m) = true := by
  unfold planarBody
  refine loop_keeps (fun m => Memory.wf m = true) _ _ _ ?_ (fun _ _ m hm =>
    Memory.wf_move _ _ _ (Memory.wf_move m _ _ hm))
  exact Memory.wf_copy _ _ _ _ (Memory.wf_copy _ _ _ _ h)

theorem within_planarBody (s : State) (m : Memory) (n : Nat) (h : Memory.within m n = true)
    (hLC : s.g.lumaLen.toNat + 2 * s.g.chromaLen.toNat ≤ s.g.linearBytes.toNat)
    (hd : s.dstAddr.toNat + s.g.linearBytes.toNat ≤ n) (hs : s.scrAddr.toNat + s.g.linearBytes.toNat ≤ n) :
    Memory.within (planarBody s m) n = true := by
  unfold planarBody
  refine loop_keeps (fun m => Memory.within m n = true) _ _ _ ?_ (fun k hk m hm => ?_)
  · exact Memory.within_copy _ _ _ _ _ (Memory.within_copy _ _ _ _ _ h hs) (by omega)
  · exact Memory.within_move _ _ _ _ (Memory.within_move m _ _ _ hm (by omega)) (by omega)

end Sys2Proof.Machine
end

