-- ==== Sys2Proof/Laws/State.lean ====
section
/-! SUPPORT. One lemma per field per update of State, each true by unfolding the update, so that no later proof unfolds one. -/

namespace Sys2Proof.Machine

/-! ## State.raise -/

@[simp] theorem State.raise_width (s : State) (e : ErrCode) : (s.raise e).width = s.width := rfl
@[simp] theorem State.raise_height (s : State) (e : ErrCode) : (s.raise e).height = s.height := rfl
@[simp] theorem State.raise_layout (s : State) (e : ErrCode) : (s.raise e).layout = s.layout := rfl
@[simp] theorem State.raise_srcAddr (s : State) (e : ErrCode) : (s.raise e).srcAddr = s.srcAddr := rfl
@[simp] theorem State.raise_dstAddr (s : State) (e : ErrCode) : (s.raise e).dstAddr = s.dstAddr := rfl
@[simp] theorem State.raise_scrAddr (s : State) (e : ErrCode) : (s.raise e).scrAddr = s.scrAddr := rfl
@[simp] theorem State.raise_busy (s : State) (e : ErrCode) : (s.raise e).busy = false := rfl
@[simp] theorem State.raise_done (s : State) (e : ErrCode) : (s.raise e).done = false := rfl
@[simp] theorem State.raise_err (s : State) (e : ErrCode) : (s.raise e).err = true := rfl
@[simp] theorem State.raise_geomValid (s : State) (e : ErrCode) : (s.raise e).geomValid = s.geomValid := rfl
@[simp] theorem State.raise_wbusy (s : State) (e : ErrCode) : (s.raise e).wbusy = s.wbusy := rfl
@[simp] theorem State.raise_errcode (s : State) (e : ErrCode) : (s.raise e).errcode = e.code := rfl
@[simp] theorem State.raise_g (s : State) (e : ErrCode) : (s.raise e).g = s.g := rfl
@[simp] theorem State.raise_pending (s : State) (e : ErrCode) : (s.raise e).pending = none := rfl
@[simp] theorem State.raise_mem (s : State) (e : ErrCode) : (s.raise e).mem = s.mem := rfl
@[simp] theorem State.raise_params (s : State) (e : ErrCode) : (s.raise e).params = s.params := rfl
@[simp] theorem State.raise_script (s : State) (e : ErrCode) : (s.raise e).script = s.script := rfl
@[simp] theorem State.raise_turns (s : State) (e : ErrCode) : (s.raise e).turns = s.turns := rfl
@[simp] theorem State.raise_observed (s : State) (e : ErrCode) : (s.raise e).observed = s.observed := rfl
@[simp] theorem State.raise_draws (s : State) (e : ErrCode) : (s.raise e).draws = s.draws := rfl

/-! ## State.complete -/

@[simp] theorem State.complete_width (s : State) : (s.complete).width = s.width := rfl
@[simp] theorem State.complete_height (s : State) : (s.complete).height = s.height := rfl
@[simp] theorem State.complete_layout (s : State) : (s.complete).layout = s.layout := rfl
@[simp] theorem State.complete_srcAddr (s : State) : (s.complete).srcAddr = s.srcAddr := rfl
@[simp] theorem State.complete_dstAddr (s : State) : (s.complete).dstAddr = s.dstAddr := rfl
@[simp] theorem State.complete_scrAddr (s : State) : (s.complete).scrAddr = s.scrAddr := rfl
@[simp] theorem State.complete_busy (s : State) : (s.complete).busy = false := rfl
@[simp] theorem State.complete_done (s : State) : (s.complete).done = true := rfl
@[simp] theorem State.complete_err (s : State) : (s.complete).err = false := rfl
@[simp] theorem State.complete_geomValid (s : State) : (s.complete).geomValid = s.geomValid := rfl
@[simp] theorem State.complete_wbusy (s : State) : (s.complete).wbusy = s.wbusy := rfl
@[simp] theorem State.complete_errcode (s : State) : (s.complete).errcode = 0 := rfl
@[simp] theorem State.complete_g (s : State) : (s.complete).g = s.g := rfl
@[simp] theorem State.complete_pending (s : State) : (s.complete).pending = none := rfl
@[simp] theorem State.complete_mem (s : State) : (s.complete).mem = s.mem := rfl
@[simp] theorem State.complete_params (s : State) : (s.complete).params = s.params := rfl
@[simp] theorem State.complete_script (s : State) : (s.complete).script = s.script := rfl
@[simp] theorem State.complete_turns (s : State) : (s.complete).turns = s.turns := rfl
@[simp] theorem State.complete_observed (s : State) : (s.complete).observed = s.observed := rfl
@[simp] theorem State.complete_draws (s : State) : (s.complete).draws = s.draws := rfl

/-! ## State.issue -/

@[simp] theorem State.issue_width (s : State) (w : Word) : (s.issue w).width = s.width := rfl
@[simp] theorem State.issue_height (s : State) (w : Word) : (s.issue w).height = s.height := rfl
@[simp] theorem State.issue_layout (s : State) (w : Word) : (s.issue w).layout = s.layout := rfl
@[simp] theorem State.issue_srcAddr (s : State) (w : Word) : (s.issue w).srcAddr = s.srcAddr := rfl
@[simp] theorem State.issue_dstAddr (s : State) (w : Word) : (s.issue w).dstAddr = s.dstAddr := rfl
@[simp] theorem State.issue_scrAddr (s : State) (w : Word) : (s.issue w).scrAddr = s.scrAddr := rfl
@[simp] theorem State.issue_busy (s : State) (w : Word) : (s.issue w).busy = true := rfl
@[simp] theorem State.issue_done (s : State) (w : Word) : (s.issue w).done = false := rfl
@[simp] theorem State.issue_err (s : State) (w : Word) : (s.issue w).err = false := rfl
@[simp] theorem State.issue_geomValid (s : State) (w : Word) : (s.issue w).geomValid = s.geomValid := rfl
@[simp] theorem State.issue_wbusy (s : State) (w : Word) : (s.issue w).wbusy = s.wbusy := rfl
@[simp] theorem State.issue_errcode (s : State) (w : Word) : (s.issue w).errcode = 0 := rfl
@[simp] theorem State.issue_g (s : State) (w : Word) : (s.issue w).g = s.g := rfl
@[simp] theorem State.issue_pending (s : State) (w : Word) : (s.issue w).pending = some w := rfl
@[simp] theorem State.issue_mem (s : State) (w : Word) : (s.issue w).mem = s.mem := rfl
@[simp] theorem State.issue_params (s : State) (w : Word) : (s.issue w).params = s.params := rfl
@[simp] theorem State.issue_script (s : State) (w : Word) : (s.issue w).script = s.script := rfl
@[simp] theorem State.issue_turns (s : State) (w : Word) : (s.issue w).turns = s.turns := rfl
@[simp] theorem State.issue_observed (s : State) (w : Word) : (s.issue w).observed = s.observed := rfl
@[simp] theorem State.issue_draws (s : State) (w : Word) : (s.issue w).draws = s.draws := rfl

/-! ## State.writeStatus -/

@[simp] theorem State.writeStatus_width (s : State) (d : Word) : (s.writeStatus d).width = s.width := rfl
@[simp] theorem State.writeStatus_height (s : State) (d : Word) : (s.writeStatus d).height = s.height := rfl
@[simp] theorem State.writeStatus_layout (s : State) (d : Word) : (s.writeStatus d).layout = s.layout := rfl
@[simp] theorem State.writeStatus_srcAddr (s : State) (d : Word) : (s.writeStatus d).srcAddr = s.srcAddr := rfl
@[simp] theorem State.writeStatus_dstAddr (s : State) (d : Word) : (s.writeStatus d).dstAddr = s.dstAddr := rfl
@[simp] theorem State.writeStatus_scrAddr (s : State) (d : Word) : (s.writeStatus d).scrAddr = s.scrAddr := rfl
@[simp] theorem State.writeStatus_busy (s : State) (d : Word) : (s.writeStatus d).busy = s.busy := rfl
@[simp] theorem State.writeStatus_done (s : State) (d : Word) : (s.writeStatus d).done = (s.done && !d.getLsbD 1) := rfl
@[simp] theorem State.writeStatus_err (s : State) (d : Word) : (s.writeStatus d).err = (s.err && !d.getLsbD 2) := rfl
@[simp] theorem State.writeStatus_geomValid (s : State) (d : Word) : (s.writeStatus d).geomValid = s.geomValid := rfl
@[simp] theorem State.writeStatus_wbusy (s : State) (d : Word) : (s.writeStatus d).wbusy = (s.wbusy && !d.getLsbD 4) := rfl
@[simp] theorem State.writeStatus_errcode (s : State) (d : Word) : (s.writeStatus d).errcode = (if d.getLsbD 2 then 0 else s.errcode) := rfl
@[simp] theorem State.writeStatus_g (s : State) (d : Word) : (s.writeStatus d).g = s.g := rfl
@[simp] theorem State.writeStatus_pending (s : State) (d : Word) : (s.writeStatus d).pending = s.pending := rfl
@[simp] theorem State.writeStatus_mem (s : State) (d : Word) : (s.writeStatus d).mem = s.mem := rfl
@[simp] theorem State.writeStatus_params (s : State) (d : Word) : (s.writeStatus d).params = s.params := rfl
@[simp] theorem State.writeStatus_script (s : State) (d : Word) : (s.writeStatus d).script = s.script := rfl
@[simp] theorem State.writeStatus_turns (s : State) (d : Word) : (s.writeStatus d).turns = s.turns := rfl
@[simp] theorem State.writeStatus_observed (s : State) (d : Word) : (s.writeStatus d).observed = s.observed := rfl
@[simp] theorem State.writeStatus_draws (s : State) (d : Word) : (s.writeStatus d).draws = s.draws := rfl

/-! ## State.resetRegisters -/

@[simp] theorem State.resetRegisters_width (s : State) : (s.resetRegisters).width = 0 := rfl
@[simp] theorem State.resetRegisters_height (s : State) : (s.resetRegisters).height = 0 := rfl
@[simp] theorem State.resetRegisters_layout (s : State) : (s.resetRegisters).layout = 0 := rfl
@[simp] theorem State.resetRegisters_srcAddr (s : State) : (s.resetRegisters).srcAddr = 0 := rfl
@[simp] theorem State.resetRegisters_dstAddr (s : State) : (s.resetRegisters).dstAddr = 0 := rfl
@[simp] theorem State.resetRegisters_scrAddr (s : State) : (s.resetRegisters).scrAddr = 0 := rfl
@[simp] theorem State.resetRegisters_busy (s : State) : (s.resetRegisters).busy = false := rfl
@[simp] theorem State.resetRegisters_done (s : State) : (s.resetRegisters).done = false := rfl
@[simp] theorem State.resetRegisters_err (s : State) : (s.resetRegisters).err = false := rfl
@[simp] theorem State.resetRegisters_geomValid (s : State) : (s.resetRegisters).geomValid = false := rfl
@[simp] theorem State.resetRegisters_wbusy (s : State) : (s.resetRegisters).wbusy = false := rfl
@[simp] theorem State.resetRegisters_errcode (s : State) : (s.resetRegisters).errcode = 0 := rfl
@[simp] theorem State.resetRegisters_g (s : State) : (s.resetRegisters).g = Descriptor.zero := rfl
@[simp] theorem State.resetRegisters_pending (s : State) : (s.resetRegisters).pending = none := rfl
@[simp] theorem State.resetRegisters_mem (s : State) : (s.resetRegisters).mem = s.mem := rfl
@[simp] theorem State.resetRegisters_params (s : State) : (s.resetRegisters).params = s.params := rfl
@[simp] theorem State.resetRegisters_script (s : State) : (s.resetRegisters).script = s.script := rfl
@[simp] theorem State.resetRegisters_turns (s : State) : (s.resetRegisters).turns = s.turns := rfl
@[simp] theorem State.resetRegisters_observed (s : State) : (s.resetRegisters).observed = s.observed := rfl
@[simp] theorem State.resetRegisters_draws (s : State) : (s.resetRegisters).draws = s.draws := rfl

/-! ## State.observe -/

@[simp] theorem State.observe_width (s : State) (o : Observation) : (s.observe o).width = s.width := rfl
@[simp] theorem State.observe_height (s : State) (o : Observation) : (s.observe o).height = s.height := rfl
@[simp] theorem State.observe_layout (s : State) (o : Observation) : (s.observe o).layout = s.layout := rfl
@[simp] theorem State.observe_srcAddr (s : State) (o : Observation) : (s.observe o).srcAddr = s.srcAddr := rfl
@[simp] theorem State.observe_dstAddr (s : State) (o : Observation) : (s.observe o).dstAddr = s.dstAddr := rfl
@[simp] theorem State.observe_scrAddr (s : State) (o : Observation) : (s.observe o).scrAddr = s.scrAddr := rfl
@[simp] theorem State.observe_busy (s : State) (o : Observation) : (s.observe o).busy = s.busy := rfl
@[simp] theorem State.observe_done (s : State) (o : Observation) : (s.observe o).done = s.done := rfl
@[simp] theorem State.observe_err (s : State) (o : Observation) : (s.observe o).err = s.err := rfl
@[simp] theorem State.observe_geomValid (s : State) (o : Observation) : (s.observe o).geomValid = s.geomValid := rfl
@[simp] theorem State.observe_wbusy (s : State) (o : Observation) : (s.observe o).wbusy = s.wbusy := rfl
@[simp] theorem State.observe_errcode (s : State) (o : Observation) : (s.observe o).errcode = s.errcode := rfl
@[simp] theorem State.observe_g (s : State) (o : Observation) : (s.observe o).g = s.g := rfl
@[simp] theorem State.observe_pending (s : State) (o : Observation) : (s.observe o).pending = s.pending := rfl
@[simp] theorem State.observe_mem (s : State) (o : Observation) : (s.observe o).mem = s.mem := rfl
@[simp] theorem State.observe_params (s : State) (o : Observation) : (s.observe o).params = s.params := rfl
@[simp] theorem State.observe_script (s : State) (o : Observation) : (s.observe o).script = s.script := rfl
@[simp] theorem State.observe_turns (s : State) (o : Observation) : (s.observe o).turns = s.turns := rfl
@[simp] theorem State.observe_observed (s : State) (o : Observation) : (s.observe o).observed = o :: s.observed := rfl
@[simp] theorem State.observe_draws (s : State) (o : Observation) : (s.observe o).draws = s.draws := rfl

/-! ## State.tick -/

@[simp] theorem State.tick_width (s : State) : (s.tick).width = s.width := rfl
@[simp] theorem State.tick_height (s : State) : (s.tick).height = s.height := rfl
@[simp] theorem State.tick_layout (s : State) : (s.tick).layout = s.layout := rfl
@[simp] theorem State.tick_srcAddr (s : State) : (s.tick).srcAddr = s.srcAddr := rfl
@[simp] theorem State.tick_dstAddr (s : State) : (s.tick).dstAddr = s.dstAddr := rfl
@[simp] theorem State.tick_scrAddr (s : State) : (s.tick).scrAddr = s.scrAddr := rfl
@[simp] theorem State.tick_busy (s : State) : (s.tick).busy = s.busy := rfl
@[simp] theorem State.tick_done (s : State) : (s.tick).done = s.done := rfl
@[simp] theorem State.tick_err (s : State) : (s.tick).err = s.err := rfl
@[simp] theorem State.tick_geomValid (s : State) : (s.tick).geomValid = s.geomValid := rfl
@[simp] theorem State.tick_wbusy (s : State) : (s.tick).wbusy = s.wbusy := rfl
@[simp] theorem State.tick_errcode (s : State) : (s.tick).errcode = s.errcode := rfl
@[simp] theorem State.tick_g (s : State) : (s.tick).g = s.g := rfl
@[simp] theorem State.tick_pending (s : State) : (s.tick).pending = s.pending := rfl
@[simp] theorem State.tick_mem (s : State) : (s.tick).mem = s.mem := rfl
@[simp] theorem State.tick_params (s : State) : (s.tick).params = s.params := rfl
@[simp] theorem State.tick_script (s : State) : (s.tick).script = s.script := rfl
@[simp] theorem State.tick_turns (s : State) : (s.tick).turns = s.turns.tail := rfl
@[simp] theorem State.tick_observed (s : State) : (s.tick).observed = s.observed := rfl
@[simp] theorem State.tick_draws (s : State) : (s.tick).draws = s.draws := rfl

end Sys2Proof.Machine
end

