-- ==== Sys2Proof/Laws/Command.lean ====
section
/-! SUPPORT. What a command can do: the outcomes of `runCommand` and of `exec`, when the checks pass, and what a body leaves of M. -/

namespace Sys2Proof.Machine

/-! ## Outcomes -/

/-- `runCommand` answers a next state in exactly two ways: an error with nothing else changed, or the body's memory and success. -/
theorem runCommand_next (i : Instr) (body : State → Memory → Memory) (s t : State)
    (h : runCommand i body s = .next t) :
    (∃ e, windowError s i = some e ∧ t = s.raise e) ∨
    (windowError s i = none ∧ ordinary s (usedWindows s i) = true ∧ t = { s with mem := body s s.mem }.complete) := by
  unfold runCommand at h
  split at h
  · next e he =>
    injection h with h
    exact .inl ⟨e, he, h.symm⟩
  · next he =>
    split at h
    · next ho =>
      injection h with h
      exact .inr ⟨he, ho, h.symm⟩
    · cases h

theorem runCommand_error (i : Instr) (body : State → Memory → Memory) (s : State) (e : ErrCode)
    (h : windowError s i = some e) : runCommand i body s = .next (s.raise e) := by
  simp only [runCommand, h]

theorem runCommand_success (i : Instr) (body : State → Memory → Memory) (s : State)
    (h : windowError s i = none) (ho : ordinary s (usedWindows s i) = true) :
    runCommand i body s = .next { s with mem := body s s.mem }.complete := by
  simp only [runCommand, h, ho, if_true]

theorem runCommand_refused (i : Instr) (body : State → Memory → Memory) (s : State)
    (h : windowError s i = none) (ho : ordinary s (usedWindows s i) = false) :
    runCommand i body s = .refused .notOrdinaryMemory := by
  simp [runCommand, h, ho]

/-- The body of each command but GEOM. -/
def commandBody : Instr → State → Memory → Memory
  | .geom => fun _ m => m
  | .detileY => detileYBody
  | .detileUV => detileUVBody
  | .crop => cropBody
  | .planar => planarBody
  | .frame => frameBody

theorem exec_eq_runCommand (i : Instr) (s : State) (hi : i ≠ .geom) :
    exec i s = runCommand i (commandBody i) s := by
  cases i
  · exact absurd rfl hi
  all_goals rfl

/-- The ways `exec` answers a next state. -/
theorem exec_next (i : Instr) (s t : State) (h : exec i s = .next t) :
    (i = .geom ∧ geomLegal s.params.maxDim s.width.toNat s.height.toNat = true ∧ t = geomLatch s) ∨
    (i = .geom ∧ geomLegal s.params.maxDim s.width.toNat s.height.toNat = false ∧ t = geomReject s) ∨
    (i ≠ .geom ∧ ∃ e, windowError s i = some e ∧ t = s.raise e) ∨
    (i ≠ .geom ∧ windowError s i = none ∧ ordinary s (usedWindows s i) = true ∧
      t = { s with mem := commandBody i s s.mem }.complete) := by
  by_cases hi : i = .geom
  · subst hi
    simp only [exec, execGeom] at h
    split at h
    · next hl =>
      injection h with h
      exact .inl ⟨rfl, hl, h.symm⟩
    · next hl =>
      injection h with h
      exact .inr (.inl ⟨rfl, by simpa using hl, h.symm⟩)
  · rw [exec_eq_runCommand i s hi] at h
    rcases runCommand_next i _ s t h with h | h
    · exact .inr (.inr (.inl ⟨hi, h⟩))
    · exact .inr (.inr (.inr ⟨hi, h⟩))

/-! ## The checks -/

theorem inBounds_iff (w : Window) (n : Nat) : inBounds w n = true ↔ w.base + w.size ≤ n := by
  simp [inBounds]

theorem overlap_iff (w v : Window) :
    overlap w v = true ↔ w.base < v.base + v.size ∧ v.base < w.base + w.size := by
  simp [overlap]

/-- The checks of R144 pass exactly when a descriptor is valid, the windows are in bounds and the pairs do not overlap. -/
theorem windowError_none (s : State) (i : Instr) :
    windowError s i = none ↔
      s.geomValid = true ∧ (∀ w ∈ usedWindows s i, inBounds w s.params.memBytes = true) ∧
      (∀ p ∈ overlapPairs s i, overlap p.1 p.2 = false) := by
  unfold windowError
  cases hg : s.geomValid
  · simp
  · by_cases h1 : (usedWindows s i).any (fun w => !inBounds w s.params.memBytes) = true
    · have : ¬ ∀ w ∈ usedWindows s i, inBounds w s.params.memBytes = true := by
        obtain ⟨w, hw, hb⟩ := List.any_eq_true.1 h1
        exact fun h => by simp [h w hw] at hb
      simp only [h1]
      simp [this]
    · by_cases h2 : (overlapPairs s i).any (fun p => overlap p.1 p.2) = true
      · have : ¬ ∀ p ∈ overlapPairs s i, overlap p.1 p.2 = false := by
          obtain ⟨p, hp, hb⟩ := List.any_eq_true.1 h2
          exact fun h => by simp [h p hp] at hb
        simp only [h1, h2]
        simp
        intro _
        simpa using this
      · simp only [h1, h2]
        simp only [Bool.not_eq_true] at h1 h2
        rw [List.any_eq_false] at h1 h2
        simp
        exact ⟨fun w hw => by simpa using h1 w hw, fun a b hp => by simpa using h2 (a, b) hp⟩

/-! ## The invariant's parts -/

theorem State.Inv_iff (s : State) : s.Inv = true ↔
    s.params.legal = true ∧ s.flagsOk = true ∧ s.geomOk = true ∧ s.descriptorOk = true ∧ s.memOk = true := by
  simp [State.Inv, and_assoc]

/-- While GEOM_VALID = 1 the descriptor has the relations the commands rest on. -/
theorem State.Inv_facts (s : State) (h : s.Inv = true) (hg : s.geomValid = true) : DescriptorFacts s.g := by
  obtain ⟨hp, -, hgeom, -, -⟩ := (State.Inv_iff s).1 h
  simp only [State.geomOk, hg, Bool.not_true, Bool.false_or, Bool.and_eq_true, beq_iff_eq] at hgeom
  obtain ⟨hl, heq⟩ := hgeom
  simp only [Params.legal, Bool.and_eq_true, decide_eq_true_eq] at hp
  rw [geomLegal_iff] at hl
  rw [heq]
  exact describe_facts _ _ (by omega) (by omega)

/-! ## Regions inside windows -/

theorem planeY_dstRegion (s : State) (f : DescriptorFacts s.g) (a : Nat)
    (h : inWindow s.planeY.dstRegion a = true) : inWindow s.dstWin a = true := by
  have := f.lumaRaster
  rw [inWindow_iff] at h ⊢
  simp only [State.planeY, Plane.dstRegion, Plane.stride, tileH, tileW, State.dstWin] at h ⊢
  omega

theorem planeUV_dstRegion (s : State) (f : DescriptorFacts s.g) (a : Nat)
    (h : inWindow s.planeUV.dstRegion a = true) : inWindow s.dstWin a = true := by
  have := f.chromaRaster
  rw [inWindow_iff] at h ⊢
  simp only [State.planeUV, Plane.dstRegion, Plane.stride, tileH, tileW, State.dstWin] at h ⊢
  omega

theorem planeY_srcRegion (s : State) (f : DescriptorFacts s.g) (a : Nat)
    (h : inWindow s.planeY.srcRegion a = true) : inWindow s.srcWin a = true := by
  have h1 := f.lumaTiles
  have h2 := f.lumaFits
  rw [inWindow_iff] at h ⊢
  simp only [State.planeY, Plane.srcRegion, tileBytes, State.srcWin] at h ⊢
  omega

theorem planeUV_srcRegion (s : State) (f : DescriptorFacts s.g) (a : Nat)
    (h : inWindow s.planeUV.srcRegion a = true) : inWindow s.srcWin a = true := by
  have := f.chromaTiles
  rw [inWindow_iff] at h ⊢
  simp only [State.planeUV, Plane.srcRegion, tileBytes, State.srcWin] at h ⊢
  omega

theorem not_overlap (w v : Window) (h : overlap w v = false) (a : Nat) (hw : inWindow w a = true) :
    inWindow v a = false := by
  by_contra hv
  rw [Bool.not_eq_false] at hv
  rw [inWindow_iff] at hw hv
  have := (overlap_iff w v).2 ⟨by omega, by omega⟩
  rw [h] at this
  exact absurd this (by decide)

theorem planeY_disjoint (s : State) (f : DescriptorFacts s.g) (h : overlap s.srcWin s.dstWin = false) (a : Nat)
    (ha : inWindow s.planeY.srcRegion a = true) : inWindow s.planeY.dstRegion a = false := by
  by_contra hd
  rw [Bool.not_eq_false] at hd
  have := not_overlap _ _ h a (planeY_srcRegion s f a ha)
  rw [planeY_dstRegion s f a hd] at this
  exact absurd this (by decide)

theorem planeUV_disjoint (s : State) (f : DescriptorFacts s.g) (h : overlap s.srcWin s.dstWin = false) (a : Nat)
    (ha : inWindow s.planeUV.srcRegion a = true) : inWindow s.planeUV.dstRegion a = false := by
  by_contra hd
  rw [Bool.not_eq_false] at hd
  have := not_overlap _ _ h a (planeUV_srcRegion s f a ha)
  rw [planeUV_dstRegion s f a hd] at this
  exact absurd this (by decide)

/-! ## The bodies over a valid descriptor -/

/-- The detiled Y plane, and every byte outside DST_WIN, after DETILE.Y's body. -/
theorem read_detileYBody (s : State) (m : Memory) (f : DescriptorFacts s.g)
    (h : overlap s.srcWin s.dstWin = false) :
    (∀ row col y x, row < s.g.hTiles.toNat → col < s.g.wTiles.toNat → y < 32 → x < 64 →
      Memory.read (detileYBody s m) (s.planeY.dstByte row col y x)
        = Memory.read m (s.planeY.srcByte (tileIndex s.g.wTiles.toNat s.g.hTiles.toNat row col) y x)) ∧
    (∀ a, inWindow s.planeY.dstRegion a = false → Memory.read (detileYBody s m) a = Memory.read m a) :=
  ⟨fun row col y x hr hc hy hx =>
    read_detilePlane_at s.planeY m f.even (planeY_disjoint s f h) row col y x hr hc hy hx,
   (read_detilePlane s.planeY m f.even (planeY_disjoint s f h)).2⟩

/-- The detiled UV plane, and every byte outside it, after DETILE.UV's body. -/
theorem read_detileUVBody (s : State) (m : Memory) (f : DescriptorFacts s.g)
    (h : overlap s.srcWin s.dstWin = false) :
    (∀ row col y x, row < s.g.hTilesC.toNat → col < s.g.wTiles.toNat → y < 32 → x < 64 →
      Memory.read (detileUVBody s m) (s.planeUV.dstByte row col y x)
        = Memory.read m (s.planeUV.srcByte (tileIndex s.g.wTiles.toNat s.g.hTilesC.toNat row col) y x)) ∧
    (∀ a, inWindow s.planeUV.dstRegion a = false → Memory.read (detileUVBody s m) a = Memory.read m a) :=
  ⟨fun row col y x hr hc hy hx =>
    read_detilePlane_at s.planeUV m f.even (planeUV_disjoint s f h) row col y x hr hc hy hx,
   (read_detilePlane s.planeUV m f.even (planeUV_disjoint s f h)).2⟩

/-- CROP's body in closed form, whether or not the width needed padding (R114, R117). -/
theorem read_cropBody (s : State) (m : Memory) (f : DescriptorFacts s.g) :
    (∀ i x, i < s.g.cropRows.toNat → x < s.g.width.toNat →
      Memory.read (cropBody s m) (s.dstAddr.toNat + i * s.g.width.toNat + x)
        = Memory.read m (s.dstAddr.toNat + i * s.g.pWidth.toNat + x)) ∧
    (∀ a, ¬ (s.dstAddr.toNat ≤ a ∧ a < s.dstAddr.toNat + s.g.cropRows.toNat * s.g.width.toNat) →
      Memory.read (cropBody s m) a = Memory.read m a) := by
  unfold cropBody
  split
  · exact read_cropRows _ _ _ _ m f.width_le
  · next h =>
    rw [not_not] at h
    rw [h]
    exact ⟨fun i x _ _ => rfl, fun a _ => rfl⟩

theorem scr_dst_disjoint (s : State) (f : DescriptorFacts s.g) (h : overlap s.scrWin s.dstWin = false)
    (j k : Nat) (hj : j < s.g.linearBytes.toNat) (hk : k < s.g.linearBytes.toNat) :
    s.scrAddr.toNat + j ≠ s.dstAddr.toNat + k := by
  intro heq
  have h1 : inWindow s.scrWin (s.scrAddr.toNat + j) = true := by
    rw [inWindow_iff]
    simp only [State.scrWin]
    omega
  have h2 : inWindow s.dstWin (s.scrAddr.toNat + j) = true := by
    have := f.frameFits
    rw [inWindow_iff]
    simp only [State.dstWin]
    omega
  rw [not_overlap _ _ h _ h1] at h2
  exact absurd h2 (by decide)

/-! ## What every body keeps -/

theorem wf_commandBody (i : Instr) (s : State) (m : Memory) (h : Memory.wf m = true) :
    Memory.wf (commandBody i s m) = true := by
  cases i
  · exact h
  · exact wf_detilePlane _ m h
  · exact wf_detilePlane _ m h
  · exact wf_cropBody s m h
  · exact wf_planarBody s m h
  · simp only [commandBody, frameBody]
    have := wf_cropBody s _ (wf_detilePlane s.planeUV _ (wf_detilePlane s.planeY m h))
    split
    · exact wf_planarBody s _ this
    · exact this

/-- The conditions under which a body runs, read off the checks. -/
structure Clear (s : State) (i : Instr) : Prop where
  valid : s.geomValid = true
  bounds : ∀ w ∈ usedWindows s i, w.base + w.size ≤ s.params.memBytes
  apart : ∀ p ∈ overlapPairs s i, overlap p.1 p.2 = false

theorem clear_of_windowError (s : State) (i : Instr) (h : windowError s i = none) : Clear s i := by
  obtain ⟨h1, h2, h3⟩ := (windowError_none s i).1 h
  exact ⟨h1, fun w hw => (inBounds_iff w _).1 (h2 w hw), h3⟩

theorem within_detileYBody (s : State) (m : Memory) (f : DescriptorFacts s.g) (n : Nat)
    (hd : s.dstWin.base + s.dstWin.size ≤ n) (h : Memory.within m n = true) :
    Memory.within (detileYBody s m) n = true := by
  refine within_detilePlane s.planeY m n f.even ?_ h
  have := f.lumaRaster
  simp only [State.dstWin] at hd
  simp only [State.planeY, Plane.dstRegion, Plane.stride, tileH, tileW]
  omega

theorem within_detileUVBody (s : State) (m : Memory) (f : DescriptorFacts s.g) (n : Nat)
    (hd : s.dstWin.base + s.dstWin.size ≤ n) (h : Memory.within m n = true) :
    Memory.within (detileUVBody s m) n = true := by
  refine within_detilePlane s.planeUV m n f.even ?_ h
  have := f.chromaRaster
  simp only [State.dstWin] at hd
  simp only [State.planeUV, Plane.dstRegion, Plane.stride, tileH, tileW]
  omega

theorem within_crop (s : State) (m : Memory) (f : DescriptorFacts s.g) (n : Nat)
    (hd : s.dstWin.base + s.dstWin.size ≤ n) (h : Memory.within m n = true) :
    Memory.within (cropBody s m) n = true := by
  refine within_cropBody s m n h ?_
  have := f.cropFits
  simp only [State.dstWin] at hd
  omega

theorem within_planar (s : State) (m : Memory) (f : DescriptorFacts s.g) (n : Nat)
    (hd : s.dstWin.base + s.dstWin.size ≤ n) (hs : s.scrWin.base + s.scrWin.size ≤ n)
    (h : Memory.within m n = true) : Memory.within (planarBody s m) n = true := by
  refine within_planarBody s m n h f.planesFit ?_ hs
  have := f.frameFits
  simp only [State.dstWin] at hd
  omega

theorem within_commandBody (i : Instr) (s : State) (m : Memory) (f : DescriptorFacts s.g) (c : Clear s i)
    (h : Memory.within m s.params.memBytes = true) :
    Memory.within (commandBody i s m) s.params.memBytes = true := by
  cases i
  · exact h
  · exact within_detileYBody s m f _ (c.bounds _ (by simp [usedWindows])) h
  · exact within_detileUVBody s m f _ (c.bounds _ (by simp [usedWindows])) h
  · exact within_crop s m f _ (c.bounds _ (by simp [usedWindows])) h
  · exact within_planar s m f _ (c.bounds _ (by simp [usedWindows])) (c.bounds _ (by simp [usedWindows])) h
  · have hd : s.dstWin.base + s.dstWin.size ≤ s.params.memBytes :=
      c.bounds _ (by simp only [usedWindows]; split <;> simp)
    simp only [commandBody, frameBody]
    have hcrop := within_crop s _ f _ hd (within_detileUVBody s _ f _ hd (within_detileYBody s m f _ hd h))
    split
    · next hp =>
      exact within_planar s _ f _ hd (c.bounds _ (by simp [usedWindows, hp])) hcrop
    · exact hcrop

end Sys2Proof.Machine
end

