-- ==== Sys2Proof/Laws/Host.lean ====
section
/-! SUPPORT. What a move of the host can do, and what a step can do: one inversion lemma each. -/

namespace Sys2Proof.Machine

/-! ## Decoding -/

/-- The fields that name a command are that command's fields (R69, R70). -/
theorem fields_of_command (plane : BitVec 1) (op : BitVec 4) (i : Instr) (hp : plane = 0 ∨ op = 2)
    (h : CmdFields.command ⟨0, plane, op⟩ = some i) : (⟨0, plane, op⟩ : CmdFields) = i.fields := by
  have key : ∀ plane : BitVec 1, ∀ op : BitVec 4, plane = 0 ∨ op = 2 →
      (CmdFields.command ⟨0, plane, op⟩).all (fun i => (⟨0, plane, op⟩ : CmdFields) == i.fields) = true := by
    decide
  have := key plane op hp
  rw [h] at this
  simpa using this

/-- A word decodes to a command when its fields pass the checks and name it (R72). -/
theorem decode_ok (w : Word) (i : Instr) :
    decode w = .ok i ↔ (CmdFields.ofWord w).rsvdClear = true ∧ (CmdFields.ofWord w).planeAllowed = true ∧
      (CmdFields.ofWord w).command = some i := by
  unfold decode
  generalize CmdFields.ofWord w = f
  cases h1 : f.rsvdClear <;> cases h2 : f.planeAllowed <;> cases h3 : f.command <;> simp [h1, h2, h3]

/-- A legal word is its command's word (R72). -/
theorem encode_of_decode (w : Word) (i : Instr) (h : decode w = .ok i) : w = encode i := by
  have hw : (CmdFields.ofWord w).toWord = w := by
    apply BitVec.eq_of_getLsbD_eq
    intro k hk
    simp only [CmdFields.toWord, CmdFields.ofWord, BitVec.getLsbD_append, BitVec.getLsbD_extractLsb']
    by_cases h1 : k < 4
    · simp [h1]
    · by_cases h2 : k - 4 < 1
      · have : 4 + (k - 4) = k := by omega
        simp [h1, h2, this]
      · have h5 : k - 5 < 27 := by omega
        have h4 : 5 + (k - 5) = k := by omega
        simp [h1, h2, h4, h5, Nat.sub_sub]
  rw [← hw]
  obtain ⟨hr, hp, hc⟩ := (decode_ok w i).1 h
  generalize CmdFields.ofWord w = f at hr hp hc
  obtain ⟨rsvd, plane, op⟩ := f
  have hr : rsvd = 0 := by simpa [CmdFields.rsvdClear] using hr
  subst hr
  rw [fields_of_command plane op i (by simpa [CmdFields.planeAllowed] using hp) hc]
  rfl

/-! ## Register accesses -/

/-- The accesses that get a step: 4 bytes, at a multiple of 4 from REG_BASE, inside the window (R53). -/
theorem windowOffset_ok (s : State) (addr bytes off : Nat) :
    windowOffset s addr bytes = .ok off ↔
      addr = s.params.regBase + off ∧ off < 0x80 ∧ bytes = 4 ∧ off % 4 = 0 := by
  unfold windowOffset
  split
  · next h =>
    constructor
    · intro h'
      cases h'
    · rintro ⟨h1, h2, -, -⟩
      omega
  · next h =>
    split
    · next h' =>
      constructor
      · intro h1
        injection h1 with h1
        omega
      · rintro ⟨h1, -, -, -⟩
        congr 1
        omega
    · next h' =>
      constructor
      · intro h1
        cases h1
      · rintro ⟨h1, -, h3, h4⟩
        exact absurd ⟨h3, by rw [h1]; omega⟩ h'

/-! ## Moves -/

theorem hostMayTouch_next (s k t : State) (a : Nat) (h : hostMayTouch s a k = .next t) :
    a < s.params.memBytes ∧ ordinary s [⟨a, 1⟩] = true ∧ ownedByEngine s a = false ∧ t = k := by
  unfold hostMayTouch at h
  split at h
  · cases h
  · split at h
    · cases h
    · split at h
      · cases h
      · injection h with h
        simp_all

/-- What a host move that gets a step does: it only records something or moves on in its script; or it writes a register
of the window; or it writes one byte of M the engine does not own; or it resets the block. -/
theorem hostMove_next (s t : State) (mv : HostMove) (h : hostMove s mv = .next t) :
    (t = { s with script := t.script, observed := t.observed }) ∨
    (∃ off d, mv = .busWrite (s.params.regBase + off) 4 d ∧ off < 0x80 ∧ off % 4 = 0 ∧ t = writeOffset s off d) ∨
    (∃ a b rest, mv = .fill a (b :: rest) ∧ a < s.params.memBytes ∧ ownedByEngine s a = false ∧
      t = { s with mem := s.mem.write a b, script := t.script }) ∨
    (mv = .reset ∧ t = (abandonCommand s).resetRegisters) := by
  cases mv with
  | busRead addr bytes =>
    simp only [hostMove, hostRead] at h
    split at h
    · injection h with h
      subst h
      exact .inl rfl
    · cases h
  | busWrite addr bytes d =>
    simp only [hostMove, hostWrite] at h
    split at h
    · next off ho =>
      injection h with h
      obtain ⟨h1, h2, h3, h4⟩ := (windowOffset_ok s addr bytes off).1 ho
      exact .inr (.inl ⟨off, d, by rw [h1, h3], h2, h4, h.symm⟩)
    · cases h
  | wait =>
    simp only [hostMove, hostWait] at h
    injection h with h
    subst h
    left
    split <;> rfl
  | fill a data =>
    cases data with
    | nil =>
      simp only [hostMove, hostFill] at h
      injection h with h
      subst h
      exact .inl rfl
    | cons b rest =>
      simp only [hostMove, hostFill] at h
      obtain ⟨h1, -, h3, h4⟩ := hostMayTouch_next _ _ _ _ h
      exact .inr (.inr (.inl ⟨a, b, rest, rfl, h1, h3, by rw [h4]⟩))
  | memRead a =>
    simp only [hostMove, hostMemRead] at h
    obtain ⟨-, -, -, h4⟩ := hostMayTouch_next _ _ _ _ h
    subst h4
    exact .inl rfl
  | check l r v =>
    simp only [hostMove, hostCheck] at h
    injection h with h
    subst h
    exact .inl rfl
  | reset =>
    simp only [hostMove, hostReset] at h
    split at h
    · injection h with h
      exact .inr (.inr (.inr ⟨rfl, h.symm⟩))
    · cases h

/-! ## Steps -/

/-- What a step that gives a next state does. -/
theorem step_next (s t : State) (h : step s = .next t) :
    (s.mover = .engine ∧ s.pending = none ∧ t = s.tick) ∨
    (∃ w i, s.mover = .engine ∧ s.pending = some w ∧ decode w = .ok i ∧ exec i s.tick = .next t) ∨
    (∃ w e, s.mover = .engine ∧ s.pending = some w ∧ decode w = .error e ∧ t = s.tick.raise .illegalCmd) ∨
    (s.mover = .host ∧ s.script = [] ∧ t = s.tick) ∨
    (∃ mv rest, s.mover = .host ∧ s.script = mv :: rest ∧
      hostMove { s.tick with script := rest } mv = .next t) := by
  unfold step at h
  split at h
  · next hm =>
    simp only [engineStep, State.tick_pending] at h
    split at h
    · next hp =>
      injection h with h
      exact .inl ⟨hm, hp, h.symm⟩
    · next w hp =>
      split at h
      · next i hd => exact .inr (.inl ⟨w, i, hm, hp, hd, h⟩)
      · next e hd =>
        injection h with h
        exact .inr (.inr (.inl ⟨w, e, hm, hp, hd, h.symm⟩))
  · next hm =>
    simp only [hostStep, State.tick_script] at h
    split at h
    · next hs =>
      injection h with h
      exact .inr (.inr (.inr (.inl ⟨hm, hs, h.symm⟩)))
    · next mv rest hs => exact .inr (.inr (.inr (.inr ⟨mv, rest, hm, hs, h⟩)))

/-! ## Reset of a running command -/

theorem scrambleWindow_eq (s : State) (w : Window) :
    scrambleWindow s w = { s with mem := (scrambleWindow s w).mem, draws := (scrambleWindow s w).draws } := rfl

/-- Abandoning a command changes M and the draw counter only. -/
theorem abandon_eq (ws : List Window) (s : State) :
    ws.foldl scrambleWindow s =
      { s with mem := (ws.foldl scrambleWindow s).mem, draws := (ws.foldl scrambleWindow s).draws } := by
  induction ws generalizing s with
  | nil => rfl
  | cons w ws ih =>
    simp only [List.foldl_cons]
    rw [ih (scrambleWindow s w)]
    rfl

@[simp] theorem freeBytes_length (d n : Nat) : (freeBytes d n).length = n := by
  simp [freeBytes]

/-- A scrambled window's existing bytes are draws not made before; every other byte is as it was (R159). -/
theorem read_scrambleWindow (s : State) (w : Window) (a : Nat) :
    (w.base ≤ a ∧ a < w.base + w.size ∧ a < s.params.memBytes →
      ∃ k, s.draws ≤ k ∧ k < (scrambleWindow s w).draws ∧
        Memory.read (scrambleWindow s w).mem a = Config.freeByte k) ∧
    (¬ (w.base ≤ a ∧ a < w.base + w.size) → Memory.read (scrambleWindow s w).mem a = Memory.read s.mem a) := by
  have hlen : existing w s.params.memBytes = min w.size (s.params.memBytes - w.base) := rfl
  constructor
  · rintro ⟨h1, h2, h3⟩
    refine ⟨s.draws + (a - w.base), by omega, ?_, ?_⟩
    · simp only [scrambleWindow]
      omega
    · simp only [scrambleWindow]
      rw [Memory.read_writeRange, dif_pos (by rw [freeBytes_length]; omega)]
      simp [freeBytes]
  · intro h
    simp only [scrambleWindow]
    rw [Memory.read_writeRange, dif_neg (by rw [freeBytes_length]; omega)]

theorem wf_scrambleWindow (s : State) (w : Window) (h : Memory.wf s.mem = true) :
    Memory.wf (scrambleWindow s w).mem = true := Memory.wf_writeRange _ _ _ h

theorem within_scrambleWindow (s : State) (w : Window) (h : Memory.within s.mem s.params.memBytes = true) :
    Memory.within (scrambleWindow s w).mem s.params.memBytes = true := by
  have hlen : existing w s.params.memBytes = min w.size (s.params.memBytes - w.base) := rfl
  by_cases hb : w.base ≤ s.params.memBytes
  · refine Memory.within_writeRange _ _ _ _ h ?_
    rw [freeBytes_length]
    omega
  · have h0 : existing w s.params.memBytes = 0 := by omega
    simp only [scrambleWindow, h0, freeBytes, List.range_zero, List.map_nil, Memory.writeRange, Memory.cells,
      List.nil_append]
    rw [Memory.within_iff] at h ⊢
    intro c hc
    rcases List.mem_append.1 hc with hc | hc
    · exact h c (List.mem_filter.1 hc).1
    · exact h c (List.mem_filter.1 hc).1

end Sys2Proof.Machine
end

