-- ==== Sys2Proof/Laws/PerInstr.lean ====
section
/-! SUPPORT. Per command: its fields are well formed and name the command (R68 … R72). -/

namespace Sys2Proof.Laws.WordFields

/-- The fields of the command's word pass every check of WellFormed, and OP and PLANE name that command. -/
def Statement (i : Sys2Proof.Instr) : Prop := i.fields.wf = true ∧ i.fields.command = some i

theorem geom : Statement .geom := by unfold Statement; decide
theorem detileY : Statement .detileY := by unfold Statement; decide
theorem detileUV : Statement .detileUV := by unfold Statement; decide
theorem crop : Statement .crop := by unfold Statement; decide
theorem planar : Statement .planar := by unfold Statement; decide
theorem frame : Statement .frame := by unfold Statement; decide

end Sys2Proof.Laws.WordFields
end

