-- ==== Sys2Proof/Tests/Slice0.lean ====
section
/-! SUPPORT. The model's own tests: ill-formed words, words written out from the encoding tables, single steps against spec/95_test_vectors.md, and for every statement with hypotheses a state that meets them. -/

open Sys2Proof Sys2Proof.Machine Sys2Proof.Claims

namespace Sys2Proof.Tests

-- One kernel evaluation at a time: side by side they ask for more stacks than the memory limit allows.
set_option Elab.async false

/-! ## Well-formedness and decoding -/

theorem test_wf_refuses_rsvd : CmdFields.wf { rsvd := 1, plane := 0, op := 1 } = false := by decide
theorem test_wf_refuses_plane : CmdFields.wf { rsvd := 0, plane := 1, op := 3 } = false := by decide
theorem test_wf_refuses_op_zero : CmdFields.wf { rsvd := 0, plane := 0, op := 0 } = false := by decide
theorem test_wf_refuses_op_six : CmdFields.wf { rsvd := 0, plane := 0, op := 6 } = false := by decide
theorem test_wf_accepts_detile_uv : CmdFields.wf { rsvd := 0, plane := 1, op := 2 } = true := by decide

-- R68 … R72: RSVD[31:5], PLANE[4], OP[3:0], bit by bit.
theorem test_decode_geom : decode 0b000000000000000000000000000_0_0001 = .ok .geom := by rfl
theorem test_decode_detileY : decode 0b000000000000000000000000000_0_0010 = .ok .detileY := by rfl
theorem test_decode_detileUV : decode 0b000000000000000000000000000_1_0010 = .ok .detileUV := by rfl
theorem test_decode_crop : decode 0b000000000000000000000000000_0_0011 = .ok .crop := by rfl
theorem test_decode_planar : decode 0b000000000000000000000000000_0_0100 = .ok .planar := by rfl
theorem test_decode_frame : decode 0b000000000000000000000000000_0_0101 = .ok .frame := by rfl
-- V2.106 … V2.110: the reserved words.
theorem test_decode_reserved :
    decode 0x00000000 = .error .reservedOp ∧ decode 0x00000013 = .error .planeWithoutDetile ∧
    decode 0x00000022 = .error .rsvdSet ∧ decode 0x20000001 = .error .rsvdSet ∧
    decode 0x00000006 = .error .reservedOp := ⟨rfl, rfl, rfl, rfl, rfl⟩
theorem test_table_numbering : decodeTableWord 32 0x12 = some .detileUV ∧ decodeTableWord 32 0x32 = none := ⟨rfl, rfl⟩

/-! ## Small states -/

/-- An idle block with 64 KiB of memory and a valid descriptor of this width and height. -/
def ready (w h : Nat) : State :=
  { State.reset with
    width := BitVec.ofNat 16 w, height := BitVec.ofNat 16 h, geomValid := true, g := describe w h
    srcAddr := 0, dstAddr := 0x4000, scrAddr := 0x6000
    params := { memBytes := 0x10000, maxDim := 8192, regBase := 0, devices := [] } }

/-- 3×3 (V2.14): SRC_WIN 0x4000 bytes, DST_WIN 4480 bytes, SCR_WIN 13 bytes. -/
def demo : State := ready 3 3

/-- The host has these moves to make, and no turn is named. -/
def hosting (s : State) (moves : List HostMove) : State := { s with script := moves }

/-- A command is pending and it is the host's turn. -/
def meanwhile (s : State) (w : Word) (moves : List HostMove) : State :=
  { s.issue w with script := moves, turns := [.host] }

/-- The outcome is a next state of which this holds. -/
def gives (o : Host.Outcome State Fault Refusal) (p : State → Bool) : Bool :=
  match o with
  | .next t => p t
  | .fault _ => false
  | .refused _ => false

theorem gives_next (o : Host.Outcome State Fault Refusal) (p : State → Bool) (h : gives o p = true) :
    ∃ t, o = .next t ∧ p t = true := by
  cases o with
  | next t => exact ⟨t, rfl, h⟩
  | fault _ => cases h
  | refused _ => cases h

/-! ## One command each, against the vectors -/

-- V2.4: 1920×1080.
theorem test_geom_1080 :
    gives (exec .geom { ready 1 1 with width := 1920, height := 1080, geomValid := false }) (fun t =>
      t.g == ⟨1920, 1080, 1920, 1088, 30, 34, 17, 2088960, 1048576, 3137536, 3110400, 1620, 2073600, 518400,
        2073600, 3118080⟩ && statusWord t == 0xA) = true := by decide +kernel
-- V2.21: a width above MAX_DIM.
theorem test_geom_too_wide :
    gives (exec .geom { demo with width := 8193, height := 1 }) (fun t =>
      t.g == Descriptor.zero && statusWord t == 0x204) = true := by decide +kernel

-- V2.32, V2.36: tile positions.
theorem test_tilePos : (List.range 8).map (tilePos 4 2) =
    [(0, 0), (0, 1), (1, 0), (1, 1), (1, 2), (1, 3), (0, 2), (0, 3)] := by decide
theorem test_tilePos_two_pairs : [10, 12, 14, 20, 23, 24, 29].map (tilePos 6 5) =
    [(1, 4), (2, 0), (3, 0), (2, 4), (3, 5), (4, 0), (4, 5)] := by decide

/-- What a command that passes its checks answers; the tests of whole planes read its memory by the laws, since a plane is thousands of bytes. -/
theorem completes (i : Instr) (s : State) (hi : i ≠ .geom) (h : windowError s i = none)
    (ho : ordinary s (usedWindows s i) = true) :
    exec i s = .next { s with mem := commandBody i s s.mem }.complete := by
  rw [exec_eq_runCommand i s hi, runCommand_success i _ s h ho]

/-- 128×32 (V2.49): the byte of row 5 and column 64 + 7 of the luma plane is byte 7 of row 5 of stream tile 1, and byte 127 of row 31 of the chroma
plane is byte 63 of row 31 of chroma tile 1. -/
def twoTiles : State := { ready 128 32 with mem := [(2048 + 5 * 64 + 7, 0xA5), (8192 + 2048 + 31 * 64 + 63, 0xC3)] }

-- V2.49: the second luma tile of 128×32 starts at column 64.
theorem test_detileY_row :
    ∃ t, exec .detileY twoTiles = .next t ∧ t.mem.read (0x4000 + 5 * 128 + 64 + 7) = 0xA5 ∧ statusWord t = 0xA := by
  have f := State.Inv_facts twoTiles (by decide +kernel) rfl
  have h := (read_detileYBody twoTiles twoTiles.mem f (by decide +kernel)).1 0 1 5 7
    (by decide +kernel) (by decide +kernel) (by decide) (by decide)
  exact ⟨_, completes _ _ (by decide) (by decide +kernel) (by decide +kernel), h.trans (by decide +kernel), by decide +kernel⟩
-- V2.114: BOUNDS goes before OVERLAP.
theorem test_detileY_bounds_first :
    gives (exec .detileY { ready 128 32 with srcAddr := 0xC001, dstAddr := 0xE000 }) (fun t =>
      statusWord t == 0x40C) = true := by decide +kernel
-- V2.49: the chroma tiles follow the padded luma plane, and go to G_UV_OFFSET.
theorem test_detileUV_row :
    ∃ t, exec .detileUV twoTiles = .next t ∧ t.mem.read (0x4000 + 4096 + 31 * 128 + 127) = 0xC3 ∧ statusWord t = 0xA := by
  have f := State.Inv_facts twoTiles (by decide +kernel) rfl
  have h := (read_detileUVBody twoTiles twoTiles.mem f (by decide +kernel)).1 0 1 31 63
    (by decide +kernel) (by decide +kernel) (by decide) (by decide)
  exact ⟨_, completes _ _ (by decide) (by decide +kernel) (by decide +kernel), h.trans (by decide +kernel), by decide +kernel⟩
-- V2.48: at height 1 there is no chroma tile.
theorem test_detileUV_empty :
    gives (exec .detileUV { ready 1 1 with mem := [(8192, 0xA5)] }) (fun t =>
      t.mem == [(8192, 0xA5)] && statusWord t == 0xA) = true := by decide +kernel
-- V2.59: 1×32 takes one byte of each row.
theorem test_crop_column :
    gives (exec .crop { ready 1 32 with mem := [(0x4000 + 128, 1), (0x4000 + 128 * 47, 47)] }) (fun t =>
      t.mem.read 0x4001 == 1 && t.mem.read (0x4000 + 47) == 47 && t.mem.read 0x4080 == 1) = true := by decide +kernel
-- V2.118: CROP has no overlap check.
theorem test_crop_no_overlap_check :
    gives (exec .crop { ready 128 32 with dstAddr := 0 }) (fun t => statusWord t == 0xA) = true := by decide +kernel
-- V2.66: 3×3. The frame 0, 1, …, 12: luma and the outer chroma samples stay, samples 10 and 11 change places; SCR holds the frame.
theorem test_planar_small :
    gives (exec .planar { demo with mem := Memory.cells 0x4000 [0, 1, 2, 3, 4, 5, 6, 7, 8, 9, 10, 11, 12] }) (fun t =>
      t.mem == Memory.cells 0x4000 [0, 1, 2, 3, 4, 5, 6, 7, 8, 9, 11, 10, 12] ++
        Memory.cells 0x6000 [0, 1, 2, 3, 4, 5, 6, 7, 8, 9, 10, 11, 12]) = true := by decide +kernel
-- V2.71: the scratch window in the destination.
theorem test_planar_overlap :
    gives (exec .planar { demo with scrAddr := 0x4000 + 100 }) (fun t =>
      statusWord t == 0x50C && t.mem == []) = true := by decide +kernel

/-- 1×1, planar, Src[0] = 0x77 (V2.78). -/
def oneSample : State := { ready 1 1 with layout := 1, mem := [(0, 0x77)] }

-- V2.78: the one sample stands in DST and in SCR.
theorem test_frame_one_sample :
    ∃ t, exec .frame oneSample = .next t ∧ t.mem.read 0x4000 = 0x77 ∧ t.mem.read 0x6000 = 0x77 ∧ statusWord t = 0xA := by
  have f := State.Inv_facts oneSample (by decide +kernel) rfl
  have ho : overlap oneSample.srcWin oneSample.dstWin = false := by decide +kernel
  let y := detileYBody oneSample oneSample.mem
  have h1 : Memory.read y 0x4000 = 0x77 :=
    ((read_detileYBody oneSample oneSample.mem f ho).1 0 0 0 0 (by decide +kernel) (by decide +kernel) (by decide)
      (by decide)).trans (by decide +kernel)
  have h2 : Memory.read (detileUVBody oneSample y) 0x4000 = 0x77 :=
    ((read_detileUVBody oneSample y f ho).2 0x4000 (by decide +kernel)).trans h1
  have h3 : Memory.read (cropBody oneSample (detileUVBody oneSample y)) 0x4000 = 0x77 :=
    ((read_cropBody oneSample (detileUVBody oneSample y) f).1 0 0 (by decide +kernel) (by decide +kernel)).trans h2
  have h4 := read_planarBody oneSample (cropBody oneSample (detileUVBody oneSample y)) f.planesFit
    (scr_dst_disjoint oneSample f (by decide +kernel))
  have hb : commandBody .frame oneSample oneSample.mem = planarBody oneSample (cropBody oneSample (detileUVBody oneSample y)) := by
    have hp : oneSample.planarOutput = true := by decide +kernel
    simp only [commandBody, frameBody, hp, if_true, y]
  rw [completes _ oneSample (by decide) (by decide +kernel) (by decide +kernel), hb]
  have h5 := (h4.1 0 (by decide +kernel)).trans h3
  rw [show oneSample.scrAddr.toNat + 0 = 0x6000 from by decide +kernel] at h5
  exact ⟨_, rfl, (h4.2.2.2 0x4000 (by decide +kernel) (by decide +kernel)).trans h3, h5, by decide +kernel⟩
-- V2.116: BOUNDS of the scratch window.
theorem test_frame_scratch_bounds :
    gives (exec .frame { ready 128 32 with dstAddr := 0xE000, scrAddr := 0xFFFF, layout := 1 }) (fun t =>
      statusWord t == 0x40C) = true := by decide +kernel

/-! ## Registers, against the vectors -/

-- V2.94, V2.96: STATUS is write-1-to-clear.
theorem test_status_w1c :
    statusWord (writeOffset { demo with done := true } 0x20 0xF) = 0x8 ∧
    statusWord (writeOffset { demo with err := true, errcode := 5 } 0x20 0x2) = 0x50C ∧
    statusWord (writeOffset { demo with err := true, errcode := 5 } 0x20 0x4) = 0x8 := by decide +kernel
-- V2.89, V2.90: reserved bits ignore writes.
theorem test_reserved_bits :
    readOffset (writeOffset demo 0x0C 0xFFFFFFFF) 0x0C = 1 ∧
    readOffset (writeOffset demo 0x04 0x12345678) 0x04 = 0x5678 ∧
    (writeOffset demo 0x04 0x12345678).geomValid = false := by decide +kernel
-- V2.97, V2.99, V2.98: writes while busy.
theorem test_busy_writes :
    (writeOffset (demo.issue 3) 0x04 64).wbusy = true ∧ (writeOffset (demo.issue 3) 0x04 64).width = 3 ∧
    (writeOffset (demo.issue 3) 0x1C 5).pending = some 3 ∧
    (writeOffset (writeOffset (demo.issue 3) 0x1C 5) 0x20 0x10).wbusy = false := by decide +kernel
-- V2.85 … V2.88, V2.93: ID, CMD and the reserved offsets.
theorem test_fixed_reads :
    readOffset State.reset 0x00 = 0x4E563132 ∧ readOffset demo 0x1C = 0 ∧ readOffset demo 0x24 = 0 ∧
    readOffset demo 0x3C = 0 ∧ writeOffset demo 0x30 0xFFFFFFFF = demo ∧ writeOffset demo 0x40 5 = demo := by
  decide +kernel
-- V2.101: an 8-bit read of STATUS.
theorem test_narrow_read : step (hosting demo [.busRead 0x20 1]) = .refused .accessForm := by rfl
-- A read below the window (log 9).
theorem test_outside_window :
    step (hosting { demo with params := { demo.params with regBase := 0x100 } } [.busRead 0xFC 4])
      = .refused .outsideRegisterWindow := by rfl

/-! ## Hypotheses that can be met, statement by statement -/

/-- A legal word and an illegal one, pending. -/
theorem witness_DecodeAcceptsExactlyTheSixWords :
    (demo.issue 5).pending = some 5 ∧ decode 5 = .ok .frame ∧ (demo.issue 6).pending = some 6 ∧
    decode 6 = .error .reservedOp ∧
    (6 : Word) ∉ [0x00000001, 0x00000002, 0x00000012, 0x00000003, 0x00000004, 0x00000005] :=
  ⟨rfl, rfl, rfl, rfl, by decide⟩

theorem witness_StepRunsThePendingCommand :
    (demo.issue 3).mover = .engine ∧ (demo.issue 3).pending = some 3 ∧ decode 3 = .ok .crop ∧
    demo.mover = .host ∧ (meanwhile demo 3 []).mover = .host ∧ demo.turns = [] ∧
    (meanwhile demo 3 []).turns = .host :: [] := ⟨rfl, rfl, rfl, rfl, rfl, rfl, rfl⟩

theorem witness_PlacedWordRunsNext : decode 0x00000012 = .ok .detileUV ∧ decode 0x00000005 = .ok .frame := ⟨rfl, rfl⟩

theorem witness_IllegalWordOnlyReportsIllegalCmd :
    (demo.issue 0x13).mover = .engine ∧ (demo.issue 0x13).pending = some 0x13 ∧
    (0x13 : Word) ∉ [0x00000001, 0x00000002, 0x00000012, 0x00000003, 0x00000004, 0x00000005] :=
  ⟨rfl, rfl, by decide⟩

theorem witness_EndedMachineStaysAsItIs : demo.Inv = true ∧ demo.ended = true := by decide +kernel

/-- Both sides of each bound of R96. -/
theorem witness_GeomLatchesOrRejects :
    demo.params.maxDim ≤ 16384 ∧
    (let rejects := fun s : State =>
      s.width.toNat = 0 ∨ s.height.toNat = 0 ∨ s.params.maxDim < s.width.toNat ∨ s.params.maxDim < s.height.toNat
    rejects { demo with width := 0 } ∧ rejects { demo with height := 0 } ∧ rejects { demo with width := 8193 } ∧
    rejects { demo with height := 8193 } ∧ ¬ rejects (ready 1 1) ∧ ¬ rejects (ready 8192 8192)) := by decide +kernel

theorem witness_GeomResultHasTheDerivedFacts :
    demo.params.maxDim ≤ 16384 ∧ ∃ t, exec .geom demo = .next t ∧ t.geomValid = true :=
  ⟨by decide +kernel, gives_next _ _ (by decide +kernel)⟩

theorem witness_GeomResultFitsItsRegisters :
    let s := { ready 16384 16384 with params := { memBytes := 2 ^ 32, maxDim := 16384, regBase := 0, devices := [] } }
    s.params.maxDim ≤ 16384 ∧ s.width.toNat = 16384 ∧ s.height.toNat = 16384 ∧
      ∃ t, exec .geom s = .next t ∧ t.geomValid = true :=
  ⟨by decide +kernel, by decide +kernel, by decide +kernel, gives_next _ _ (by decide +kernel)⟩

/-- Two states alike in what GEOM reads, unlike in M. -/
theorem witness_GeomIsPure :
    (∃ t, exec .geom demo = .next t ∧ t.done = true) ∧
    ∃ v, exec .geom { demo with mem := [(5, 1)], dstAddr := 9 } = .next v ∧ v.done = true :=
  ⟨gives_next _ (·.done) (by decide +kernel), gives_next _ (·.done) (by decide +kernel)⟩

/-- A failed GEOM; without a descriptor, a step that keeps GEOM_VALID 0 and a GEOM that ends it. -/
theorem witness_FailedGeomLeavesNoDescriptor :
    (∃ t, exec .geom { demo with height := 0 } = .next t ∧ t.err = true) ∧ Instr.frame ≠ .geom ∧
    (let s := { demo with geomValid := false };
      s.geomValid = false ∧ (∃ t, step (s.issue 3) = .next t ∧ (!t.geomValid) = true) ∧
      ∃ t, step (s.issue 1) = .next t ∧ t.geomValid = true) :=
  ⟨gives_next _ (·.err) (by decide +kernel), by decide, rfl, gives_next _ (fun t => !t.geomValid) (by decide +kernel),
    gives_next _ (·.geomValid) (by decide +kernel)⟩

/-- The last Z step of the last pair, in both orientations, and the last tile of a remainder row. -/
theorem witness_TileOrderIsTheZScan :
    6 % 2 = 0 ∧ 1 < 5 / 2 ∧ 2 < 6 / 2 ∧ 2 % 2 = 0 ∧ 1 < 6 / 2 ∧ 1 % 2 = 1 ∧ 5 % 2 = 1 ∧ 5 < 6 := by decide

theorem witness_TileOrderIsABijection :
    6 % 2 = 0 ∧ 29 < 6 * 5 ∧ 0 < 6 * 5 ∧ 4 < 5 ∧ 5 < 6 ∧ tilePos 6 5 29 = tilePos 6 5 29 := by decide

/-- No descriptor. -/
def noGeometry : State := { demo with geomValid := false }

/-- Each clause of DETILE, at the edge of its window: SRC_WIN and DST_WIN one byte too far, exactly at MEM_BYTES, one byte in common, none. -/
theorem witness_DetilePlacesEveryTile :
    (noGeometry.Inv = true ∧ noGeometry.geomValid = false) ∧
    (let s := { demo with srcAddr := 0xC001 };
      s.Inv = true ∧ s.geomValid = true ∧ endsBeyondM s s.srcWin = true) ∧
    (let s := { demo with dstAddr := 0xEE81 };
      s.Inv = true ∧ s.geomValid = true ∧ endsBeyondM s s.dstWin = true) ∧
    (let s := { demo with dstAddr := 0x3FFF };
      s.Inv = true ∧ s.geomValid = true ∧ endsBeyondM s s.srcWin = false ∧ endsBeyondM s s.dstWin = false ∧
      overlap s.srcWin s.dstWin = true) ∧
    (let s := { demo with dstAddr := 0xEE80 };
      s.Inv = true ∧ s.geomValid = true ∧ endsBeyondM s s.srcWin = false ∧ endsBeyondM s s.dstWin = false ∧
      overlap s.srcWin s.dstWin = false ∧ ordinary s [s.srcWin, s.dstWin] = true) := by decide +kernel

/-- The 2×1 tiles of either plane of 3×3, whatever their bytes are, are the re-tiled raster R of those bytes. -/
theorem witness_DetileRestoresARetiledRaster :
    (demo.Inv = true ∧ demo.geomValid = true ∧ endsBeyondM demo demo.srcWin = false ∧
      endsBeyondM demo demo.dstWin = false ∧ overlap demo.srcWin demo.dstWin = false ∧
      ordinary demo [demo.srcWin, demo.dstWin] = true) ∧
    (demo.g.wTiles.toNat = 2 ∧ demo.g.hTiles.toNat = 1 ∧ demo.g.hTilesC.toNat = 1) ∧
    ∀ base, ∃ R : Nat → Nat → Byte, ∀ n y x, n < 2 * 1 → y < 32 → x < 64 →
      demo.mem.read (base + n * 2048 + y * 64 + x) = R ((tilePos 2 1 n).1 * 32 + y) ((tilePos 2 1 n).2 * 64 + x) := by
  refine ⟨by decide +kernel, by decide +kernel,
    fun base => ⟨fun r c => demo.mem.read (base + c / 64 * 2048 + r * 64 + c % 64), fun n y x hn hy hx => ?_⟩⟩
  have hpos : tilePos 2 1 n = (0, n) := by
    obtain rfl | rfl : n = 0 ∨ n = 1 := by omega
    · rfl
    · rfl
  have hcol : (n * 64 + x) / 64 = n ∧ (n * 64 + x) % 64 = x := by omega
  simp only [hpos, hcol, Nat.zero_mul, Nat.zero_add]

/-- Two memories that differ in the luma padding, and two that differ in the first luma byte, which DETILE.UV does not read. -/
theorem witness_DetileReadsOnlyThePlanesTiles :
    (demo.Inv = true ∧ ({ demo with mem := [(0x1000, 1)] } : State).Inv = true ∧
      ({ demo with mem := [(0, 1)] } : State).Inv = true) ∧
    sameButMemory demo { demo with mem := [(0x1000, 1)] } ∧
    (∀ a, demo.srcAddr.toNat ≤ a → a < demo.srcAddr.toNat + demo.g.wTiles.toNat * demo.g.hTiles.toNat * 2048 →
      Memory.read [(0x1000, 1)] a = demo.mem.read a) ∧
    (∀ a, demo.srcAddr.toNat + demo.g.lumaBytes.toNat ≤ a →
      a < demo.srcAddr.toNat + demo.g.lumaBytes.toNat + demo.g.wTiles.toNat * demo.g.hTilesC.toNat * 2048 →
      Memory.read [(0, 1)] a = demo.mem.read a) ∧
    (∃ t, exec .detileY demo = .next t ∧ (!t.err) = true) ∧
    (∃ v, exec .detileY { demo with mem := [(0x1000, 1)] } = .next v ∧ (!v.err) = true) ∧
    (∃ t, exec .detileUV demo = .next t ∧ (!t.err) = true) ∧
    ∃ v, exec .detileUV { demo with mem := [(0, 1)] } = .next v ∧ (!v.err) = true := by
  refine ⟨by decide +kernel, rfl, fun a h1 h2 => ?_, fun a h1 h2 => ?_, gives_next _ (fun t => !t.err) (by decide +kernel),
    gives_next _ (fun t => !t.err) (by decide +kernel), gives_next _ (fun t => !t.err) (by decide +kernel),
    gives_next _ (fun t => !t.err) (by decide +kernel)⟩
  · have e : demo.srcAddr.toNat + demo.g.wTiles.toNat * demo.g.hTiles.toNat * 2048 = 0x1000 := by decide +kernel
    have hne : ¬ (0x1000 = a) := by omega
    simp only [Memory.read, Memory.lookup, if_neg hne]
    rfl
  · have e : demo.srcAddr.toNat + demo.g.lumaBytes.toNat = 0x2000 := by decide +kernel
    have hne : ¬ (0 = a) := by omega
    simp only [Memory.read, Memory.lookup, if_neg hne]
    rfl

theorem witness_DetileAgainChangesNothing :
    demo.Inv = true ∧ (∃ t, exec .detileY demo = .next t ∧ (!t.err) = true) ∧
    ∃ t, exec .detileUV demo = .next t ∧ (!t.err) = true :=
  ⟨by decide +kernel, gives_next _ (fun t => !t.err) (by decide +kernel), gives_next _ (fun t => !t.err) (by decide +kernel)⟩

/-- Each clause of CROP; rows and columns at their last values; an aligned width. -/
theorem witness_CropCompactsTheRows :
    (noGeometry.Inv = true ∧ noGeometry.geomValid = false) ∧
    (let s := { demo with dstAddr := 0xEE81 };
      s.Inv = true ∧ s.geomValid = true ∧ endsBeyondM s s.dstWin = true) ∧
    (let s := { demo with dstAddr := 0xEE80 };
      s.Inv = true ∧ s.geomValid = true ∧ endsBeyondM s s.dstWin = false ∧ ordinary s [s.dstWin] = true ∧
      3 < s.g.cropRows.toNat ∧ 2 < s.g.width.toNat) ∧
    (let s := ready 128 32;
      s.Inv = true ∧ endsBeyondM s s.dstWin = false ∧ ordinary s [s.dstWin] = true ∧
      s.g.width.toNat = s.g.pWidth.toNat) := by decide +kernel

/-- Each clause of PLANAR at the edges of its windows. -/
theorem witness_PlanarSplitsTheChroma :
    (noGeometry.Inv = true ∧ noGeometry.geomValid = false) ∧
    (let s := { demo with dstAddr := 0xEE81 };
      s.Inv = true ∧ s.geomValid = true ∧ endsBeyondM s s.dstWin = true) ∧
    (let s := { demo with scrAddr := 0xFFF4 };
      s.Inv = true ∧ s.geomValid = true ∧ endsBeyondM s s.scrWin = true) ∧
    (let s := { demo with scrAddr := 0x517F };
      s.Inv = true ∧ s.geomValid = true ∧ endsBeyondM s s.dstWin = false ∧ endsBeyondM s s.scrWin = false ∧
      overlap s.scrWin s.dstWin = true) ∧
    (let s := { demo with scrAddr := 0x5180 };
      s.Inv = true ∧ s.geomValid = true ∧ endsBeyondM s s.dstWin = false ∧ endsBeyondM s s.scrWin = false ∧
      overlap s.scrWin s.dstWin = false ∧ ordinary s [s.dstWin, s.scrWin] = true) ∧
    (let s := { demo with scrAddr := 0xFFF3 };
      s.Inv = true ∧ endsBeyondM s s.scrWin = false ∧ overlap s.scrWin s.dstWin = false) := by decide +kernel

/-- U = 0xA0, 0xA1 and V = 0xB0, 0xB1, interleaved at offset 9. -/
def interleaved : State := { demo with mem := [(0x4009, 0xA0), (0x400A, 0xB0), (0x400B, 0xA1), (0x400C, 0xB1)] }

theorem witness_PlanarUndoesInterleave :
    (interleaved.Inv = true ∧ interleaved.geomValid = true ∧ endsBeyondM interleaved interleaved.dstWin = false ∧
      endsBeyondM interleaved interleaved.scrWin = false ∧ overlap interleaved.scrWin interleaved.dstWin = false ∧
      ordinary interleaved [interleaved.dstWin, interleaved.scrWin] = true) ∧
    ∀ k, k < interleaved.g.chromaLen.toNat →
      interleaved.mem.read (interleaved.dstAddr.toNat + interleaved.g.lumaLen.toNat + 2 * k)
        = (fun k => if k = 0 then (0xA0 : Byte) else 0xA1) k ∧
      interleaved.mem.read (interleaved.dstAddr.toNat + interleaved.g.lumaLen.toNat + 2 * k + 1)
        = (fun k => if k = 0 then (0xB0 : Byte) else 0xB1) k := by decide +kernel

/-- The demo state with planar output. -/
def planarDemo : State := { demo with layout := 1 }

/-- Each clause of FRAME: no descriptor; each window out of bounds, SCR_WIN with LAYOUT = 1 only; each overlap; ready in both layouts. -/
theorem witness_FrameRunsTheUnitsInOrder :
    (noGeometry.Inv = true ∧ noGeometry.geomValid = false) ∧
    (let s := { demo with srcAddr := 0xC001 };
      s.Inv = true ∧ s.geomValid = true ∧ endsBeyondM s s.srcWin = true) ∧
    (let s := { demo with dstAddr := 0xEE81 };
      s.Inv = true ∧ s.geomValid = true ∧ endsBeyondM s s.dstWin = true) ∧
    (let s := { planarDemo with scrAddr := 0xFFF4 };
      s.Inv = true ∧ s.geomValid = true ∧ s.layout = 1 ∧ endsBeyondM s s.scrWin = true) ∧
    (let s := { demo with dstAddr := 0x3FFF, scrAddr := 0xFFF4 };
      s.Inv = true ∧ s.geomValid = true ∧ endsBeyondM s s.srcWin = false ∧ endsBeyondM s s.dstWin = false ∧
      (s.layout = 1 → endsBeyondM s s.scrWin = false) ∧ overlap s.srcWin s.dstWin = true) ∧
    (let s := { planarDemo with scrAddr := 0x517F };
      s.Inv = true ∧ s.geomValid = true ∧ endsBeyondM s s.srcWin = false ∧ endsBeyondM s s.dstWin = false ∧
      (s.layout = 1 → endsBeyondM s s.scrWin = false) ∧ s.layout = 1 ∧ overlap s.scrWin s.dstWin = true) ∧
    (demo.layout = 0 ∧ planarDemo.layout = 1 ∧ demo.Inv = true ∧ planarDemo.Inv = true) ∧
    frameReady demo ∧ frameReady planarDemo := by
  unfold frameReady
  decide +kernel

/-- Every range of R133's closed form, at an odd height: crop output of both planes, and the bytes the crop does not move. -/
theorem witness_FrameOutputInClosedForm :
    ((ready 128 65).Inv = true ∧ (ready 128 65).layout = 0 ∧ frameReady { ready 128 65 with dstAddr := 0x6000 }) ∧
    (let s := ready 128 65;
      12415 < s.g.cropRows.toNat * s.g.width.toNat ∧ ¬ 12416 < s.g.cropRows.toNat * s.g.width.toNat ∧
      12416 < s.g.linearBytes.toNat ∧ ¬ 12416 < s.g.pWidth.toNat * (s.g.height.toNat + 32 * s.g.hTilesC.toNat)) ∧
    (let s := ready 128 1;
      128 < s.g.linearBytes.toNat ∧ 128 < s.g.pWidth.toNat * s.g.pHeight.toNat) ∧
    (let s := ready 130 33;
      6370 < s.g.linearBytes.toNat ∧ s.g.cropRows.toNat * s.g.width.toNat ≤ 6370) ∧
    planarDemo.Inv = true ∧ planarDemo.layout = 1 ∧ frameReady planarDemo := by
  unfold frameReady
  decide +kernel

theorem witness_FrameAgainGivesTheSameOutput :
    (∀ s ∈ [demo, planarDemo], s.Inv = true ∧ frameReady s ∧ (s.layout = 1 → overlap s.scrWin s.srcWin = false) ∧
      s.g.linearBytes.toNat ≤ max (s.g.pWidth.toNat * s.g.pHeight.toNat)
        (s.g.pWidth.toNat * (s.g.height.toNat + 32 * s.g.hTilesC.toNat))) ∧
    (∃ t, exec .frame demo = .next t ∧ t.done = true) ∧ ∃ t, exec .frame planarDemo = .next t ∧ t.done = true := by
  refine ⟨?_, gives_next _ (·.done) (by decide +kernel), gives_next _ (·.done) (by decide +kernel)⟩
  unfold frameReady
  decide +kernel

/-- For each reason R144 orders, a state in which it and every later one apply. -/
theorem witness_FirstErrorIsReported :
    decode 0x13 = .error .planeWithoutDetile ∧ (∃ t, exec .geom demo = .next t ∧ t.done = true) ∧
    (let s := { planarDemo with geomValid := false, srcAddr := 0xFFFF, dstAddr := 0xFFFF, scrAddr := 0xFFFF };
      s.geomValid = false ∧ endsBeyondM s s.srcWin = true ∧ endsBeyondM s s.dstWin = true ∧
      endsBeyondM s s.scrWin = true ∧ overlap s.srcWin s.dstWin = true ∧ overlap s.scrWin s.dstWin = true) ∧
    (∃ t, exec .frame planarDemo = .next t ∧ t.done = true) :=
  ⟨rfl, gives_next _ (·.done) (by decide +kernel), by decide +kernel, gives_next _ (·.done) (by decide +kernel)⟩

theorem witness_CommandsNeedADescriptor : Instr.crop ≠ .geom ∧ noGeometry.geomValid = false := by decide

theorem witness_ErrorsArePrecise :
    (∃ t, exec .crop noGeometry = .next t ∧ t.err = true) ∧ ∃ t, exec .geom { demo with width := 0 } = .next t ∧ t.err = true :=
  ⟨gives_next _ (·.err) (by decide +kernel), gives_next _ (·.err) (by decide +kernel)⟩

theorem witness_CommandsCompleteWithDoneOrError :
    (∃ t, exec .crop demo = .next t ∧ t.done = true) ∧ ∃ t, exec .crop noGeometry = .next t ∧ t.err = true :=
  ⟨gives_next _ (·.done) (by decide +kernel), gives_next _ (·.err) (by decide +kernel)⟩

/-- A device on the last byte of DST_WIN, and one just past it. -/
theorem witness_CommandsStopOnlyOverDevices :
    demo.params.devices = [] ∧
    exec .crop { demo with params := { demo.params with devices := [⟨0x517F, 1⟩] } } = .refused .notOrdinaryMemory ∧
    ∃ t, exec .crop { demo with params := { demo.params with devices := [⟨0x5180, 1⟩] } } = .next t ∧
      (!t.err) = true :=
  ⟨rfl, rfl, gives_next _ (fun t => !t.err) (by decide +kernel)⟩

/-- An address outside the written windows, and a memory that differs there only. -/
theorem witness_CommandsStayInTheirWindows :
    demo.Inv = true ∧ (∃ t, exec .crop demo = .next t ∧ t.done = true) ∧
    (outside (written demo (encode .crop)) 0x3FFF ∧ outside (written demo (encode .crop)) 0x5180) ∧
    sameButMemory demo { demo with mem := [(0x5180, 1)] } ∧
    ∀ a, ¬ outside (owned demo (encode .crop)) a → Memory.read [(0x5180, 1)] a = demo.mem.read a := by
  refine ⟨by decide +kernel, gives_next _ (·.done) (by decide +kernel), ?_, rfl, fun a h => ?_⟩
  · unfold outside
    decide +kernel
  · have hne : ¬ (0x5180 = a) := by
      rintro rfl
      refine h ?_
      unfold outside
      decide +kernel
    simp only [Memory.read, Memory.lookup, if_neg hne]
    rfl

theorem witness_CommandsOnlyMoveBytes :
    interleaved.Inv = true ∧ ∃ t, exec .planar interleaved = .next t ∧ t.done = true :=
  ⟨by decide +kernel, gives_next _ (·.done) (by decide +kernel)⟩

theorem witness_WindowChecksMeanWhatTheySay : 0 < demo.srcWin.size ∧ 0 < demo.scrWin.size := by decide +kernel

/-- The last register, read while a command runs; and a GEOM that changes the descriptor. -/
theorem witness_RegisterReadsHaveNoSideEffect :
    hostTurn (meanwhile demo 3 [.busRead 0x7C 4]) (.busRead (demo.params.regBase + 0x7C) 4) [] ∧
    (let s := { demo with geomValid := false, width := 5 }.issue 1;
      s.busy = true ∧ ∃ t, step s = .next t ∧ (t.g != s.g) = true) :=
  ⟨⟨rfl, rfl⟩, rfl, gives_next _ _ (by decide +kernel)⟩

/-- Idle and busy, at the first and the last offset. -/
theorem witness_RegisterWritesFollowTheTable :
    hostTurn (hosting demo [.busWrite 0x7C 4 1]) (.busWrite (demo.params.regBase + 0x7C) 4 1) [] ∧ demo.busy = false ∧
    hostTurn (meanwhile demo 3 [.busWrite 0 4 1]) (.busWrite (demo.params.regBase + 0) 4 1) [] ∧
    (meanwhile demo 3 []).busy = true ∧ 0x7C < 0x80 ∧ 0x7C % 4 = 0 := ⟨⟨rfl, rfl⟩, rfl, ⟨rfl, rfl⟩, rfl, by decide, rfl⟩

theorem witness_OtherRegisterAccessesAreRefused :
    ¬ (8 = 4 ∧ 0x20 % 4 = 0) ∧ ¬ (4 = 4 ∧ 0x7F % 4 = 0) ∧
    hostTurn (hosting demo [.busRead 0x7F 4]) (.busRead (demo.params.regBase + 0x7F) 4) [] ∧
    hostTurn (hosting demo [.busWrite 0x20 8 0]) (.busWrite (demo.params.regBase + 0x20) 8 0) [] :=
  ⟨by decide, by decide, ⟨rfl, rfl⟩, ⟨rfl, rfl⟩⟩

theorem witness_CommandLinesIssueTheirWord :
    demo.busy = false ∧
    hostTurn (hosting demo [.busWrite 0x1C 4 0x12]) (lineMove demo.params (.wr .cmd 0x12)) [] := ⟨rfl, rfl, rfl⟩

/-- A run with a step of each agent. -/
theorem witness_EveryStepKeepsTheInvariant :
    (demo.issue 3).Inv = true ∧ (∃ t, step (demo.issue 3) = .next t ∧ t.done = true) ∧
    (hosting demo [.busWrite 0x1C 4 3]).Inv = true ∧
    ∃ t, step (hosting demo [.busWrite 0x1C 4 3]) = .next t ∧ t.busy = true :=
  ⟨by decide +kernel, gives_next _ (·.done) (by decide +kernel), by decide +kernel, gives_next _ (·.busy) (by decide +kernel)⟩

/-- BUSY stays 1 over a register read, and ends by completion and by reset. -/
theorem witness_BusyEndsOnlyByCompletionOrReset :
    ((meanwhile demo 3 [.busRead 0x20 4]).Inv = true ∧ (meanwhile demo 3 [.reset]).Inv = true) ∧
    (∃ t, step (meanwhile demo 3 [.busRead 0x20 4]) = .next t ∧ t.busy = true) ∧
    (∃ t, step (demo.issue 3) = .next t ∧ (!t.busy) = true) ∧
    ∃ t, step (meanwhile demo 1 [.reset]) = .next t ∧ (!t.busy) = true :=
  ⟨by decide +kernel, gives_next _ (·.busy) (by decide +kernel), gives_next _ (fun t => !t.busy) (by decide +kernel),
    gives_next _ (fun t => !t.busy) (by decide +kernel)⟩

/-- GEOM_VALID rises by a GEOM, and falls by a failed GEOM, by a WIDTH write and by a reset. -/
theorem witness_GeomValidFollowsGeom :
    (∃ t, step (noGeometry.issue 1) = .next t ∧ t.geomValid = true) ∧
    (∃ t, step ({ demo with width := 8193 }.issue 1) = .next t ∧ (!t.geomValid) = true) ∧
    (∃ t, step (hosting demo [.busWrite 0x04 4 3]) = .next t ∧ (!t.geomValid) = true) ∧
    ∃ t, step (hosting demo [.reset]) = .next t ∧ (!t.geomValid) = true :=
  ⟨gives_next _ (·.geomValid) (by decide +kernel), gives_next _ (fun t => !t.geomValid) (by decide +kernel),
    gives_next _ (fun t => !t.geomValid) (by decide +kernel), gives_next _ (fun t => !t.geomValid) (by decide +kernel)⟩

theorem witness_WbusyIsSticky :
    (∃ t, exec .crop demo = .next t ∧ t.done = true) ∧
    (∃ t, step (meanwhile demo 3 [.busWrite 0x04 4 9]) = .next t ∧ t.wbusy = true) ∧
    (∃ t, step (hosting { demo with wbusy := true } [.busWrite 0x20 4 0x10]) = .next t ∧ (!t.wbusy) = true) ∧
    ∃ t, step (hosting { demo with wbusy := true } [.reset]) = .next t ∧ (!t.wbusy) = true :=
  ⟨gives_next _ (·.done) (by decide +kernel), gives_next _ (·.wbusy) (by decide +kernel),
    gives_next _ (fun t => !t.wbusy) (by decide +kernel), gives_next _ (fun t => !t.wbusy) (by decide +kernel)⟩

theorem witness_RunningCommandKeepsItsOperands :
    let s := meanwhile demo 3 [.fill 0x3FFF [7]]
    s.Inv = true ∧ s.pending = some 3 ∧ s.mover = .host ∧ (¬ ∃ rest, hostTurn s .reset rest) ∧ s.geomValid = true ∧
      ∃ t, step s = .next t ∧ t.busy = true := by
  refine ⟨by decide +kernel, rfl, rfl, ?_, rfl, gives_next _ (·.busy) (by decide +kernel)⟩
  rintro ⟨rest, -, h⟩
  cases h

/-- The first and the last byte of DST_WIN, owned by a CROP, and the bytes on either side of it; one byte and several; a pending GEOM, and a CROP
without a descriptor, over the same bytes. -/
theorem witness_OwnedBytesAreOutOfTheHostsReach :
    let s := meanwhile demo 3 [.memRead 0x4000]
    (s.Inv = true ∧ s.pending = some 3 ∧ s.geomValid = true ∧ s.params.devices = [] ∧ 0x5180 < s.params.memBytes) ∧
    hostTurn s (.memRead 0x4000) [] ∧
    hostTurn (meanwhile demo 3 [.fill 0x5180 [7]]) (.fill 0x5180 [7]) [] ∧
    hostTurn (meanwhile demo 3 [.fill 0x3FFF [7, 8]]) (.fill 0x3FFF [7, 8]) [] ∧
    hostTurn (meanwhile demo 3 [.fill 0x4000 [8]]) (.fill 0x4000 [8]) [] ∧
    (let u := meanwhile demo 1 [.fill 0x4000 [7, 8]];
      u.Inv = true ∧ u.pending = some 1 ∧ u.geomValid = true ∧ hostTurn u (.fill 0x4000 [7, 8]) [] ∧
      outside (owned u 1) 0x4000) ∧
    (let u := meanwhile { demo with geomValid := false } 3 [.memRead 0x517F];
      u.Inv = true ∧ u.pending = some 3 ∧ u.geomValid = false ∧ hostTurn u (.memRead 0x517F) []) ∧
    (¬ outside (owned s 3) 0x4000 ∧ ¬ outside (owned s 3) 0x517F ∧
      outside (owned s 3) 0x3FFF ∧ outside (owned s 3) 0x5180) := by
  refine ⟨by decide +kernel, ⟨rfl, rfl⟩, ⟨rfl, rfl⟩, ⟨rfl, rfl⟩, ⟨rfl, rfl⟩,
    ⟨by decide +kernel, rfl, rfl, ⟨rfl, rfl⟩, fun w hw => absurd hw List.not_mem_nil⟩,
    ⟨by decide +kernel, rfl, rfl, ⟨rfl, rfl⟩⟩, ?_⟩
  unfold outside
  decide +kernel

/-- The last byte that exists, and the first that does not; FILLs of two bytes, one and none. -/
theorem witness_FillWritesItsBytesInOrder :
    (demo.pending = none ∧ demo.Inv = true ∧ demo.params.devices = []) ∧
    (0xFFFF < demo.params.memBytes ∧ hostTurn (hosting demo [.fill 0xFFFF [1, 2]]) (.fill 0xFFFF [1, 2]) []) ∧
    hostTurn (hosting demo [.fill 0xFFFF [1]]) (.fill 0xFFFF [1]) [] ∧
    hostTurn (hosting demo [.memRead 0xFFFF]) (.memRead 0xFFFF) [] ∧
    hostTurn (hosting demo [.fill 0xFFFF []]) (.fill 0xFFFF []) [] ∧
    demo.params.memBytes ≤ 0x10000 ∧ hostTurn (hosting demo [.memRead 0x10000]) (.memRead 0x10000) [] ∧
    hostTurn (hosting demo [.fill 0x10000 [1]]) (.fill 0x10000 [1]) [] :=
  ⟨by decide +kernel, ⟨by decide +kernel, rfl, rfl⟩, ⟨rfl, rfl⟩, ⟨rfl, rfl⟩, ⟨rfl, rfl⟩, by decide +kernel, ⟨rfl, rfl⟩, ⟨rfl, rfl⟩⟩

theorem witness_ResetRestoresTheRegisters :
    demo.Inv = true ∧ demo.params.devices = [] ∧ hostTurn (hosting demo [.reset]) .reset [] ∧ demo.busy = false :=
  ⟨by decide +kernel, rfl, ⟨rfl, rfl⟩, rfl⟩

theorem witness_ResetStaysInTheBlock :
    demo.Inv = true ∧ hostTurn (hosting demo [.reset]) .reset [] ∧ demo.busy = false ∧
    ∃ t, step (hosting demo [.reset]) = .next t ∧ (!t.geomValid) = true :=
  ⟨by decide +kernel, ⟨rfl, rfl⟩, rfl, gives_next _ (fun t => !t.geomValid) (by decide +kernel)⟩

/-- A running CROP, with a descriptor and without, a running GEOM and an illegal word; the bytes at the edges of the write window. -/
theorem witness_ResetFreesOnlyTheWriteWindows :
    let s := meanwhile demo 3 [.reset]
    (s.Inv = true ∧ s.pending = some 3 ∧ s.geomValid = true) ∧ hostTurn s .reset [] ∧
    (∃ t, step s = .next t ∧ (t.draws == 4480) = true) ∧
    (¬ outside (written s 3) 0x517F ∧ outside (written s 3) 0x5180 ∧ 0x517F < s.params.memBytes) ∧
    (written s 1 = [] ∧ written s 6 = []) ∧
    (let u := meanwhile { demo with geomValid := false } 3 [.reset];
      (u.Inv = true ∧ u.pending = some 3 ∧ u.geomValid = false) ∧ hostTurn u .reset [] ∧
      ∃ t, step u = .next t ∧ (!t.busy) = true) := by
  refine ⟨by decide +kernel, ⟨rfl, rfl⟩, gives_next _ _ (by decide +kernel), ?_, ⟨rfl, rfl⟩,
    by decide +kernel, ⟨rfl, rfl⟩, gives_next _ (fun t => !t.busy) (by decide +kernel)⟩
  unfold outside
  decide +kernel

/-- A WAIT behind a running command, the host asking first. -/
theorem witness_WaitEnds :
    let s := meanwhile demo 3 [.wait, .reset]
    s.Inv = true ∧ s.params.devices = [] ∧ s.script = .wait :: [.reset] := by decide +kernel

theorem witness_ParametersAndIdNeverChange : ∃ t, step (hosting demo [.wait]) = .next t ∧ (!t.busy) = true :=
  gives_next _ (fun t => !t.busy) (by decide +kernel)

theorem witness_OnlyGeomAndResetWriteTheDescriptor :
    let s := { demo with width := 5, geomValid := false }.issue 1
    (∃ t, step s = .next t ∧ (t.g != s.g) = true) ∧
    ∃ t, step (hosting demo [.reset]) = .next t ∧ (t.g != demo.g) = true :=
  ⟨gives_next _ _ (by decide +kernel), gives_next _ _ (by decide +kernel)⟩

/-- Either form of CHECK, and a record in which the last read of STATUS stands under a later read of WIDTH. -/
theorem witness_CheckHasNoBusEffect :
    hostTurn (hosting demo [.check false .status 8]) (lineMove demo.params (.checkReg .status 8)) [] ∧
    hostTurn (hosting demo [.check true .status 8]) (lineMove demo.params (.checkLast .status 8)) [] ∧
    lastRead (regOffset .status) [.reg 0x04 3, .reg 0x20 8, .reg 0x20 1] = some 8 ∧
    lastRead (regOffset .status) [.reg 0x04 3] = none :=
  ⟨⟨rfl, rfl⟩, ⟨rfl, rfl⟩, rfl, rfl⟩

end Sys2Proof.Tests
end

section
/-! PROOF of O52. The platform's parameters (R9) stand in `State.params`, which each operation of the engine and of the host leaves alone; ID is a constant (R21). -/

namespace Sys2Proof.Machine

@[simp] theorem readReg_id (s : State) : readReg s .id = 0x4E563132 := rfl

/-! ## The operations without a `params` lemma yet -/

@[simp] theorem geomLatch_params (s : State) : (geomLatch s).params = s.params := rfl

@[simp] theorem geomReject_params (s : State) : (geomReject s).params = s.params := rfl

/-- Whatever the offset and BUSY, a register write changes registers and flags only (R35). -/
@[simp] theorem writeOffset_params (s : State) (off : Nat) (d : Word) :
    (writeOffset s off d).params = s.params := by
  unfold writeOffset
  split_ifs <;> rfl

@[simp] theorem abandonCommand_params (s : State) : (abandonCommand s).params = s.params := by
  rw [abandonCommand, abandon_eq]

/-! ## Commands, host moves, steps -/

theorem exec_keeps_params {i : Instr} {s t : State} (h : exec i s = .next t) : t.params = s.params := by
  obtain ⟨-, -, rfl⟩ | ⟨-, -, rfl⟩ | ⟨-, e, -, rfl⟩ | ⟨-, -, -, rfl⟩ := exec_next i s t h
  · exact geomLatch_params s
  · exact geomReject_params s
  · exact State.raise_params s e
  · exact State.complete_params _

theorem hostMove_keeps_params {s t : State} {mv : HostMove} (h : hostMove s mv = .next t) :
    t.params = s.params := by
  obtain ht | ⟨off, d, -, -, -, rfl⟩ | ⟨a, b, rest, -, -, -, ht⟩ | ⟨-, rfl⟩ := hostMove_next s t mv h
  · rw [ht]
  · exact writeOffset_params s off d
  · rw [ht]
  · rw [State.resetRegisters_params, abandonCommand_params]

theorem step_keeps_params {s t : State} (h : step s = .next t) : t.params = s.params := by
  obtain ⟨-, -, rfl⟩ | ⟨w, i, -, -, -, hexec⟩ | ⟨w, e, -, -, -, rfl⟩ | ⟨-, -, rfl⟩ | ⟨mv, rest, -, -, hmove⟩ :=
    step_next s t h
  · exact State.tick_params s
  · exact (exec_keeps_params hexec).trans (State.tick_params s)
  · rw [State.raise_params, State.tick_params]
  · exact State.tick_params s
  · exact (hostMove_keeps_params hmove).trans (State.tick_params s)

/-- Settles O52: every move of either agent keeps `params` (R9), and ID reads the same in any state (R21). -/
theorem parametersAndIdNeverChange : Obligations.ParametersAndIdNeverChange := by
  intro s t h
  exact ⟨step_keeps_params h, readReg_id t⟩

end Sys2Proof.Machine
end

section
/-! SUPPORT for the statements of 10_state.md. One inversion of `step` down to the state it answers, and what each operation it names does to the block's record. -/

namespace Sys2Proof.Machine

open Sys2Proof.Claims

/-! ## What a step can answer -/

/-- The states a step from `s` can answer, one case per way to answer; `stepEffect_of_step` ties it to `step`. -/
inductive StepEffect (s : State) : State → Prop
  /-- Only the turn, the host's script and its record move on. -/
  | quiet (script : List HostMove) (observed : List Observation) :
      StepEffect s { s.tick with script := script, observed := observed }
  /-- GEOM on legal dimensions (R95). -/
  | latch (turn : s.mover = .engine) (word : s.pending = some (encode .geom))
      (legal : geomLegal s.params.maxDim s.width.toNat s.height.toNat = true) : StepEffect s (geomLatch s.tick)
  /-- GEOM on illegal dimensions (R96, R97). -/
  | reject (turn : s.mover = .engine) (word : s.pending = some (encode .geom))
      (illegal : geomLegal s.params.maxDim s.width.toNat s.height.toNat = false) : StepEffect s (geomReject s.tick)
  /-- Any other word ends in an error (R138, R146). -/
  | raise (turn : s.mover = .engine) (e : ErrCode) : StepEffect s (s.tick.raise e)
  /-- A command that uses windows passes its checks and completes (R147). -/
  | complete (turn : s.mover = .engine) (i : Instr) (clear : windowError s.tick i = none) :
      StepEffect s { s.tick with mem := commandBody i s.tick s.tick.mem }.complete
  /-- The host writes a register of the window (R35). -/
  | write (off : Nat) (d : Word) (rest : List HostMove)
      (turn : hostTurn s (.busWrite (s.params.regBase + off) 4 d) rest) :
      StepEffect s (writeOffset (moving s rest) off d)
  /-- The host writes a byte of M (R50, R79). -/
  | fill (a : Nat) (b : Byte) (script : List HostMove) (ha : a < s.params.memBytes) :
      StepEffect s { s.tick with mem := s.mem.write a b, script := script }
  /-- The block is reset (R158 … R160). -/
  | reset (rest : List HostMove) (turn : hostTurn s .reset rest) :
      StepEffect s (abandonCommand (moving s rest)).resetRegisters

theorem stepEffect_of_exec {s t : State} {i : Instr} (turn : s.mover = .engine) (word : s.pending = some (encode i))
    (h : exec i s.tick = .next t) : StepEffect s t := by
  obtain ⟨rfl, legal, rfl⟩ | ⟨rfl, illegal, rfl⟩ | ⟨-, e, -, rfl⟩ | ⟨-, clear, -, rfl⟩ := exec_next i s.tick t h
  · exact .latch turn word legal
  · exact .reject turn word illegal
  · exact .raise turn e
  · exact .complete turn i clear

theorem stepEffect_of_hostMove {s t : State} {mv : HostMove} {rest : List HostMove} (turn : hostTurn s mv rest)
    (h : hostMove (moving s rest) mv = .next t) : StepEffect s t := by
  obtain ht | ⟨off, d, rfl, -, -, rfl⟩ | ⟨a, b, more, -, ha, -, ht⟩ | ⟨rfl, rfl⟩ := hostMove_next _ t mv h
  · rw [ht]
    exact .quiet t.script t.observed
  · exact .write off d rest turn
  · rw [ht]
    exact .fill a b t.script ha
  · exact .reset rest turn

theorem stepEffect_of_step {s t : State} (h : step s = .next t) : StepEffect s t := by
  obtain ⟨-, -, rfl⟩ | ⟨w, i, turn, word, hdec, hexec⟩ | ⟨w, e, turn, -, -, rfl⟩ | ⟨-, -, rfl⟩ |
    ⟨mv, rest, turn, hscript, hmove⟩ := step_next s t h
  · exact .quiet s.script s.observed
  · exact stepEffect_of_exec turn (encode_of_decode w i hdec ▸ word) hexec
  · exact .raise turn .illegalCmd
  · exact .quiet s.script s.observed
  · exact stepEffect_of_hostMove ⟨turn, hscript⟩ hmove

/-! ## The host's turn -/

/-- On its turn the host makes its next move, taken off the script (R172). -/
theorem step_of_hostTurn {s : State} {mv : HostMove} {rest : List HostMove} (turn : hostTurn s mv rest) :
    step s = hostMove (moving s rest) mv := by
  obtain ⟨hm, hs⟩ := turn
  simp only [step, hm, hostStep, State.tick_script, hs]
  rfl

theorem windowOffset_aligned (s : State) (rest : List HostMove) {off : Nat} (hlt : off < 0x80) (hal : off % 4 = 0) :
    windowOffset (moving s rest) (s.params.regBase + off) 4 = .ok off :=
  (windowOffset_ok _ _ _ _).2 ⟨rfl, hlt, rfl, hal⟩

theorem step_busRead {s : State} {rest : List HostMove} {off : Nat} (hlt : off < 0x80) (hal : off % 4 = 0)
    (turn : hostTurn s (.busRead (s.params.regBase + off) 4) rest) :
    step s = .next ((moving s rest).observe (.reg off (readOffset (moving s rest) off))) := by
  simp only [step_of_hostTurn turn, hostMove, hostRead, windowOffset_aligned s rest hlt hal]

theorem step_busWrite {s : State} {rest : List HostMove} {off : Nat} {d : Word} (hlt : off < 0x80) (hal : off % 4 = 0)
    (turn : hostTurn s (.busWrite (s.params.regBase + off) 4 d) rest) :
    step s = .next (writeOffset (moving s rest) off d) := by
  simp only [step_of_hostTurn turn, hostMove, hostWrite, windowOffset_aligned s rest hlt hal]

/-! ## A register write, field by field -/

@[simp] theorem writeOffset_g (s : State) (off : Nat) (d : Word) : (writeOffset s off d).g = s.g := by
  unfold writeOffset
  split_ifs <;> rfl

theorem writeOffset_status (s : State) (d : Word) : writeOffset s 0x20 d = s.writeStatus d := rfl

/-- While BUSY = 1 a write elsewhere than STATUS is dropped, and WBUSY tells so (R35, R149). -/
theorem writeOffset_dropped {s : State} {off : Nat} (d : Word) (hoff : off ≠ 0x20) (hbusy : s.busy = true) :
    writeOffset s off d = { s with wbusy := true } := by
  simp [writeOffset, hoff, hbusy]

/-- While BUSY = 1 no register write touches the running command (R31, R35). -/
theorem writeOffset_keeps_command {s : State} (off : Nat) (d : Word) (hbusy : s.busy = true) :
    (writeOffset s off d).busy = true ∧ (writeOffset s off d).pending = s.pending := by
  by_cases hoff : off = 0x20
  · subst hoff
    exact ⟨hbusy, rfl⟩
  · rw [writeOffset_dropped d hoff hbusy]
    exact ⟨hbusy, rfl⟩

/-- GEOM_VALID falls on a write to WIDTH or HEIGHT while idle, and no register write changes it otherwise (R29, R35). -/
theorem writeOffset_geomValid (s : State) (off : Nat) (d : Word) :
    (writeOffset s off d).geomValid = s.geomValid ∨
    (writeOffset s off d).geomValid = false ∧ s.busy = false ∧ (off = 0x04 ∨ off = 0x08) := by
  unfold writeOffset
  split_ifs <;> simp_all

end Sys2Proof.Machine
end

section
/-! PROOF of O41. Each operation a step can end in keeps the invariant; `stepEffect_of_step` assembles them. -/

namespace Sys2Proof.Machine

open Sys2Proof.Claims

/-! ## The parts of the invariant as propositions -/

theorem State.flagsOk_iff (s : State) : s.flagsOk = true ↔
    s.busy = s.pending.isSome ∧ ¬ (s.done = true ∧ s.err = true) ∧
    (s.busy = true → s.done = false ∧ s.err = false) ∧ (s.err = true ↔ s.errcode ≠ 0) ∧ s.errcode.toNat ≤ 5 := by
  simp only [State.flagsOk, Bool.and_eq_true, beq_iff_eq, decide_eq_true_eq, and_assoc]
  refine and_congr_right fun _ => and_congr ?exclude (and_congr ?running (and_congr_left fun _ => ?reported))
  case exclude => cases s.done <;> simp
  case running => cases s.busy <;> simp
  case reported => cases s.err <;> simp

theorem State.geomOk_iff (s : State) : s.geomOk = true ↔
    (s.geomValid = true → geomLegal s.params.maxDim s.width.toNat s.height.toNat = true ∧
      s.g = describe s.width.toNat s.height.toNat) := by
  cases hv : s.geomValid <;> simp [State.geomOk, hv]

theorem State.memOk_iff (s : State) : s.memOk = true ↔
    s.mem.wf = true ∧ s.mem.within s.params.memBytes = true := by
  simp [State.memOk]

/-- A descriptor that GEOM computes from legal dimensions records those dimensions (R94, R95). -/
theorem describe_records_dimensions {s : State} (hp : s.params.legal = true)
    (hl : geomLegal s.params.maxDim s.width.toNat s.height.toNat = true) :
    (describe s.width.toNat s.height.toNat).width.toNat = s.width.toNat ∧
    (describe s.width.toNat s.height.toNat).height.toNat = s.height.toNat := by
  simp only [Params.legal, Bool.and_eq_true, decide_eq_true_eq] at hp
  rw [geomLegal_iff] at hl
  obtain ⟨hw, hh, -⟩ := describe_toNat s.width.toNat s.height.toNat (by omega) (by omega)
  exact ⟨hw, hh⟩

/-! ## The flags -/

theorem ErrCode.code_ne_zero (e : ErrCode) : e.code ≠ 0 := by
  cases e <;> decide

theorem ErrCode.code_le (e : ErrCode) : e.code.toNat ≤ 5 := by
  cases e <;> decide

theorem State.raise_flagsOk (s : State) (e : ErrCode) : (s.raise e).flagsOk = true := by
  rw [State.flagsOk_iff]
  exact ⟨rfl, by simp, by simp, ⟨fun _ => e.code_ne_zero, fun _ => rfl⟩, e.code_le⟩

theorem State.complete_flagsOk (s : State) : s.complete.flagsOk = true := rfl

theorem State.issue_flagsOk (s : State) (w : Word) : (s.issue w).flagsOk = true := rfl

/-- Clearing a flag of STATUS cannot put the flags at odds: ERR takes ERRCODE with it (R30). -/
theorem State.writeStatus_flagsOk {s : State} (d : Word) (h : s.flagsOk = true) : (s.writeStatus d).flagsOk = true := by
  rw [State.flagsOk_iff] at h ⊢
  obtain ⟨hpend, hexcl, hrun, herr, hcode⟩ := h
  refine ⟨hpend, fun ⟨hd, he⟩ => ?_, fun hb => ?_, ?_, ?_⟩
  · simp only [State.writeStatus_done, State.writeStatus_err, Bool.and_eq_true] at hd he
    exact hexcl ⟨hd.1, he.1⟩
  · obtain ⟨hd, he⟩ := hrun hb
    simp [hd, he]
  · simp only [State.writeStatus_err, State.writeStatus_errcode]
    cases d.getLsbD 2 <;> simp [herr]
  · simp only [State.writeStatus_errcode]
    cases d.getLsbD 2 <;> simp [hcode]

/-! ## The operations -/

/-- The invariant of another state with the same geometry and parameters rests on its flags and its memory only. -/
theorem State.Inv_of_sameGeometry {s t : State} (h : s.Inv = true) (hp : t.params = s.params)
    (hw : t.width = s.width) (hh : t.height = s.height) (hv : t.geomValid = s.geomValid) (hg : t.g = s.g)
    (hflags : t.flagsOk = true) (hmem : t.memOk = true) : t.Inv = true := by
  obtain ⟨hlegal, -, hgeom, hdesc, -⟩ := (State.Inv_iff s).1 h
  refine (State.Inv_iff t).2 ⟨by rw [hp]; exact hlegal, hflags, ?_, ?_, hmem⟩
  · simpa only [State.geomOk, hp, hw, hh, hv, hg] using hgeom
  · simpa only [State.descriptorOk, hp, hg] using hdesc

theorem State.Inv_withMem {s : State} (m : Memory) (h : s.Inv = true) (hwf : m.wf = true)
    (hin : m.within s.params.memBytes = true) : State.Inv { s with mem := m } = true := by
  obtain ⟨-, hflags, -, -, -⟩ := (State.Inv_iff s).1 h
  exact State.Inv_of_sameGeometry h rfl rfl rfl rfl rfl hflags ((State.memOk_iff _).2 ⟨hwf, hin⟩)

theorem State.Inv_withFlags {s t : State} (h : s.Inv = true) (ht : t.flagsOk = true)
    (hflags : t = { s with busy := t.busy, done := t.done, err := t.err, wbusy := t.wbusy, errcode := t.errcode,
                           pending := t.pending }) : t.Inv = true := by
  obtain ⟨-, -, -, -, hmem⟩ := (State.Inv_iff s).1 h
  rw [hflags] at ht ⊢
  exact State.Inv_of_sameGeometry h rfl rfl rfl rfl rfl ht hmem

theorem State.raise_keeps_Inv {s : State} (e : ErrCode) (h : s.Inv = true) : (s.raise e).Inv = true :=
  State.Inv_withFlags h (s.raise_flagsOk e) rfl

theorem State.complete_keeps_Inv {s : State} (h : s.Inv = true) : s.complete.Inv = true :=
  State.Inv_withFlags h s.complete_flagsOk rfl

theorem State.issue_keeps_Inv {s : State} (w : Word) (h : s.Inv = true) : (s.issue w).Inv = true :=
  State.Inv_withFlags h (s.issue_flagsOk w) rfl

theorem State.writeStatus_keeps_Inv {s : State} (d : Word) (h : s.Inv = true) : (s.writeStatus d).Inv = true := by
  obtain ⟨-, hflags, -, -, -⟩ := (State.Inv_iff s).1 h
  exact State.Inv_withFlags h (State.writeStatus_flagsOk d hflags) rfl

/-- With GEOM_VALID cleared, WIDTH and HEIGHT may hold anything (R22, R23). -/
theorem State.Inv_withDimensions {s : State} (w h : BitVec 16) (hi : s.Inv = true) :
    State.Inv { s with width := w, height := h, geomValid := false } = true := by
  obtain ⟨hlegal, hflags, -, hdesc, hmem⟩ := (State.Inv_iff s).1 hi
  exact (State.Inv_iff _).2 ⟨hlegal, hflags, rfl, hdesc, hmem⟩

/-- The geometry registers a GEOM leaves on legal dimensions meet the invariant (R29, R32, R95). -/
theorem geomLatch_keeps_Inv {s : State} (h : s.Inv = true)
    (hl : geomLegal s.params.maxDim s.width.toNat s.height.toNat = true) : (geomLatch s).Inv = true := by
  obtain ⟨hlegal, -, -, -, hmem⟩ := (State.Inv_iff s).1 h
  obtain ⟨hw, hh⟩ := describe_records_dimensions hlegal hl
  refine (State.Inv_iff _).2 ⟨hlegal, State.complete_flagsOk _, ?_, ?_, hmem⟩
  · exact (State.geomOk_iff _).2 fun _ => ⟨hl, rfl⟩
  · simp [State.descriptorOk, geomLatch, hw, hh, hl]

theorem geomReject_keeps_Inv {s : State} (h : s.Inv = true) : (geomReject s).Inv = true := by
  obtain ⟨hlegal, -, -, -, hmem⟩ := (State.Inv_iff s).1 h
  exact (State.Inv_iff _).2 ⟨hlegal, State.raise_flagsOk _ _, rfl, rfl, hmem⟩

theorem State.resetRegisters_Inv {s : State} (hlegal : s.params.legal = true) (hmem : s.memOk = true) :
    s.resetRegisters.Inv = true :=
  (State.Inv_iff _).2 ⟨hlegal, rfl, rfl, rfl, hmem⟩

theorem writeOffset_keeps_Inv {s : State} (off : Nat) (d : Word) (h : s.Inv = true) :
    (writeOffset s off d).Inv = true := by
  unfold writeOffset
  split_ifs
  · exact State.writeStatus_keeps_Inv d h -- STATUS
  · exact h -- dropped while busy
  · exact State.Inv_withDimensions (d.setWidth 16) s.height h -- WIDTH
  · exact State.Inv_withDimensions s.width (d.setWidth 16) h -- HEIGHT
  · exact h -- LAYOUT
  · exact h -- SRC_ADDR
  · exact h -- DST_ADDR
  · exact h -- SCR_ADDR
  · exact State.issue_keeps_Inv d h -- CMD
  · exact h -- no effect

/-- A command that uses windows writes existing bytes only, since its checks passed (R56, R58, R144). -/
theorem commandBody_keeps_Inv {s : State} (i : Instr) (h : s.Inv = true) (clear : windowError s i = none) :
    State.Inv { s with mem := commandBody i s s.mem } = true := by
  obtain ⟨-, -, -, -, hmem⟩ := (State.Inv_iff s).1 h
  obtain ⟨hwf, hin⟩ := (State.memOk_iff s).1 hmem
  have c : Clear s i := clear_of_windowError s i clear
  exact State.Inv_withMem _ h (wf_commandBody i s _ hwf) (within_commandBody i s _ (State.Inv_facts s h c.valid) c hin)

theorem scrambleWindow_keeps_memOk {s : State} (w : Window) (h : s.memOk = true) :
    (scrambleWindow s w).memOk = true := by
  obtain ⟨hwf, hin⟩ := (State.memOk_iff s).1 h
  exact (State.memOk_iff _).2 ⟨wf_scrambleWindow s w hwf, within_scrambleWindow s w hin⟩

/-- Abandoning a command frees existing bytes only (R159). -/
theorem abandonCommand_keeps_memOk {s : State} (h : s.memOk = true) : (abandonCommand s).memOk = true := by
  unfold abandonCommand
  generalize pendingWindows writeWindows s = ws
  induction ws generalizing s with
  | nil => exact h
  | cons w ws ih => exact ih (scrambleWindow_keeps_memOk w h)

/-! ## The step -/

/-- Settles O41: every state a step can answer meets the invariant, one operation at a time. -/
theorem everyStepKeepsTheInvariant : Obligations.EveryStepKeepsTheInvariant := by
  intro s t h hstep
  have htick : s.tick.Inv = true := h
  obtain ⟨hlegal, -, -, -, hmem⟩ := (State.Inv_iff s).1 h
  cases stepEffect_of_step hstep with
  | quiet script observed => exact h
  | latch _ _ legal => exact geomLatch_keeps_Inv htick legal
  | reject => exact geomReject_keeps_Inv htick
  | raise _ e => exact State.raise_keeps_Inv e htick
  | complete _ i clear => exact State.complete_keeps_Inv (commandBody_keeps_Inv i htick clear)
  | write off d rest => exact writeOffset_keeps_Inv (s := moving s rest) off d h
  | fill a b script ha =>
    obtain ⟨hwf, hin⟩ := (State.memOk_iff s).1 hmem
    exact State.Inv_withMem _ h (Memory.wf_write _ a b hwf) (Memory.within_write _ a b _ hin ha)
  | reset rest =>
    refine State.resetRegisters_Inv ?_ (abandonCommand_keeps_memOk hmem)
    rw [abandonCommand_params]
    exact hlegal

end Sys2Proof.Machine
end

section
/-! PROOF of O53, O42, O43: the safety statements about BUSY, GEOM_VALID and the G_* registers, each a case per way a step can answer. -/

namespace Sys2Proof.Machine

open Sys2Proof.Claims

/-- Settles O53: only GEOM and reset reach the G_* registers (R32, R158). -/
theorem onlyGeomAndResetWriteTheDescriptor : Obligations.OnlyGeomAndResetWriteTheDescriptor := by
  intro s t hstep hg
  cases stepEffect_of_step hstep with
  | latch turn word => exact .inl ⟨turn, word⟩
  | reject turn word => exact .inl ⟨turn, word⟩
  | reset rest turn => exact .inr ⟨rest, turn⟩
  | write off d rest => exact absurd (writeOffset_g (moving s rest) off d) hg
  | quiet | raise | complete | fill => exact absurd rfl hg

/-- A step from BUSY = 1 leaves the command running, ends it with DONE or ERR, or resets the block (R31, R146, R147). -/
theorem step_of_busy {s t : State} (hbusy : s.busy = true) (hstep : step s = .next t) :
    (t.busy = true ∧ t.pending = s.pending) ∨
    (t.busy = false ∧ s.mover = .engine ∧ (t.done = true ∨ t.err = true)) ∨
    (t.busy = false ∧ ∃ rest, hostTurn s .reset rest) := by
  cases stepEffect_of_step hstep with
  | quiet | fill => exact .inl ⟨hbusy, rfl⟩
  | write off d rest => exact .inl (writeOffset_keeps_command (s := moving s rest) off d hbusy)
  | latch turn => exact .inr (.inl ⟨rfl, turn, .inl rfl⟩)
  | complete turn => exact .inr (.inl ⟨rfl, turn, .inl rfl⟩)
  | reject turn => exact .inr (.inl ⟨rfl, turn, .inr rfl⟩)
  | raise turn => exact .inr (.inl ⟨rfl, turn, .inr rfl⟩)
  | reset rest turn => exact .inr (.inr ⟨rfl, rest, turn⟩)

/-- Settles O42: `step_of_busy`, with a word in PENDING by the invariant (R31, R36). -/
theorem busyEndsOnlyByCompletionOrReset : Obligations.BusyEndsOnlyByCompletionOrReset := by
  intro s t h hstep hbusy
  obtain ⟨-, hflags, -, -, -⟩ := (State.Inv_iff s).1 h
  obtain ⟨hpend, -⟩ := (State.flagsOk_iff s).1 hflags
  have hsome : s.pending ≠ none := by
    rw [← Option.isSome_iff_ne_none, ← hpend, hbusy]
  obtain ⟨hb, hp⟩ | ⟨hb, hended⟩ | ⟨hb, hreset⟩ := step_of_busy hbusy hstep
  · exact ⟨fun _ => ⟨hp, hp ▸ hsome⟩, fun hb' => absurd (hb.symm.trans hb') nofun⟩
  · exact ⟨fun hb' => absurd (hb.symm.trans hb') nofun, fun _ => .inl hended⟩
  · exact ⟨fun hb' => absurd (hb.symm.trans hb') nofun, fun _ => .inr hreset⟩

/-- A step keeps GEOM_VALID, or is a GEOM, which sets it to whether the dimensions are legal, or clears it by a reset or an
idle write to WIDTH or HEIGHT (R29). -/
theorem step_geomValid {s t : State} (hstep : step s = .next t) :
    t.geomValid = s.geomValid ∨
    (s.mover = .engine ∧ s.pending = some (encode .geom) ∧
      t.geomValid = geomLegal s.params.maxDim s.width.toNat s.height.toNat) ∨
    (t.geomValid = false ∧ ∃ rest, hostTurn s .reset rest) ∨
    (t.geomValid = false ∧ s.busy = false ∧ ∃ off d rest, (off = 0x04 ∨ off = 0x08) ∧
      hostTurn s (.busWrite (s.params.regBase + off) 4 d) rest) := by
  cases stepEffect_of_step hstep with
  | quiet | raise | complete | fill => exact .inl rfl
  | latch turn word legal => exact .inr (.inl ⟨turn, word, legal.symm⟩)
  | reject turn word illegal => exact .inr (.inl ⟨turn, word, illegal.symm⟩)
  | reset rest turn => exact .inr (.inr (.inl ⟨rfl, rest, turn⟩))
  | write off d rest turn =>
    obtain hsame | ⟨hfalls, hidle, hoff⟩ := writeOffset_geomValid (moving s rest) off d
    · exact .inl hsame
    · exact .inr (.inr (.inr ⟨hfalls, hidle, off, d, rest, hoff, turn⟩))

/-- Settles O43: `step_geomValid`, with R96's check read as the bounds of R29. -/
theorem geomValidFollowsGeom : Obligations.GeomValidFollowsGeom := by
  intro s t hstep legal
  have hlegal : geomLegal s.params.maxDim s.width.toNat s.height.toNat = true ↔ legal := by
    rw [geomLegal_iff]
    omega
  obtain hsame | ⟨turn, word, hgeom⟩ | ⟨hfalls, hreset⟩ | ⟨hfalls, hwrite⟩ := step_geomValid hstep
  · rw [hsame]
    exact ⟨fun h h' => absurd (h.symm.trans h') nofun, fun h h' => absurd (h.symm.trans h') nofun⟩
  · refine ⟨fun _ hv => ⟨turn, word, hlegal.1 (hgeom ▸ hv)⟩, fun _ hv => .inl ⟨turn, word, fun hl => ?_⟩⟩
    rw [hgeom, hlegal.2 hl] at hv
    cases hv
  · exact ⟨fun _ hv => absurd (hfalls.symm.trans hv) nofun, fun _ _ => .inr (.inl hreset)⟩
  · exact ⟨fun _ hv => absurd (hfalls.symm.trans hv) nofun, fun _ _ => .inr (.inr hwrite)⟩

end Sys2Proof.Machine
end

section
/-! PROOF of O35, O36, O34: the register window, offset by offset, and the STATUS word. -/

namespace Sys2Proof.Machine

open Sys2Proof.Claims

/-! ## Reads -/

theorem readReg_moving (s : State) (rest : List HostMove) (r : Reg) : readReg (moving s rest) r = readReg s r := by
  cases r <;> rfl

/-- A register reads the same on the host's turn as before it: the turn and the script are no register. -/
theorem readOffset_moving (s : State) (rest : List HostMove) (off : Nat) :
    readOffset (moving s rest) off = readOffset s off := by
  unfold readOffset
  cases regAt off with
  | none => rfl
  | some r => exact readReg_moving s rest r

/-- Settles O35: a register read answers by `readOffset`, which follows R20's table, and the rest is O53 (R32, R34). -/
theorem registerReadsHaveNoSideEffect : Obligations.RegisterReadsHaveNoSideEffect := by
  refine ⟨fun s rest off v hmem turn => ?_, fun s t _ hstep hg => onlyGeomAndResetWriteTheDescriptor s t hstep hg⟩
  have table : off < 0x80 ∧ off % 4 = 0 ∧ readOffset s off = v := by
    fin_cases hmem <;> exact ⟨by decide, by decide, rfl⟩
  obtain ⟨hlt, hal, hread⟩ := table
  rw [step_busRead hlt hal turn, readOffset_moving, hread]
  rfl

/-! ## Writes -/

/-- STATUS is write-1-to-clear, told bit by bit (R30). -/
theorem writeStatus_eq (s : State) (d : Word) : s.writeStatus d = { s with
    done := if d.getLsbD 1 then false else s.done
    err := if d.getLsbD 2 then false else s.err
    errcode := if d.getLsbD 2 then 0 else s.errcode
    wbusy := if d.getLsbD 4 then false else s.wbusy } := by
  have hclear : ∀ flag bit : Bool, (flag && !bit) = if bit then false else flag := by decide
  simp only [State.writeStatus, hclear]

/-- ID, the reserved offsets and the G_* registers ignore a write while idle (R33, R35). -/
theorem writeOffset_readOnly {s : State} {off : Nat} (d : Word) (hidle : s.busy = false)
    (hoff : off = 0x00 ∨ 0x24 ≤ off) : writeOffset s off d = s := by
  have hnone : ∀ k, 0x04 ≤ k → k ≤ 0x20 → off ≠ k := by omega
  simp [writeOffset, hidle, hnone]

/-- Settles O36: a register write answers by `writeOffset`, read here at each offset (R30, R35). -/
theorem registerWritesFollowTheTable : Obligations.RegisterWritesFollowTheTable := by
  intro s rest off d hlt hal turn u
  have hstep : step s = .next (writeOffset u off d) := step_busWrite hlt hal turn
  have hlow : ∀ w, w ≤ 32 → d.setWidth w = d.extractLsb' 0 w := fun w hw => BitVec.setWidth_eq_extractLsb' hw
  refine ⟨?status, fun hoff hbusy => ?_, fun hidle => ⟨?width, ?height, ?layout, ?src, ?dst, ?scr, ?cmd, fun hoff => ?_⟩⟩
  case status =>
    rintro rfl
    rw [hstep, writeOffset_status, writeStatus_eq]
    rfl
  case width | height | layout | src | dst | scr | cmd =>
    rintro rfl
    simp [hstep, writeOffset, State.issue, u, moving, hidle, hlow]
  · rw [hstep, writeOffset_dropped (s := u) d hoff hbusy]
  · rw [hstep, writeOffset_readOnly (s := u) d hidle (by omega)]

/-! ## STATUS -/

/-- Concatenation as arithmetic: the low part is added below the high part. -/
theorem toNat_append_eq_add {m n : Nat} (x : BitVec m) (y : BitVec n) :
    (x ++ y).toNat = x.toNat * 2 ^ n + y.toNat := by
  rw [BitVec.toNat_append, ← Nat.shiftLeft_add_eq_or_of_lt y.isLt, Nat.shiftLeft_eq]

/-- Settles O34: STATUS is its fields, each at the weight of its lowest bit (R29). -/
theorem statusWordHasItsFields : Obligations.StatusWordHasItsFields := by
  intro s
  simp only [statusWord, flagBit, toNat_append_eq_add, BitVec.toNat_ofBool, BitVec.ofNat_eq_ofNat, BitVec.toNat_ofNat]
  omega

end Sys2Proof.Machine
end

section
/-! SUPPORT for the statements of 20_memory.md. The windows a command word names, and the maps of M that only move bytes. -/

namespace Sys2Proof.Machine

open Sys2Proof.Claims

/-! ## The windows of a command word -/

theorem not_outside_iff (ws : List Window) (a : Nat) :
    ¬ outside ws a ↔ ∃ w ∈ ws, inWindow w a = true := by
  simp only [outside, inWindow_iff]
  push Not
  rfl

theorem not_outside_of_inWindow {ws : List Window} {w : Window} {a : Nat} (hw : w ∈ ws) (ha : inWindow w a = true) :
    ¬ outside ws a :=
  (not_outside_iff ws a).2 ⟨w, hw, ha⟩

/-- R61's windows, told by the command's word, are the ones the command's checks name. -/
@[simp] theorem owned_encode (s : State) (i : Instr) : owned s (encode i) = usedWindows s i := by
  cases i with
  | frame =>
    change (if s.layout = 1 then _ else _) = if (s.layout == 1) = true then _ else _
    simp only [beq_iff_eq]
  | geom | detileY | detileUV | crop | planar => rfl

@[simp] theorem written_encode (s : State) (i : Instr) : written s (encode i) = writeWindows s i := by
  cases i with
  | frame =>
    change (if s.layout = 1 then _ else _) = if (s.layout == 1) = true then _ else _
    simp only [beq_iff_eq]
  | geom | detileY | detileUV | crop | planar => rfl

theorem ordinary_iff (s : State) (ws : List Window) :
    ordinary s ws = true ↔ ∀ w ∈ ws, ∀ d ∈ s.params.devices, overlap w d = false := by
  simp [ordinary]

/-! ## Maps that only move bytes -/

/-- The map of M gives each byte the value of one byte before, always the same one: its own, or, inside `W`, one inside `U`.
No body computes a value (R51) and none looks at one to decide where it goes. -/
def MovesBytes (W U : List Window) (f : Memory → Memory) : Prop :=
  ∃ source : Nat → Nat, (∀ m a, Memory.read (f m) a = Memory.read m (source a)) ∧
    ∀ a, source a = a ∨ (¬ outside W a ∧ ¬ outside U (source a))

namespace MovesBytes

variable {W U : List Window}

protected theorem id : MovesBytes W U (fun m => m) :=
  ⟨fun a => a, fun _ _ => rfl, fun _ => .inl rfl⟩

protected theorem comp {f g : Memory → Memory} (hg : MovesBytes W U g) (hf : MovesBytes W U f) :
    MovesBytes W U (fun m => g (f m)) := by
  obtain ⟨σ, hσ, rσ⟩ := hf
  obtain ⟨τ, hτ, rτ⟩ := hg
  refine ⟨fun a => σ (τ a), fun m a => by rw [hτ, hσ], fun a => ?_⟩
  obtain hself | ⟨hW, hU⟩ := rτ a
  · simpa only [hself] using rσ a
  · have hU' : ¬ outside U (σ (τ a)) := by
      obtain hself | ⟨-, h⟩ := rσ (τ a)
      · rwa [hself]
      · exact h
    exact .inr ⟨hW, hU'⟩

protected theorem loop {n : Nat} {body : Nat → Memory → Memory} (h : ∀ k, k < n → MovesBytes W U (body k)) :
    MovesBytes W U (loop n body) := by
  induction n with
  | zero => exact .id
  | succ n ih =>
    have hlast := h n (Nat.lt_succ_self n)
    exact hlast.comp (ih fun k hk => h k (Nat.lt_succ_of_lt hk))

/-- A map that takes the bytes in `P` from elsewhere and leaves the others alone. -/
theorem of_read {f : Memory → Memory} {P : Nat → Prop} [DecidablePred P] {source : Nat → Nat}
    (hread : ∀ m a, Memory.read (f m) a = if P a then Memory.read m (source a) else Memory.read m a)
    (hP : ∀ a, P a → ¬ outside W a ∧ ¬ outside U (source a)) : MovesBytes W U f := by
  refine ⟨fun a => if P a then source a else a, fun m a => ?_, fun a => ?_⟩
  · rw [hread, apply_ite (Memory.read m)]
  · by_cases ha : P a
    · simp only [if_pos ha]
      exact .inr (hP a ha)
    · exact .inl (if_neg ha)

protected theorem copy {d s n : Nat} (hd : ∀ k, k < n → ¬ outside W (d + k)) (hs : ∀ k, k < n → ¬ outside U (s + k)) :
    MovesBytes W U (fun m => m.copy d s n) := by
  refine of_read (fun m a => Memory.read_copy m d s n a) fun a ⟨hge, hlt⟩ => ⟨?_, hs (a - d) (by omega)⟩
  have hW := hd (a - d) (by omega)
  rwa [Nat.add_sub_cancel' hge] at hW

protected theorem move {d s : Nat} (hd : ¬ outside W d) (hs : ¬ outside U s) :
    MovesBytes W U (fun m => m.move d s) :=
  of_read (fun m a => Memory.read_move m d s a) fun _ ha => ⟨ha ▸ hd, hs⟩

end MovesBytes

/-! ## The bodies of the commands -/

theorem inWindow_dstWin {s : State} {k : Nat} (hk : k < s.g.dstWindow.toNat) :
    inWindow s.dstWin (s.dstAddr.toNat + k) = true :=
  (inWindow_iff _ _).2 ⟨Nat.le_add_right _ _, Nat.add_lt_add_left hk _⟩

theorem inWindow_scrWin {s : State} {k : Nat} (hk : k < s.g.linearBytes.toNat) :
    inWindow s.scrWin (s.scrAddr.toNat + k) = true :=
  (inWindow_iff _ _).2 ⟨Nat.le_add_right _ _, Nat.add_lt_add_left hk _⟩

section
variable {W U : List Window}

/-- A plane's tiles go from its source region to its raster, row by row (R101, R102). -/
theorem detilePlane_movesBytes {p : Plane} (even : p.wT % 2 = 0)
    (hdst : ∀ a, inWindow p.dstRegion a = true → ¬ outside W a)
    (hsrc : ∀ a, inWindow p.srcRegion a = true → ¬ outside U a) : MovesBytes W U (detilePlane p) := by
  refine .loop fun n hn => .loop fun y hy => .copy (fun x hx => hdst _ ?_) (fun x hx => hsrc _ ?_)
  · obtain ⟨hrow, hcol⟩ := tilePos_inGrid p.wT p.hT n even hn
    exact p.dstByte_inRegion _ _ y x hrow hcol hy hx
  · exact p.srcByte_inRegion n y x hn hy hx

theorem detileYBody_movesBytes {s : State} (f : DescriptorFacts s.g) (hW : s.dstWin ∈ W) (hU : s.srcWin ∈ U) :
    MovesBytes W U (detileYBody s) :=
  detilePlane_movesBytes (p := s.planeY) f.even
    (fun a ha => not_outside_of_inWindow hW (planeY_dstRegion s f a ha))
    (fun a ha => not_outside_of_inWindow hU (planeY_srcRegion s f a ha))

theorem detileUVBody_movesBytes {s : State} (f : DescriptorFacts s.g) (hW : s.dstWin ∈ W) (hU : s.srcWin ∈ U) :
    MovesBytes W U (detileUVBody s) :=
  detilePlane_movesBytes (p := s.planeUV) f.even
    (fun a ha => not_outside_of_inWindow hW (planeUV_dstRegion s f a ha))
    (fun a ha => not_outside_of_inWindow hU (planeUV_srcRegion s f a ha))

/-- A row's bytes come from the same row at the padded stride (R116, R118). -/
theorem cropBody_movesBytes {s : State} (f : DescriptorFacts s.g) (hW : s.dstWin ∈ W) (hU : s.dstWin ∈ U) :
    MovesBytes W U (cropBody s) := by
  unfold cropBody
  split
  · refine .loop fun i hi => .loop fun x hx => .move ?_ ?_
    · have hlt := rowMajor_lt i x s.g.cropRows.toNat s.g.width.toNat hi hx
      rw [Nat.add_assoc]
      exact not_outside_of_inWindow hW (inWindow_dstWin (hlt.trans_le f.cropFits))
    · have hlt := rowMajor_lt i x s.g.cropRows.toNat s.g.pWidth.toNat hi (hx.trans_le f.width_le)
      rw [Nat.add_assoc]
      exact not_outside_of_inWindow hU (inWindow_dstWin (hlt.trans_le f.cropReads))
  · exact .id

/-- The frame goes to SCR and back, luma first, then the chroma samples (R122, R123, R124). -/
theorem planarBody_movesBytes {s : State} (f : DescriptorFacts s.g) (hWd : s.dstWin ∈ W) (hWs : s.scrWin ∈ W)
    (hUd : s.dstWin ∈ U) (hUs : s.scrWin ∈ U) : MovesBytes W U (planarBody s) := by
  have hplanes := f.planesFit
  have dst : ∀ {ws : List Window}, s.dstWin ∈ ws → ∀ k, k < s.g.linearBytes.toNat →
      ¬ outside ws (s.dstAddr.toNat + k) :=
    fun hw k hk => not_outside_of_inWindow hw (inWindow_dstWin (hk.trans_le f.frameFits))
  have scr : ∀ {ws : List Window}, s.scrWin ∈ ws → ∀ k, k < s.g.linearBytes.toNat →
      ¬ outside ws (s.scrAddr.toNat + k) :=
    fun hw k hk => not_outside_of_inWindow hw (inWindow_scrWin hk)
  have hback : MovesBytes W U (fun m => m.copy s.dstAddr.toNat s.scrAddr.toNat s.g.lumaLen.toNat) :=
    .copy (fun k hk => dst hWd k (by omega)) (fun k hk => scr hUs k (by omega))
  have hsplit : MovesBytes W U (loop s.g.chromaLen.toNat
      (deinterleaveOne s.dstAddr.toNat s.scrAddr.toNat s.g.lumaLen.toNat s.g.chromaLen.toNat)) := by
    refine .loop fun k hk => MovesBytes.comp (g := fun m => m.move _ _) (f := fun m => m.move _ _)
      (.move ?_ ?_) (.move ?_ ?_)
    all_goals simp only [Nat.add_assoc]
    · exact dst hWd _ (by omega)
    · exact scr hUs _ (by omega)
    · exact dst hWd _ (by omega)
    · exact scr hUs _ (by omega)
  exact hsplit.comp (hback.comp (.copy (scr hWs) (dst hUd)))

end

/-- FRAME's body is the chain of the other bodies, each inside FRAME's windows (R128, R130). -/
theorem frameBody_movesBytes {s : State} (f : DescriptorFacts s.g) :
    MovesBytes (writeWindows s .frame) (usedWindows s .frame) (frameBody s) := by
  have hWd : s.dstWin ∈ writeWindows s .frame := by simp only [writeWindows]; split <;> simp
  have hUs : s.srcWin ∈ usedWindows s .frame := by simp only [usedWindows]; split <;> simp
  have hUd : s.dstWin ∈ usedWindows s .frame := by simp only [usedWindows]; split <;> simp
  have hdetile := (detileUVBody_movesBytes f hWd hUs).comp (detileYBody_movesBytes f hWd hUs)
  have hcrop := (cropBody_movesBytes f hWd hUd).comp hdetile
  unfold frameBody
  by_cases hp : s.planarOutput = true
  · have hWs : s.scrWin ∈ writeWindows s .frame := by simp [writeWindows, hp]
    have hUscr : s.scrWin ∈ usedWindows s .frame := by simp [usedWindows, hp]
    simp only [hp, if_true]
    exact (planarBody_movesBytes f hWd hWs hUd hUscr).comp hcrop
  · simp only [hp]
    exact hcrop

theorem commandBody_movesBytes (i : Instr) {s : State} (f : DescriptorFacts s.g) :
    MovesBytes (writeWindows s i) (usedWindows s i) (commandBody i s) := by
  cases i with
  | geom => exact .id
  | detileY => exact detileYBody_movesBytes f (by simp [writeWindows]) (by simp [usedWindows])
  | detileUV => exact detileUVBody_movesBytes f (by simp [writeWindows]) (by simp [usedWindows])
  | crop => exact cropBody_movesBytes f (by simp [writeWindows]) (by simp [usedWindows])
  | planar =>
    exact planarBody_movesBytes f (by simp [writeWindows]) (by simp [writeWindows]) (by simp [usedWindows])
      (by simp [usedWindows])
  | frame => exact frameBody_movesBytes f

end Sys2Proof.Machine
end

section
/-! PROOF of O33 and O39: the checks on windows, and a register's bytes, as arithmetic. -/

namespace Sys2Proof.Machine

/-- Settles O33: windows that overlap share the higher of their two bases, and a window's last byte bounds it (R56, R57). -/
theorem windowChecksMeanWhatTheySay : Obligations.WindowChecksMeanWhatTheySay := by
  intro s w v hw hv
  rw [overlap_iff, inBounds_iff]
  refine ⟨⟨fun h => ⟨max w.base v.base, by omega, by omega⟩, fun ⟨a, h⟩ => by omega⟩,
    ⟨fun h a _ _ => by omega, fun h => ?_⟩⟩
  have hlast := h (w.base + w.size - 1) (by omega) (by omega)
  omega

theorem toNat_regByte (w : Word) (k : Nat) : (regByte w k).toNat = w.toNat / 2 ^ (8 * k) % 256 := by
  rw [regByte, BitVec.extractLsb'_toNat, Nat.shiftRight_eq_div_pow]

/-- Settles O39: the four bytes are the digits of the word in base 256 (R52). -/
theorem registerBytesAreLittleEndian : Obligations.RegisterBytesAreLittleEndian := by
  intro w
  have hlt := w.isLt
  simp only [toNat_regByte]
  omega

end Sys2Proof.Machine
end

section
/-! PROOF of O30, O31, O32: where a command stops, and what it does to M. -/

namespace Sys2Proof.Machine

open Sys2Proof.Claims

/-! ## Where a command stops -/

/-- A command that passes its checks over memory that is not ordinary is refused; every other command answers a next state
(R144, R167). -/
theorem exec_next_or_refused (i : Instr) (s : State) :
    (∃ t, exec i s = .next t) ∨
    (i ≠ .geom ∧ windowError s i = none ∧ ordinary s (usedWindows s i) = false ∧
      exec i s = .refused .notOrdinaryMemory) := by
  by_cases hi : i = .geom
  · subst hi
    left
    simp only [exec, execGeom]
    split
    · exact ⟨_, rfl⟩
    · exact ⟨_, rfl⟩
  · rw [exec_eq_runCommand i s hi]
    cases he : windowError s i with
    | some e => exact .inl ⟨_, runCommand_error i _ s e he⟩
    | none =>
      cases ho : ordinary s (usedWindows s i) with
      | true => exact .inl ⟨_, runCommand_success i _ s he ho⟩
      | false => exact .inr ⟨hi, rfl, rfl, runCommand_refused i _ s he ho⟩

/-- Settles O30: the two ends of `exec_next_or_refused`, with `ordinary` read as no device in a window (R54, R167). -/
theorem commandsStopOnlyOverDevices : Obligations.CommandsStopOnlyOverDevices := by
  intro s i
  simp only [owned_encode]
  refine ⟨fun hdev => ?_, fun f hf => ?_, fun r hr => ?_, fun t ht herr hi => ?_⟩
  · obtain hnext | ⟨-, -, hord, -⟩ := exec_next_or_refused i s
    · exact hnext
    · simp [ordinary, hdev] at hord
  · obtain ⟨t, ht⟩ | ⟨-, -, -, href⟩ := exec_next_or_refused i s
    · exact absurd (ht.symm.trans hf) nofun
    · exact absurd (href.symm.trans hf) nofun
  · obtain ⟨t, ht⟩ | ⟨hi, hclear, hord, href⟩ := exec_next_or_refused i s
    · exact absurd (ht.symm.trans hr) nofun
    · obtain rfl : Refusal.notOrdinaryMemory = r := by injection href.symm.trans hr
      have hmeets : ¬ ∀ w ∈ usedWindows s i, ∀ d ∈ s.params.devices, overlap w d = false := by
        rw [← ordinary_iff, hord]
        nofun
      push Not at hmeets
      simp only [ne_eq, Bool.not_eq_false] at hmeets
      exact ⟨rfl, hi, (clear_of_windowError s i hclear).valid, hmeets⟩
  · obtain ⟨hgeom, -⟩ | ⟨hgeom, -⟩ | ⟨-, e, -, rfl⟩ | ⟨-, -, hord, -⟩ := exec_next i s t ht
    · exact absurd hgeom hi
    · exact absurd hgeom hi
    · exact absurd herr nofun
    · exact (ordinary_iff s _).1 hord

/-! ## What a command does to M -/

/-- No check and no register of a command looks at M: over another memory it ends alike, and M goes through the same map,
which is the command's body when the checks passed and leaves M alone otherwise. -/
theorem exec_overMemory {i : Instr} {s t : State} (h : exec i s = .next t) :
    ∃ f : Memory → Memory, (∀ m, exec i { s with mem := m } = .next { t with mem := f m }) ∧
      (f = id ∨ Clear s i ∧ f = commandBody i s) := by
  obtain ⟨rfl, hlegal, rfl⟩ | ⟨rfl, hlegal, rfl⟩ | ⟨hi, e, he, rfl⟩ | ⟨hi, hclear, hord, rfl⟩ := exec_next i s t h
  · exact ⟨id, fun m => if_pos hlegal, .inl rfl⟩
  · exact ⟨id, fun m => if_neg (by simpa using hlegal), .inl rfl⟩
  · refine ⟨id, fun m => ?_, .inl rfl⟩
    rw [exec_eq_runCommand i _ hi]
    exact runCommand_error i _ { s with mem := m } e he
  · refine ⟨commandBody i s, fun m => ?_, .inr ⟨clear_of_windowError s i hclear, rfl⟩⟩
    rw [exec_eq_runCommand i _ hi, runCommand_success i _ { s with mem := m } hclear hord]
    cases i <;> rfl

/-- A command moves bytes along a fixed map: over any memory the byte at `a` comes from `source a`, which is `a` itself or,
inside the windows it may write, an existing byte of the windows it uses (R51, R56, R58). -/
theorem exec_movesBytes {i : Instr} {s t : State} (hinv : s.Inv = true) (h : exec i s = .next t) :
    ∃ source : Nat → Nat,
      (∀ m, ∃ v, exec i { s with mem := m } = .next v ∧ sameButMemory t v ∧
        ∀ a, v.mem.read a = m.read (source a)) ∧
      ∀ a, source a = a ∨ (¬ outside (writeWindows s i) a ∧ ¬ outside (usedWindows s i) (source a) ∧
        source a < s.params.memBytes) := by
  obtain ⟨f, hexec, rfl | ⟨clear, rfl⟩⟩ := exec_overMemory h
  · exact ⟨fun a => a, fun m => ⟨_, hexec m, rfl, fun a => rfl⟩, fun a => .inl rfl⟩
  · obtain ⟨source, hread, hrange⟩ := commandBody_movesBytes i (State.Inv_facts s hinv clear.valid)
    refine ⟨source, fun m => ⟨_, hexec m, rfl, fun a => hread m a⟩, fun a => ?_⟩
    refine (hrange a).imp_right fun ⟨hW, hU⟩ => ⟨hW, hU, ?_⟩
    obtain ⟨w, hw, hin⟩ := (not_outside_iff _ _).1 hU
    exact ((inWindow_iff w _).1 hin).2.trans_le (clear.bounds w hw)

/-- `exec_movesBytes` at the memory the state has. -/
theorem exec_read_source {i : Instr} {s t : State} (hinv : s.Inv = true) (h : exec i s = .next t) :
    ∃ source : Nat → Nat, (∀ a, t.mem.read a = s.mem.read (source a)) ∧
      ∀ a, source a = a ∨ (¬ outside (writeWindows s i) a ∧ ¬ outside (usedWindows s i) (source a) ∧
        source a < s.params.memBytes) := by
  obtain ⟨source, hexec, hrange⟩ := exec_movesBytes hinv h
  obtain ⟨v, hv, -, hread⟩ := hexec s.mem
  obtain rfl : t = v := by injection h.symm.trans hv
  exact ⟨source, hread, hrange⟩

/-- Settles O31: outside the write windows `source` is the address itself, and a used byte's source is a used byte (R58). -/
theorem commandsStayInTheirWindows : Obligations.CommandsStayInTheirWindows := by
  refine ⟨fun s t i hinv h a hout => ?_, fun s u t i hinv hsame h hagree => ?_⟩
  · obtain ⟨source, hread, hrange⟩ := exec_read_source hinv h
    rw [written_encode] at hout
    obtain hself | ⟨hW, -⟩ := hrange a
    · rw [hread, hself]
    · exact absurd hout hW
  · obtain ⟨source, hexec, hrange⟩ := exec_movesBytes hinv h
    obtain ⟨v, hv, htv, hvread⟩ := hexec u.mem
    obtain ⟨t', ht', -, htread⟩ := hexec s.mem
    obtain rfl : t = t' := by injection h.symm.trans ht'
    rw [owned_encode] at hagree ⊢
    refine ⟨v, ?_, htv, fun a ha => ?_⟩
    · rw [hsame]
      exact hv
    · rw [hvread, htread]
      obtain hself | ⟨-, hU, -⟩ := hrange a
      · exact hagree _ (by rwa [hself])
      · exact hagree _ hU

/-- Settles O32: `source` names the byte each byte came from (R51). -/
theorem commandsOnlyMoveBytes : Obligations.CommandsOnlyMoveBytes := by
  intro s t i hinv h a
  obtain ⟨source, hread, hrange⟩ := exec_read_source hinv h
  rw [owned_encode]
  exact ⟨source a, (hrange a).imp_right fun ⟨_, hU, hlt⟩ => ⟨hU, hlt⟩, hread a⟩

end Sys2Proof.Machine
end

section
/-! PROOF of O37 and O46: the host's accesses that get no step, and those to M that do. -/

namespace Sys2Proof.Machine

open Sys2Proof.Claims

/-! ## Register accesses -/

theorem windowOffset_accessForm {s : State} {off bytes : Nat} (hlt : off < 0x80) (hform : ¬ (bytes = 4 ∧ off % 4 = 0)) :
    windowOffset s (s.params.regBase + off) bytes = .error .accessForm := by
  rw [windowOffset, if_neg (by omega), Nat.add_sub_cancel_left, if_neg hform]

/-- Settles O37: both register moves ask `windowOffset` first (R53). -/
theorem otherRegisterAccessesAreRefused : Obligations.OtherRegisterAccessesAreRefused := by
  intro s rest off bytes d hlt hform
  have hwin : windowOffset (moving s rest) (s.params.regBase + off) bytes = .error .accessForm :=
    windowOffset_accessForm (s := moving s rest) hlt hform
  refine ⟨fun turn => ?_, fun turn => ?_⟩
  · simp only [step_of_hostTurn turn, hostMove, hostRead, hwin]
  · simp only [step_of_hostTurn turn, hostMove, hostWrite, hwin]

/-! ## The bytes the engine owns -/

theorem decode_encode (i : Instr) : decode (encode i) = .ok i := by
  cases i <;> rfl

/-- A word that is no command owns no window (R55, R61). -/
theorem owned_of_illegal {s : State} {w : Word} {e : Illegal} (h : decode w = .error e) : owned s w = [] := by
  have hne : ∀ i, w ≠ encode i := by
    rintro i rfl
    rw [decode_encode] at h
    cases h
  have h2 : w ≠ 0x00000002 := hne .detileY
  have h12 : w ≠ 0x00000012 := hne .detileUV
  have h3 : w ≠ 0x00000003 := hne .crop
  have h4 : w ≠ 0x00000004 := hne .planar
  have h5 : w ≠ 0x00000005 := hne .frame
  simp only [owned, h2, h12, h3, h4, h5, or_self, if_false]

/-- While a word is pending with a valid descriptor, the engine's windows are the word's (R61). -/
theorem pendingWindows_used {s : State} {w : Word} (hbusy : s.busy = true) (hvalid : s.geomValid = true)
    (hpend : s.pending = some w) : pendingWindows usedWindows s = owned s w := by
  simp only [pendingWindows, hbusy, hvalid, Bool.and_self, if_true, pendingCommand, hpend]
  cases hdec : decode w with
  | ok i =>
    rw [encode_of_decode w i hdec, owned_encode]
    rfl
  | error e =>
    rw [owned_of_illegal hdec]
    rfl

theorem ownedByEngine_iff {s : State} {w : Word} (a : Nat) (hbusy : s.busy = true) (hpend : s.pending = some w) :
    ownedByEngine s a = true ↔ s.geomValid = true ∧ ¬ outside (owned s w) a := by
  cases hvalid : s.geomValid with
  | false => simp [ownedByEngine, pendingWindows, hvalid]
  | true => simp [ownedByEngine, pendingWindows_used hbusy hvalid hpend, not_outside_iff]

/-! ## The host's accesses to M -/

/-- In ordinary memory only ownership keeps the host from an existing byte (R61, R166). -/
theorem hostMayTouch_of_ordinary {s : State} {a : Nat} (k : State) (hdev : s.params.devices = [])
    (ha : a < s.params.memBytes) :
    hostMayTouch s a k = if ownedByEngine s a = true then .refused .ownedByEngine else .next k := by
  have hord : ordinary s [⟨a, 1⟩] = true := by simp [ordinary, hdev]
  rw [hostMayTouch, if_neg (Nat.not_le.2 ha), hord]
  rfl

section
variable {s : State} {a : Nat} {b : Byte} {data : List Byte} {rest : List HostMove}

theorem step_refuses_owned (hdev : s.params.devices = []) (ha : a < s.params.memBytes) (hown : ownedByEngine s a = true) :
    (hostTurn s (.memRead a) rest → step s = .refused .ownedByEngine) ∧
    (hostTurn s (.fill a (b :: data)) rest → step s = .refused .ownedByEngine) := by
  have hmay : ∀ k, hostMayTouch (moving s rest) a k = .refused .ownedByEngine := fun k =>
    (hostMayTouch_of_ordinary (s := moving s rest) k hdev ha).trans (if_pos hown)
  refine ⟨fun turn => ?_, fun turn => ?_⟩
  · rw [step_of_hostTurn turn, hostMove, hostMemRead, hmay]
  · rw [step_of_hostTurn turn, hostMove, hostFill, hmay]

theorem step_touches_unowned (hdev : s.params.devices = []) (ha : a < s.params.memBytes)
    (hown : ownedByEngine s a = false) :
    (hostTurn s (.memRead a) rest → readsByte s a rest) ∧
    (hostTurn s (.fill a (b :: data)) rest → fillsByte s a b data rest) := by
  have hmay : ∀ k, hostMayTouch (moving s rest) a k = .next k := fun k =>
    (hostMayTouch_of_ordinary (s := moving s rest) k hdev ha).trans (if_neg (Bool.not_eq_true _ ▸ hown))
  refine ⟨fun turn => ?_, fun turn => ?_⟩
  · rw [readsByte, step_of_hostTurn turn, hostMove, hostMemRead, hmay]
    rfl
  · refine ⟨_, by rw [step_of_hostTurn turn, hostMove, hostFill, hmay], ?_, ?_, fun x hx => ?_⟩
    · cases data <;> rfl
    · exact (Memory.read_write s.mem a b a).trans (if_pos rfl)
    · exact (Memory.read_write s.mem a b x).trans (if_neg hx)

end

/-- Settles O46: a pending word makes BUSY 1 by the invariant, and the engine then owns the word's windows (R61, R166). -/
theorem ownedBytesAreOutOfTheHostsReach : Obligations.OwnedBytesAreOutOfTheHostsReach := by
  intro s w a b data rest hinv hpend hdev ha
  obtain ⟨-, hflags, -, -, -⟩ := (State.Inv_iff s).1 hinv
  obtain ⟨hbusy, -⟩ := (State.flagsOk_iff s).1 hflags
  rw [hpend, Option.isSome_some] at hbusy
  have hown := ownedByEngine_iff a hbusy hpend
  refine ⟨fun hvalid hin => step_refuses_owned hdev ha (hown.2 ⟨hvalid, hin⟩), fun hfree => ?_⟩
  refine step_touches_unowned hdev ha ?_
  rw [← Bool.not_eq_true, hown]
  rintro ⟨hvalid, hin⟩
  obtain hinvalid | hout := hfree
  · exact absurd (hvalid.symm.trans hinvalid) nofun
  · exact hin hout

end Sys2Proof.Machine
end

section
/-! PROOF of O3, O2, O1, O4: the command word. Its fields as numbers, the checks read off them, and the decoder against the encoder. -/

namespace Sys2Proof.Machine

open Sys2Proof.Claims

/-! ## A word and its fields (R68) -/

@[simp] theorem ofWord_rsvd_toNat (w : Word) : (CmdFields.ofWord w).rsvd.toNat = w.toNat / 32 := by
  simp only [CmdFields.ofWord, BitVec.extractLsb'_toNat, Nat.shiftRight_eq_div_pow]
  omega

@[simp] theorem ofWord_plane_toNat (w : Word) : (CmdFields.ofWord w).plane.toNat = w.toNat / 16 % 2 := by
  simp [CmdFields.ofWord, Nat.shiftRight_eq_div_pow]

@[simp] theorem ofWord_op_toNat (w : Word) : (CmdFields.ofWord w).op.toNat = w.toNat % 16 := by
  simp [CmdFields.ofWord]

/-- Each field stands at the weight of its lowest bit. -/
@[simp] theorem toWord_toNat (f : CmdFields) :
    f.toWord.toNat = (f.rsvd.toNat * 2 ^ 1 + f.plane.toNat) * 2 ^ 4 + f.op.toNat := by
  simp only [CmdFields.toWord, toNat_append_eq_add]

/-- Cutting a word into its fields drops no bit. -/
theorem toWord_ofWord (w : Word) : (CmdFields.ofWord w).toWord = w := by
  apply BitVec.eq_of_toNat_eq
  simp only [toWord_toNat, ofWord_rsvd_toNat, ofWord_plane_toNat, ofWord_op_toNat]
  omega

theorem ofWord_toWord (f : CmdFields) : CmdFields.ofWord f.toWord = f := by
  have hplane := f.plane.isLt
  have hop := f.op.isLt
  rw [CmdFields.mk.injEq]
  refine ⟨BitVec.eq_of_toNat_eq ?_, BitVec.eq_of_toNat_eq ?_, BitVec.eq_of_toNat_eq ?_⟩
  all_goals
    simp only [ofWord_rsvd_toNat, ofWord_plane_toNat, ofWord_op_toNat, toWord_toNat]
    omega

/-! ## The decoder and the encoder (R72, R78) -/

theorem decode_eq_ok_iff (w : Word) (i : Instr) : decode w = .ok i ↔ encode i = w :=
  ⟨fun h => (encode_of_decode w i h).symm, fun h => h ▸ decode_encode i⟩

/-- OP is defined exactly when the fields name a command (R69). -/
theorem opDefined_iff (f : CmdFields) : f.opDefined = true ↔ ∃ i, f.command = some i := by
  unfold CmdFields.opDefined CmdFields.command
  split
  case h_6 h1 h2 h3 h4 h5 =>
    simp only [Bool.and_eq_true, decide_eq_true_eq, reduceCtorEq, exists_false, iff_false, not_and, not_le]
    have hne : f.op.toNat ≠ 1 ∧ f.op.toNat ≠ 2 ∧ f.op.toNat ≠ 3 ∧ f.op.toNat ≠ 4 ∧ f.op.toNat ≠ 5 :=
      ⟨h1, h2, h3, h4, h5⟩
    omega
  all_goals simp [*]

/-- The three checks of the fields are what the decoder asks of their word (R72). -/
theorem wf_iff_decode (f : CmdFields) : f.wf = true ↔ ∃ i, decode f.toWord = .ok i := by
  simp only [CmdFields.wf, Bool.and_eq_true, opDefined_iff, decode_ok, ofWord_toWord, and_assoc, exists_and_left]

/-- Settles O3: the decoder's two directions, the cut of a word and its join, and `wf_iff_decode` (R68, R72, R78). -/
theorem decodeInvertsEncode : Obligations.DecodeInvertsEncode := by
  refine ⟨decode_eq_ok_iff, toWord_ofWord, fun f => ⟨ofWord_toWord f, ?_⟩⟩
  simp only [wf_iff_decode, decode_eq_ok_iff]

/-! ## The reasons of a rejection (R75) -/

/-- Each reason is one check failing after the checks named before it have passed: RSVD, PLANE, OP (log 17). -/
theorem decode_eq_error_iff (w : Word) :
    (decode w = .error .rsvdSet ↔ ¬ (CmdFields.ofWord w).rsvdClear = true) ∧
    (decode w = .error .planeWithoutDetile ↔
      (CmdFields.ofWord w).rsvdClear = true ∧ ¬ (CmdFields.ofWord w).planeAllowed = true) ∧
    (decode w = .error .reservedOp ↔ (CmdFields.ofWord w).rsvdClear = true ∧
      (CmdFields.ofWord w).planeAllowed = true ∧ ¬ (CmdFields.ofWord w).opDefined = true) := by
  rw [opDefined_iff]
  unfold decode
  generalize CmdFields.ofWord w = f
  cases hrsvd : f.rsvdClear with
  | false => simp [hrsvd]
  | true =>
    cases hplane : f.planeAllowed with
    | false => simp [hrsvd, hplane]
    | true => cases hop : f.command <;> simp [hrsvd, hplane, hop]

theorem rsvdClear_ofWord (w : Word) : (CmdFields.ofWord w).rsvdClear = true ↔ w.toNat < 32 := by
  rw [CmdFields.rsvdClear, beq_iff_eq, ← BitVec.toNat_inj, ofWord_rsvd_toNat]
  simp

theorem planeAllowed_ofWord (w : Word) :
    (CmdFields.ofWord w).planeAllowed = true ↔ w.toNat / 16 % 2 = 0 ∨ w.toNat % 16 = 2 := by
  rw [CmdFields.planeAllowed, Bool.or_eq_true, beq_iff_eq, beq_iff_eq, ← BitVec.toNat_inj, ← BitVec.toNat_inj,
    ofWord_plane_toNat, ofWord_op_toNat]
  rfl

theorem opDefined_ofWord (w : Word) :
    (CmdFields.ofWord w).opDefined = true ↔ 1 ≤ w.toNat % 16 ∧ w.toNat % 16 ≤ 5 := by
  simp [CmdFields.opDefined]

/-- Settles O2: each reason is one check failing after those before it passed, and each check is a bound on the word. -/
theorem reservedWordsAreRejectedByName : Obligations.ReservedWordsAreRejectedByName := by
  intro w
  obtain ⟨hrsvd, hplane, hop⟩ := decode_eq_error_iff w
  rw [hrsvd, hplane, hop, rsvdClear_ofWord, planeAllowed_ofWord, opDefined_ofWord]
  omega

/-! ## The six words (R72) -/

theorem encode_mem_legalWords (i : Instr) :
    encode i ∈ ([0x00000001, 0x00000002, 0x00000012, 0x00000003, 0x00000004, 0x00000005] : List Word) := by
  cases i <;> decide

/-- The engine runs the command its word decodes to (R69). -/
theorem engineStep_of_command {s : State} {w : Word} {i : Instr} (hpend : s.pending = some w) (hdec : decode w = .ok i) :
    engineStep s = exec i s := by
  simp only [engineStep, hpend, hdec]

/-- On a word that is no command the engine raises ILLEGAL_CMD (R138). -/
theorem engineStep_of_illegal {s : State} {w : Word} {e : Illegal} (hpend : s.pending = some w)
    (hdec : decode w = .error e) : engineStep s = .next (s.raise .illegalCmd) := by
  simp only [engineStep, hpend, hdec]

/-- Settles O1: the six words are the encodings, and the engine follows the decoder. -/
theorem decodeAcceptsExactlyTheSixWords : Obligations.DecodeAcceptsExactlyTheSixWords := by
  refine ⟨fun w => ⟨?_, ?_, ?_, ?_, ?_, ?_, fun hnot => ?_⟩, fun s w hpend =>
    ⟨fun i hdec => engineStep_of_command hpend hdec, fun e hdec => engineStep_of_illegal hpend hdec⟩⟩
  · exact fun h => h ▸ decode_encode .geom
  · exact fun h => h ▸ decode_encode .detileY
  · exact fun h => h ▸ decode_encode .detileUV
  · exact fun h => h ▸ decode_encode .crop
  · exact fun h => h ▸ decode_encode .planar
  · exact fun h => h ▸ decode_encode .frame
  · cases hdec : decode w with
    | error e => exact ⟨e, rfl⟩
    | ok i => exact absurd (encode_of_decode w i hdec ▸ encode_mem_legalWords i) hnot

/-- Settles O4: each word of the table is the encoding of its command, or reserved (R68, R72). -/
theorem tableWordsDecode : Obligations.TableWordsDecode :=
  ⟨rfl, rfl, rfl, rfl, rfl⟩

end Sys2Proof.Machine
end

section
/-! PROOF of O38, O54, O47: the lines of a host script, CMD, CHECK, FILL and the read of a byte of M. -/

namespace Sys2Proof.Machine

open Sys2Proof.Claims

/-! ## CMD (R78) -/

theorem lineMove_cmd (p : Params) (i : Instr) : lineMove p (.cmd i) = lineMove p (.wr .cmd (encode i)) := rfl

/-- Settles O38: each mnemonic's word is its encoding, and the write of CMD is O36's clause for offset 0x1C (R28, R78). -/
theorem commandLinesIssueTheirWord : Obligations.CommandLinesIssueTheirWord := by
  refine ⟨fun p i w hmem => ?_, fun p n => rfl, fun s rest w hidle turn => ?_⟩
  · have hword : encode i = w := by fin_cases hmem <;> rfl
    rw [lineMove_cmd, hword]
  · obtain ⟨-, -, idle⟩ := registerWritesFollowTheTable s rest 0x1C w (by decide) (by decide) turn
    obtain ⟨-, -, -, -, -, -, hissue, -⟩ := idle hidle
    exact hissue rfl

/-! ## CHECK (R77) -/

/-- The value of an observation that is a read of this window offset. -/
def valueRead (off : Nat) : Observation → Option Word
  | .reg o v => if o = off then some v else none
  | .mem _ _ => none
  | .check _ => none

theorem valueRead_eq_some_iff (off : Nat) (o : Observation) (v : Word) :
    valueRead off o = some v ↔ o = .reg off v := by
  cases o <;> simp [valueRead]

/-- The last read is the newest observation that is a read of the offset. -/
theorem lastRead_eq_findSome? (off : Nat) (seen : List Observation) :
    lastRead off seen = seen.findSome? (valueRead off) := by
  induction seen with
  | nil => rfl
  | cons o older ih =>
    cases o with
    | reg o v => by_cases h : o = off <;> simp [lastRead, valueRead, h, ih]
    | mem a b => exact ih
    | check ok => exact ih

theorem lastRead_eq_some_iff (off : Nat) (seen : List Observation) (v : Word) :
    lastRead off seen = some v ↔
      ∃ newer older, seen = newer ++ .reg off v :: older ∧ ∀ x, .reg off x ∉ newer := by
  have hnone : ∀ newer : List Observation,
      (∀ o ∈ newer, valueRead off o = none) ↔ ∀ x, .reg off x ∉ newer := by
    intro newer
    simp only [Option.eq_none_iff_forall_ne_some, ne_eq, valueRead_eq_some_iff]
    exact ⟨fun h x hx => h _ hx x rfl, fun h o ho x heq => h x (heq ▸ ho)⟩
  simp only [lastRead_eq_findSome?, List.findSome?_eq_some_iff, valueRead_eq_some_iff, hnone]
  constructor
  · rintro ⟨newer, _, older, hseen, rfl, hnewest⟩
    exact ⟨newer, older, hseen, hnewest⟩
  · rintro ⟨newer, older, hseen, hnewest⟩
    exact ⟨newer, _, older, hseen, rfl, hnewest⟩

/-- Settles O54: a CHECK adds its outcome to the record, and `lastRead_eq_some_iff` tells what the last read is (R77). -/
theorem checkHasNoBusEffect : Obligations.CheckHasNoBusEffect := by
  intro s r v rest
  refine ⟨fun turn => ?_, fun turn => ?_, lastRead_eq_some_iff _ _ _⟩
  · rw [step_of_hostTurn turn]
    simp only [lineMove, hostMove, hostCheck, readReg_moving]
    rfl
  · rw [step_of_hostTurn turn]
    rfl

/-! ## FILL, and a read of M (R50, R79) -/

/-- With nothing pending the engine owns no byte (R61). -/
theorem ownedByEngine_of_idle {s : State} (hpend : s.pending = none) (a : Nat) : ownedByEngine s a = false := by
  simp [ownedByEngine, pendingWindows, pendingCommand, hpend]

section
variable {s : State} {a : Nat} {b : Byte} {data : List Byte} {rest : List HostMove}

theorem step_fill_nothing (turn : hostTurn s (.fill a []) rest) : step s = .next (moving s rest) := by
  rw [step_of_hostTurn turn, hostMove, hostFill]

/-- A host access to a byte that does not exist is a fault (R50; log 12). -/
theorem step_faults_beyondM (ha : s.params.memBytes ≤ a) :
    (hostTurn s (.fill a (b :: data)) rest → step s = .fault .noSuchByte) ∧
    (hostTurn s (.memRead a) rest → step s = .fault .noSuchByte) := by
  have hmay : ∀ k, hostMayTouch (moving s rest) a k = .fault .noSuchByte := fun k => if_pos ha
  refine ⟨fun turn => ?_, fun turn => ?_⟩
  · rw [step_of_hostTurn turn, hostMove, hostFill, hmay]
  · rw [step_of_hostTurn turn, hostMove, hostMemRead, hmay]

end

/-- Settles O47: with nothing pending the host reaches every existing byte of ordinary memory, one byte a step (R50, R79). -/
theorem fillWritesItsBytesInOrder : Obligations.FillWritesItsBytesInOrder := by
  intro s a b data rest hpend _ hdev
  exact ⟨fun ha => (step_touches_unowned hdev ha (ownedByEngine_of_idle hpend a)).symm, step_fill_nothing,
    step_faults_beyondM⟩

end Sys2Proof.Machine
end

section
/-! PROOF of O51. Each step from a WAIT ends it or leaves it the host's next move with one turn fewer; when no turn is named, the engine ends the pending command and the host's next read of STATUS ends the WAIT. -/

namespace Sys2Proof.Machine

open Sys2Proof.Claims

/-! ## The engine's step -/

/-- A command ends and leaves the host's script and the turns alone (R146, R147). -/
theorem exec_ends {i : Instr} {s t : State} (h : exec i s = .next t) :
    t.busy = false ∧ t.script = s.script ∧ t.turns = s.turns := by
  obtain ⟨-, -, rfl⟩ | ⟨-, -, rfl⟩ | ⟨-, e, -, rfl⟩ | ⟨-, -, -, rfl⟩ := exec_next i s t h
  all_goals exact ⟨rfl, rfl, rfl⟩

/-- Without devices the engine's step answers, with BUSY = 0 and the host's side as it was (R173). -/
theorem engineStep_ends {s : State} (hbusy : s.busy = s.pending.isSome) (hdev : s.params.devices = []) :
    ∃ t, engineStep s = .next t ∧ t.busy = false ∧ t.script = s.script ∧ t.turns = s.turns := by
  cases hpend : s.pending with
  | none =>
    rw [hpend] at hbusy
    exact ⟨s, by simp only [engineStep, hpend], hbusy, rfl, rfl⟩
  | some w =>
    cases hdec : decode w with
    | error e => exact ⟨_, engineStep_of_illegal hpend hdec, rfl, rfl, rfl⟩
    | ok i =>
      obtain ⟨t, ht⟩ := (commandsStopOnlyOverDevices s i).1 hdev
      exact ⟨t, (engineStep_of_command hpend hdec).trans ht, exec_ends ht⟩

/-! ## A WAIT that is the host's next move -/

/-- A state of the invariant, without devices, in which WAIT is the host's next move and `rest` follows it. -/
structure Waiting (s : State) (rest : List HostMove) : Prop where
  inv : s.Inv = true
  noDevices : s.params.devices = []
  script : s.script = .wait :: rest

/-- Within `n` steps of the machine the host has only `rest` left to do, with BUSY = 0. -/
def PassesWithin (n : Nat) (s : State) (rest : List HostMove) : Prop :=
  ∃ k t, k ≤ n ∧ Host.Core.run Sys2Proof.core k s = .next t ∧ t.script = rest ∧ t.busy = false

theorem run_succ_of_step {M : Host.Core} {s t : M.State} (k : Nat) (hstep : M.step s = .next t) :
    M.run (k + 1) s = M.run k t := by
  simp only [Host.Core.run, hstep]

theorem PassesWithin.of_step {n : Nat} {s t : State} {rest : List HostMove} (hstep : step s = .next t)
    (h : PassesWithin n t rest) : PassesWithin (n + 1) s rest := by
  obtain ⟨k, u, hk, hrun, hu⟩ := h
  exact ⟨k + 1, u, Nat.succ_le_succ hk, (run_succ_of_step (M := Sys2Proof.core) k hstep).trans hrun, hu⟩

namespace Waiting

variable {s t : State} {rest : List HostMove}

theorem busy_eq (h : Waiting s rest) : s.busy = s.pending.isSome := by
  obtain ⟨-, hflags, -, -, -⟩ := (State.Inv_iff s).1 h.inv
  obtain ⟨hbusy, -⟩ := (State.flagsOk_iff s).1 hflags
  exact hbusy

theorem of_step (h : Waiting s rest) (hstep : step s = .next t) (hscript : t.script = s.script) : Waiting t rest where
  inv := everyStepKeepsTheInvariant s t h.inv hstep
  noDevices := (step_keeps_params hstep).symm ▸ h.noDevices
  script := hscript.trans h.script

/-- The order of turns (log 4): the agent named, and when none is, the engine while BUSY = 1. -/
theorem mover_eq (h : Waiting s rest) :
    s.mover = s.turns.headD (if s.busy then .engine else .host) := by
  rw [h.busy_eq, State.mover]
  cases s.turns <;> rfl

/-- On the engine's turn the pending command, if any, ends and the WAIT still stands. -/
theorem step_engine (h : Waiting s rest) (turn : s.mover = .engine) :
    ∃ t, step s = .next t ∧ Waiting t rest ∧ t.busy = false ∧ t.turns = s.turns.tail := by
  obtain ⟨t, hengine, hidle, hscript, hturns⟩ := engineStep_ends (s := s.tick) h.busy_eq h.noDevices
  have hstep : step s = .next t := by simp only [step, turn, hengine]
  exact ⟨t, hstep, h.of_step hstep hscript, hidle, hturns⟩

theorem step_host (h : Waiting s rest) (turn : s.mover = .host) :
    step s = .next (hostWait (moving s rest)) :=
  step_of_hostTurn ⟨turn, h.script⟩

/-- A read of STATUS that gives BUSY = 1 leaves the WAIT standing (R79). -/
theorem step_host_busy (h : Waiting s rest) (turn : s.mover = .host) (hbusy : s.busy = true) :
    ∃ t, step s = .next t ∧ Waiting t rest ∧ t.turns = s.turns.tail := by
  have hwait : hostWait (moving s rest) = { (moving s rest).observe (.reg 0x20 (readOffset (moving s rest) 0x20)) with
      script := .wait :: rest } := if_pos hbusy
  refine ⟨_, h.step_host turn, h.of_step (h.step_host turn) ?_, ?_⟩
  · rw [hwait, h.script]
  · rw [hwait]
    rfl

/-- A read of STATUS that gives BUSY = 0 ends the WAIT (R79). -/
theorem passes_of_idle (h : Waiting s rest) (turn : s.mover = .host) (hidle : s.busy = false) (n : Nat) :
    PassesWithin (n + 1) s rest := by
  have hwait : hostWait (moving s rest) = (moving s rest).observe (.reg 0x20 (readOffset (moving s rest) 0x20)) :=
    if_neg (by simp [moving, hidle])
  refine .of_step (h.step_host turn) ⟨0, _, Nat.zero_le n, rfl, ?_⟩
  rw [hwait]
  exact ⟨rfl, hidle⟩

/-- Each named turn takes one step; after them the engine takes at most one, and the host one. -/
theorem passes (h : Waiting s rest) : PassesWithin (s.turns.length + 2) s rest := by
  generalize hturns : s.turns = turns
  have turn := h.mover_eq
  rw [hturns] at turn
  induction turns generalizing s with
  | nil =>
    cases hbusy : s.busy with
    | false => exact h.passes_of_idle (by rw [turn, hbusy]; rfl) hbusy 1
    | true =>
      obtain ⟨t, hstep, ht, hidle, htail⟩ := h.step_engine (by rw [turn, hbusy]; rfl)
      rw [hturns] at htail
      exact .of_step hstep (ht.passes_of_idle (by rw [ht.mover_eq, htail, hidle]; rfl) hidle 0)
  | cons agent turns ih =>
    have goOn : ∀ t, step s = .next t → Waiting t rest → t.turns = s.turns.tail →
        PassesWithin (turns.length + 1 + 2) s rest := by
      intro t hstep ht htail
      rw [hturns, List.tail_cons] at htail
      exact .of_step hstep (ih ht htail (htail ▸ ht.mover_eq))
    cases agent with
    | engine =>
      obtain ⟨t, hstep, ht, -, htail⟩ := h.step_engine turn
      exact goOn t hstep ht htail
    | host =>
      cases hbusy : s.busy with
      | false => exact h.passes_of_idle turn hbusy _
      | true =>
        obtain ⟨t, hstep, ht, htail⟩ := h.step_host_busy turn hbusy
        exact goOn t hstep ht htail

end Waiting

/-- Settles O51: `Waiting.passes` (R79, R173; the bound rests on log 4). -/
theorem waitEnds : Obligations.WaitEnds := fun _ _ hinv hdev hscript =>
  Waiting.passes ⟨hinv, hdev, hscript⟩

end Sys2Proof.Machine
end

section
/-! PROOF of O9, O12, O13: GEOM answers one of two states, `geomLatch` or `geomReject`, and what each of them says. -/

namespace Sys2Proof.Machine

open Sys2Proof.Claims

/-! ## What GEOM answers -/

/-- GEOM always answers, and its answer rests on the check of R96 alone (R95, R96). -/
theorem exec_geom (s : State) : exec .geom s =
    .next (if geomLegal s.params.maxDim s.width.toNat s.height.toNat then geomLatch s else geomReject s) := by
  simp only [exec, execGeom]
  split <;> rfl

/-- `exec_geom` as a case split, for an answer at hand. -/
theorem exec_geom_next {s t : State} (h : exec .geom s = .next t) :
    (geomLegal s.params.maxDim s.width.toNat s.height.toNat = true ∧ t = geomLatch s) ∨
    (geomLegal s.params.maxDim s.width.toNat s.height.toNat = false ∧ t = geomReject s) := by
  rw [exec_geom] at h
  cases h
  split_ifs with legal
  · exact .inl ⟨legal, rfl⟩
  · exact .inr ⟨Bool.eq_false_of_not_eq_true legal, rfl⟩

theorem geomLatch_eq (s : State) : geomLatch s =
    { finished s s.mem with g := describe s.width.toNat s.height.toNat, geomValid := true } := rfl

theorem geomReject_eq (s : State) : geomReject s =
    { failed s 2 with g := ⟨0, 0, 0, 0, 0, 0, 0, 0, 0, 0, 0, 0, 0, 0, 0, 0⟩, geomValid := false } := rfl

/-- R99: GEOM writes no memory. -/
theorem exec_geom_keeps_mem (s t : State) (h : exec .geom s = .next t) : t.mem = s.mem := by
  obtain ⟨-, rfl⟩ | ⟨-, rfl⟩ := exec_geom_next h
  · rfl
  · rfl

/-- A GEOM that leaves GEOM_VALID set latched the descriptor of dimensions within R94's bounds. -/
theorem exec_geom_valid {s t : State} (hmax : s.params.maxDim ≤ 16384) (h : exec .geom s = .next t)
    (hvalid : t.geomValid = true) :
    t.g = describe s.width.toNat s.height.toNat ∧ 1 ≤ s.width.toNat ∧ 1 ≤ s.height.toNat ∧
      s.width.toNat ≤ 16384 ∧ s.height.toNat ≤ 16384 := by
  obtain ⟨legal, rfl⟩ | ⟨-, rfl⟩ := exec_geom_next h
  · obtain ⟨hw, hh, hwmax, hhmax⟩ := (geomLegal_iff _ _ _).1 legal
    exact ⟨rfl, hw, hh, hwmax.trans hmax, hhmax.trans hmax⟩
  · cases hvalid

/-- Settles O9: `exec_geom` on either side of R96's check, and `describe_toNat` with the formulas of R95 written out. -/
theorem geomLatchesOrRejects : Obligations.GeomLatchesOrRejects := by
  intro s hmax w h
  have legal_iff := geomLegal_iff s.params.maxDim w h
  constructor
  · intro hbad
    have illegal : ¬ geomLegal s.params.maxDim w h = true := by
      rw [legal_iff]
      omega
    rw [exec_geom, if_neg illegal, geomReject_eq]
  · intro hgood
    have legal : geomLegal s.params.maxDim w h = true := legal_iff.2 (by omega)
    have values := describe_toNat w h (by omega) (by omega)
    simp only [planeSize, boundaryPadding, linearFrameBytes, dstWindowBytes, uvOffset, wTiles, hTilesChroma, hTiles,
      paddedWidth_eq, paddedHeight_eq] at values
    exact ⟨geomLatch s, by rw [exec_geom, if_pos legal], geomLatch_eq s, values⟩

/-- Settles O12: the answer of `exec_geom` names WIDTH, HEIGHT and MAX_DIM only, and keeps all three (R99). -/
theorem geomIsPure : Obligations.GeomIsPure := by
  refine ⟨exec_geom_keeps_mem, fun s u t v hw hh hmax hs hu => ?_, fun s t h => ?_⟩
  · rw [exec_geom] at hs hu
    rw [hw, hh, hmax] at hu
    cases hs
    cases hu
    split_ifs
    · refine ⟨?_, rfl, rfl, rfl, rfl⟩
      rw [geomLatch_eq, geomLatch_eq, hw, hh]
    · exact ⟨rfl, rfl, rfl, rfl, rfl⟩
  · rw [exec_geom]
    obtain ⟨legal, rfl⟩ | ⟨illegal, rfl⟩ := exec_geom_next h
    · exact congrArg _ (if_pos legal)
    · exact congrArg _ (if_neg (ne_true_of_eq_false illegal))

/-! ## No descriptor -/

/-- While GEOM_VALID = 0 every command but GEOM fails with NO_GEOMETRY and changes nothing else (R140, R144). -/
theorem exec_without_descriptor (s : State) (i : Instr) (hvalid : s.geomValid = false) (hi : i ≠ .geom) :
    exec i s = .next (failed s 3) := by
  have he : windowError s i = some .noGeometry := by simp [windowError, hvalid]
  rw [exec_eq_runCommand i s hi, runCommand_error i _ s _ he]
  rfl

/-- While GEOM_VALID = 0 only a GEOM on legal dimensions sets it (R29, R97). -/
theorem step_keeps_geomValid_clear {s t : State} (hvalid : s.geomValid = false) (hstep : step s = .next t) :
    t.geomValid = false ∨ (s.mover = .engine ∧ s.pending = some (encode .geom) ∧ t = geomLatch s.tick) := by
  cases stepEffect_of_step hstep with
  | quiet | raise | complete | fill => exact .inl hvalid
  | reject | reset => exact .inl rfl
  | latch turn word => exact .inr ⟨turn, word, rfl⟩
  | write off d rest =>
    obtain hsame | ⟨hfalls, -, -⟩ := writeOffset_geomValid (moving s rest) off d
    · exact .inl (hsame.trans hvalid)
    · exact .inl hfalls

/-- Settles O13: ERR tells that GEOM answered `geomReject`; the rest is `step_keeps_geomValid_clear` and
`exec_without_descriptor` (R97). -/
theorem failedGeomLeavesNoDescriptor : Obligations.FailedGeomLeavesNoDescriptor := by
  refine ⟨fun s t h herr => ?_, fun s t hvalid hstep => ?_, exec_without_descriptor, exec_geom_keeps_mem⟩
  · obtain ⟨-, rfl⟩ | ⟨-, rfl⟩ := exec_geom_next h
    · cases herr
    · exact ⟨geomReject_eq s, fun i w hi => exec_without_descriptor ((geomReject s).issue w) i rfl hi⟩
  · obtain hclear | ⟨turn, word, rfl⟩ := step_keeps_geomValid_clear hvalid hstep
    · exact .inl hclear
    · exact .inr ⟨turn, word, rfl, rfl⟩

end Sys2Proof.Machine
end

section
/-! PROOF of O10, O11: the derived facts and the bounds of a legal geometry, item by item on the functions of R80 … R92. -/

namespace Sys2Proof.Machine

/-! ## The derived facts (R93) -/

theorem wTiles_ge_two {w : Nat} (hw : 1 ≤ w) : 2 ≤ wTiles w := by
  rw [wTiles_eq]
  omega

theorem hTiles_pos {h : Nat} (hh : 1 ≤ h) : 1 ≤ hTiles h := by
  rw [hTiles_eq]
  omega

/-- R93 item 2. -/
theorem paddedWidth_of_aligned {w : Nat} (hw : w % 128 = 0) : paddedWidth w = w := by
  rw [paddedWidth_eq]
  omega

/-- R93 item 2. -/
theorem paddedHeight_of_aligned {h : Nat} (hh : h % 32 = 0) : paddedHeight h = h := by
  rw [paddedHeight_eq]
  omega

/-- R93 item 3: a legal frame has no chroma rows only when it is one row high. -/
theorem hTilesChroma_eq_zero_iff {h : Nat} (hh : 1 ≤ h) : hTilesChroma h = 0 ↔ h = 1 := by
  rw [hTilesChroma_eq]
  omega

/-- R93 item 3: a plane without tiles is empty. -/
theorem planeSize_zero (wT : Nat) : planeSize wT 0 = 0 := by
  simp [planeSize, boundaryPadding]

/-- R93 item 4: an even number of columns leaves 0 or 2 tiles over a multiple of 4. -/
theorem tiles_mod_four (w hT : Nat) : wTiles w * hT % 4 = 0 ∨ wTiles w * hT % 4 = 2 := by
  rw [wTiles_eq, Nat.mul_assoc]
  omega

/-- R93 item 4: a plane is padded, by two tiles, exactly when its column pairs and its rows of tiles are both odd in number. -/
theorem planeSize_wTiles (w hT : Nat) : planeSize (wTiles w) hT =
    wTiles w * hT * 2048 + (if wTiles w / 2 % 2 = 1 ∧ hT % 2 = 1 then 4096 else 0) := by
  have half : wTiles w / 2 = (w + 127) / 128 := by
    rw [wTiles_eq]
    omega
  rw [half, planeSize, wTiles_eq, boundaryPadding_cases, tileBytes]

/-- R93 item 5. -/
theorem linear_eq_luma_add (w h : Nat) : linearFrameBytes w h = w * h + w * h / 2 := by
  unfold linearFrameBytes
  omega

/-- R93 item 6: on an odd height the crop leaves out half a row. -/
theorem linear_eq_crop_add (w h : Nat) : linearFrameBytes w h = h * 3 / 2 * w + h % 2 * w / 2 := by
  have hrows : h * 3 = 2 * (h * 3 / 2) + h % 2 := by omega
  have hbytes : w * h * 3 = 2 * (h * 3 / 2 * w) + h % 2 * w := by
    calc w * h * 3 = (h * 3) * w := by ring
      _ = (2 * (h * 3 / 2) + h % 2) * w := by rw [← hrows]
      _ = _ := by ring
  unfold linearFrameBytes
  omega

/-- R93 item 6. -/
theorem crop_of_linear {w : Nat} (h : Nat) (hw : 1 ≤ w) :
    h * 3 / 2 * w ≤ linearFrameBytes w h ∧ (h * 3 / 2 * w = linearFrameBytes w h ↔ h % 2 = 0 ∨ w = 1) ∧
      (h % 2 = 1 → 2 ≤ w → linearFrameBytes w h - h * 3 / 2 * w = w / 2) := by
  rw [linear_eq_crop_add]
  rcases Nat.mod_two_eq_zero_or_one h with heven | hodd
  · rw [heven]
    omega
  · rw [hodd]
    omega

/-- R93 item 7: the chroma planes hold two whole quarters of the luma plane. -/
theorem planes_of_linear (w h : Nat) :
    w * h + 2 * (w * h / 4) ≤ linearFrameBytes w h ∧
      (w * h + 2 * (w * h / 4) = linearFrameBytes w h ↔ w * h % 4 = 0 ∨ w * h % 4 = 1) := by
  rw [linear_eq_luma_add]
  omega

/-- R93 item 8. -/
theorem chromaRows_le (h : Nat) : h / 2 ≤ 32 * hTilesChroma h := by
  rw [hTilesChroma_eq]
  omega

/-- R93 item 9: the luma raster alone takes a pair of tiles. -/
theorem dstWindow_ge {w h : Nat} (hw : 1 ≤ w) (hh : 1 ≤ h) : 4096 ≤ dstWindowBytes w h := by
  have hpw : 128 ≤ paddedWidth w := by
    rw [paddedWidth_eq]
    omega
  have hph : 32 ≤ paddedHeight h := by
    rw [paddedHeight_eq]
    omega
  calc 4096 ≤ paddedWidth w * paddedHeight h := Nat.mul_le_mul hpw hph
    _ ≤ dstWindowBytes w h := (Nat.le_max_left _ _).trans (Nat.le_max_left _ _)

/-- R93 item 9: a pair of tiles is padded to four. -/
theorem luma_ge {w h : Nat} (hw : 1 ≤ w) (hh : 1 ≤ h) : 8192 ≤ planeSize (wTiles w) (hTiles h) := by
  have htiles : 2 * 1 ≤ wTiles w * hTiles h := Nat.mul_le_mul (wTiles_ge_two hw) (hTiles_pos hh)
  unfold planeSize boundaryPadding tileBytes padMod
  omega

/-- R93 item 9. -/
theorem linear_pos {w h : Nat} (hw : 1 ≤ w) (hh : 1 ≤ h) : 1 ≤ linearFrameBytes w h := by
  have harea : 1 * 1 ≤ w * h := Nat.mul_le_mul hw hh
  rw [linear_eq_luma_add]
  omega

/-- Settles O10: the items of R93, each by its lemma, over the numbers of `describe_toNat`. -/
theorem geomResultHasTheDerivedFacts : Obligations.GeomResultHasTheDerivedFacts := by
  intro s t hmax hexec hvalid
  obtain ⟨hg, hw, hh, hwmax, hhmax⟩ := exec_geom_valid hmax hexec hvalid
  have hreads := (describe_facts _ _ hwmax hhmax).cropReads
  have values := describe_toNat _ _ hwmax hhmax
  rw [hg]
  generalize s.width.toNat = w at *
  generalize s.height.toNat = h at *
  obtain ⟨e1, e2, e3, e4, e5, e6, e7, e8, e9, e10, e11, e12, e13, e14, -, e16⟩ := values
  simp only [e1, e2, e3, e4, e5, e6, e7, e8, e9, e10, e11, e12, e13, e14, e16] at hreads ⊢
  exact ⟨⟨wTiles_even w, wTiles_ge_two hw, wTiles_stride w, hTiles_pos hh, hTiles_rows h⟩,
    ⟨paddedWidth_of_aligned, paddedHeight_of_aligned⟩,
    ⟨hTilesChroma_eq_zero_iff hh, fun hempty => by rw [hempty, planeSize_zero]⟩,
    ⟨tiles_mod_four w _, tiles_mod_four w _, planeSize_wTiles w _, planeSize_wTiles w _⟩,
    linear_eq_luma_add w h, crop_of_linear h hw, planes_of_linear w h, ⟨hreads, chromaRows_le h⟩,
    dstWindow_ge hw hh, (luma_ge hw hh).trans (Nat.le_add_right _ _), linear_pos hw hh⟩

/-! ## The bounds (R94) -/

/-- R94: a plane's padding is at most two tiles. -/
theorem planeSize_padding_le (w hT : Nat) : planeSize (wTiles w) hT ≤ wTiles w * hT * 2048 + 4096 := by
  rw [planeSize_wTiles]
  split <;> omega

/-- Settles O11: the bounds of R94 over the numbers of `describe_toNat`; at 16384×16384 the functions are evaluated. -/
theorem geomResultFitsItsRegisters : Obligations.GeomResultFitsItsRegisters := by
  intro s t hmax hexec hvalid
  obtain ⟨hg, -, -, hw, hh⟩ := exec_geom_valid hmax hexec hvalid
  have values := describe_toNat _ _ hw hh
  rw [hg]
  generalize s.width.toNat = w at *
  generalize s.height.toNat = h at *
  obtain ⟨e1, e2, e3, e4, e5, e6, e7, e8, e9, e10, e11, e12, e13, e14, e15, e16⟩ := values
  have hpWidth := paddedWidth_le w hw
  have hpHeight := paddedHeight_le h hh
  have hwTiles := wTiles_le w hw
  have hhTiles := hTiles_le h hh
  have hhTilesC := hTilesChroma_le h hh
  have hluma := luma_le w h hw hh
  have hchroma := chroma_le w h hw hh
  have hlinear := linear_le w h hw hh
  have hdstWindow := dstWindow_le w h hw hh
  have harea := area_le w h hw hh
  have huvOffset := uvOffset_le w h hw hh
  simp only [List.forall_mem_cons, List.not_mem_nil, IsEmpty.forall_iff, implies_true, and_true, e1, e2, e3, e4, e5, e6,
    e7, e8, e9, e10, e11, e12, e13, e14, e15, e16]
  refine ⟨?fits, hpWidth, hpHeight, hwTiles, hhTiles, hhTilesC, hluma, hchroma, by omega, hlinear, hdstWindow, ?attained,
    planeSize_padding_le w _, planeSize_padding_le w _⟩
  case fits => and_intros <;> omega
  case attained =>
    rintro rfl rfl
    decide

end Sys2Proof.Machine
end

section
/-! PROOF of O14, O15: the tile order, from the positions of a pair's tiles and of the remainder row, and its inverse `tileIndex`. -/

namespace Sys2Proof.Machine

/-- Settles O14: `tilePos_pair` at the four tiles of a Z step, and `tilePos_remainder` (R103, R104, R105). -/
theorem tileOrderIsTheZScan : Obligations.TileOrderIsTheZScan := by
  intro wT hT hw
  refine ⟨fun p z hp hz => ?_, fun _ i _ => tilePos_remainder wT hT i⟩
  have tile : ∀ k, k < 4 → tilePos wT hT (p * (2 * wT) + 4 * z + k) =
      (if z % 2 = 0 then 2 * p + k / 2 else 2 * p + 1 - k / 2, 2 * z + k % 2) := fun k hk => by
    rw [Nat.add_assoc, tilePos_pair wT hT p z k hw hp hz hk]
  constructor
  · intro even
    simp only [if_pos even] at tile
    exact ⟨tile 0 (by decide), tile 1 (by decide), tile 2 (by decide), tile 3 (by decide)⟩
  · intro odd
    have notEven : ¬ z % 2 = 0 := by omega
    simp only [if_neg notEven] at tile
    exact ⟨tile 0 (by decide), tile 1 (by decide), tile 2 (by decide), tile 3 (by decide)⟩

/-- Settles O15: `tileIndex` is the inverse of `tilePos` on both sides (R110). -/
theorem tileOrderIsABijection : Obligations.TileOrderIsABijection := by
  intro wT hT hw
  refine ⟨fun n => tilePos_inGrid wT hT n hw, fun n m hn hm same => ?_, fun row col hr hc => ?_⟩
  · calc n = tileIndex wT hT (tilePos wT hT n).1 (tilePos wT hT n).2 := (tileIndex_tilePos wT hT n hw hn).symm
      _ = tileIndex wT hT (tilePos wT hT m).1 (tilePos wT hT m).2 := by rw [same]
      _ = m := tileIndex_tilePos wT hT m hw hm
  · exact ⟨tileIndex wT hT row col, tileIndex_lt wT hT row col hw hr hc, tilePos_tileIndex wT hT row col hw hr hc⟩

end Sys2Proof.Machine
end

section
/-! SUPPORT for the commands that use windows: their checks and their answers in the words of the statements. -/

namespace Sys2Proof.Machine

open Sys2Proof.Claims

theorem not_inBounds (s : State) (w : Window) : (!inBounds w s.params.memBytes) = endsBeyondM s w := by
  simp only [inBounds, endsBeyondM, ← decide_not, Nat.not_le]

/-- The checks of R144 with the one of R56 as `endsBeyondM`. -/
theorem windowError_eq (s : State) (i : Instr) : windowError s i =
    if s.geomValid = false then some .noGeometry
    else if (usedWindows s i).any (endsBeyondM s) = true then some .bounds
    else if (overlapPairs s i).any (fun p => overlap p.1 p.2) = true then some .overlap
    else none := by
  simp only [windowError, not_inBounds, Bool.not_eq_true']

/-- A check that fails is the command's whole effect (R145, R146). -/
theorem exec_of_windowError {i : Instr} {s : State} {e : ErrCode} (hi : i ≠ .geom) (h : windowError s i = some e) :
    exec i s = .next (failed s e.code) := by
  rw [exec_eq_runCommand i s hi, runCommand_error i _ s e h]
  rfl

/-- With no check failing, over ordinary memory, the command's body and success (R147). -/
theorem exec_of_clear {i : Instr} {s : State} (hi : i ≠ .geom) (h : windowError s i = none)
    (ho : ordinary s (usedWindows s i) = true) : exec i s = .next (finished s (commandBody i s s.mem)) := by
  rw [exec_eq_runCommand i s hi, runCommand_success i _ s h ho]
  rfl

/-- ERR = 0 after a command that uses windows tells that no check failed. -/
theorem clear_of_err {i : Instr} {s t : State} (hi : i ≠ .geom) (h : exec i s = .next t) (herr : t.err = false) :
    windowError s i = none ∧ ordinary s (usedWindows s i) = true ∧ t = finished s (commandBody i s s.mem) := by
  obtain ⟨hgeom, -⟩ | ⟨hgeom, -⟩ | ⟨-, e, -, rfl⟩ | ⟨-, hclear, hord, rfl⟩ := exec_next i s t h
  · exact absurd hgeom hi
  · exact absurd hgeom hi
  · exact absurd herr nofun
  · exact ⟨hclear, hord, rfl⟩

end Sys2Proof.Machine
end

section
/-! PROOF of O16, O17, O18, O19: the two DETILE commands as one, over the plane each takes from its PLANE field. -/

namespace Sys2Proof.Machine

open Sys2Proof.Claims

/-! ## The copied plane, seen from the raster -/

section
variable {p : Plane} (even : p.wT % 2 = 0)
  (apart : ∀ a, inWindow p.srcRegion a = true → inWindow p.dstRegion a = false)
include even apart

/-- `lookup_detilePlane` at a position of the raster. -/
theorem lookup_detilePlane_at (m : Memory) {row col y x : Nat} (hr : row < p.hT) (hc : col < p.wT) (hy : y < 32)
    (hx : x < 64) : Memory.lookup (detilePlane p m) (p.dstByte row col y x) =
      some (Memory.read m (p.srcByte (tileIndex p.wT p.hT row col) y x)) := by
  have h := (lookup_detilePlane p m even apart).1 (tileIndex p.wT p.hT row col) y x
    (tileIndex_lt p.wT p.hT row col even hr hc) hy hx
  rwa [tilePos_tileIndex p.wT p.hT row col even hr hc] at h

/-- R107: memories that agree on the plane's tiles leave the same raster. -/
theorem read_detilePlane_congr {m m' : Memory}
    (agree : ∀ a, inWindow p.srcRegion a = true → Memory.read m' a = Memory.read m a) {a : Nat}
    (ha : inWindow p.dstRegion a = true) : Memory.read (detilePlane p m') a = Memory.read (detilePlane p m) a := by
  obtain ⟨row, col, y, x, hr, hc, hy, hx, rfl⟩ := p.dstRegion_cases a ha
  rw [read_detilePlane_at p m' even apart row col y x hr hc hy hx,
    read_detilePlane_at p m even apart row col y x hr hc hy hx]
  exact agree _ (p.srcByte_inRegion _ y x (tileIndex_lt p.wT p.hT row col even hr hc) hy hx)

/-- The tiles still stand in the source after the copy, so a second copy finds the raster in place (R111, R112). -/
theorem detilePlane_idempotent {m : Memory} (hwf : m.wf = true) :
    detilePlane p (detilePlane p m) = detilePlane p m := by
  have hwf' := wf_detilePlane p m hwf
  have tilesKept : ∀ a, inWindow p.srcRegion a = true → Memory.read (detilePlane p m) a = Memory.read m a :=
    fun a ha => (read_detilePlane p m even apart).2 a (apart a ha)
  refine Memory.ext_lookup _ _ (wf_detilePlane p _ hwf') hwf' fun a => ?_
  cases ha : inWindow p.dstRegion a with
  | false => exact (lookup_detilePlane p _ even apart).2 a ha
  | true =>
    obtain ⟨row, col, y, x, hr, hc, hy, hx, rfl⟩ := p.dstRegion_cases a ha
    rw [lookup_detilePlane_at even apart _ hr hc hy hx, lookup_detilePlane_at even apart _ hr hc hy hx, tilesKept]
    exact p.srcByte_inRegion _ y x (tileIndex_lt p.wT p.hT row col even hr hc) hy hx

end

/-! ## The two commands as one -/

/-- R100: the plane each DETILE works on. -/
inductive DetileOf (s : State) : Instr → Plane → Prop where
  | y : DetileOf s .detileY s.planeY
  | uv : DetileOf s .detileUV s.planeUV

namespace DetileOf

variable {s t v : State} {i : Instr} {p : Plane}

theorem ne_geom (h : DetileOf s i p) : i ≠ .geom := by
  cases h <;> exact nofun

theorem usedWindows_eq (h : DetileOf s i p) : usedWindows s i = [s.srcWin, s.dstWin] := by
  cases h <;> rfl

theorem overlapPairs_eq (h : DetileOf s i p) : overlapPairs s i = [(s.srcWin, s.dstWin)] := by
  cases h <;> rfl

theorem commandBody_eq (h : DetileOf s i p) (m : Memory) : commandBody i s m = detilePlane p m := by
  cases h <;> rfl

/-- Neither M nor the flags tell where a plane lies. -/
theorem finished_issue (h : DetileOf s i p) (m : Memory) (w : Word) : DetileOf ((finished s m).issue w) i p := by
  cases h
  · exact .y
  · exact .uv

theorem withMem (h : DetileOf s i p) (m : Memory) : DetileOf { s with mem := m } i p := by
  cases h
  · exact .y
  · exact .uv

/-- R80: an even number of tile columns. -/
theorem even (h : DetileOf s i p) (f : DescriptorFacts s.g) : p.wT % 2 = 0 := by
  cases h <;> exact f.even

/-- R57, R58: the tiles and the raster lie in windows that do not meet. -/
theorem apart (h : DetileOf s i p) (f : DescriptorFacts s.g) (hov : overlap s.srcWin s.dstWin = false) :
    ∀ a, inWindow p.srcRegion a = true → inWindow p.dstRegion a = false := by
  cases h
  · exact planeY_disjoint s f hov
  · exact planeUV_disjoint s f hov

theorem windowError_eq (h : DetileOf s i p) : windowError s i =
    if s.geomValid = false then some .noGeometry
    else if endsBeyondM s s.srcWin = true ∨ endsBeyondM s s.dstWin = true then some .bounds
    else if overlap s.srcWin s.dstWin = true then some .overlap
    else none := by
  rw [Machine.windowError_eq, h.usedWindows_eq, h.overlapPairs_eq]
  simp only [List.any_cons, List.any_nil, Bool.or_false, Bool.or_eq_true]

/-- The checks of a DETILE, one by one. -/
theorem clear_iff (h : DetileOf s i p) : windowError s i = none ↔
    s.geomValid = true ∧ endsBeyondM s s.srcWin = false ∧ endsBeyondM s s.dstWin = false ∧
      overlap s.srcWin s.dstWin = false := by
  rw [windowError_none, h.usedWindows_eq, h.overlapPairs_eq]
  simp [← not_inBounds, and_assoc]

/-- What the laws of `detilePlane` ask of the plane holds once the checks pass. -/
theorem even_and_apart (h : DetileOf s i p) (hinv : s.Inv = true) (clear : windowError s i = none) :
    p.wT % 2 = 0 ∧ ∀ a, inWindow p.srcRegion a = true → inWindow p.dstRegion a = false := by
  obtain ⟨valid, -, -, hov⟩ := h.clear_iff.1 clear
  have f := State.Inv_facts s hinv valid
  exact ⟨h.even f, h.apart f hov⟩

theorem exec_of_clear (h : DetileOf s i p) (clear : windowError s i = none) (hord : ordinary s (usedWindows s i) = true) :
    exec i s = .next (finished s (detilePlane p s.mem)) := by
  rw [Machine.exec_of_clear h.ne_geom clear hord, h.commandBody_eq]

theorem clear_of_err (h : DetileOf s i p) (hexec : exec i s = .next t) (herr : t.err = false) :
    windowError s i = none ∧ ordinary s (usedWindows s i) = true ∧ t = finished s (detilePlane p s.mem) := by
  rw [← h.commandBody_eq]
  exact Machine.clear_of_err h.ne_geom hexec herr

/-! ## The statements, for either plane -/

/-- R109, for one plane: the checks in order, then the laws of `detilePlane`. -/
theorem placesEveryTile (h : DetileOf s i p) (hinv : s.Inv = true) :
    detilesPlane s i p.wT p.hT p.srcBase p.dstBase := by
  refine ⟨fun hv => ?noGeometry, fun hv hb => ?bounds, fun hv hs hd ho => ?overlap, fun hv hs hd ho hord => ?success⟩
  case noGeometry => exact exec_without_descriptor s i hv h.ne_geom
  case bounds =>
    refine exec_of_windowError (e := .bounds) h.ne_geom ?_
    rw [h.windowError_eq, if_neg (by simp [hv]), if_pos hb]
  case overlap =>
    refine exec_of_windowError (e := .overlap) h.ne_geom ?_
    rw [h.windowError_eq, if_neg (by simp [hv]), if_neg (by simp [hs, hd]), if_pos ho]
  case success =>
    have clear := h.clear_iff.2 ⟨hv, hs, hd, ho⟩
    obtain ⟨even, apart⟩ := h.even_and_apart hinv clear
    obtain ⟨tiles, rest⟩ := read_detilePlane p s.mem even apart
    refine ⟨_, h.exec_of_clear clear (by rwa [h.usedWindows_eq]), rfl, tiles, fun a ha => rest a ?_⟩
    exact Bool.eq_false_of_not_eq_true fun hin => ha ((inWindow_iff _ _).1 hin)

/-- R107, for one plane and any other memory that holds the same tiles. -/
theorem read_raster_congr (h : DetileOf s i p) (hinv : s.Inv = true) {m : Memory}
    (agree : ∀ a, inWindow p.srcRegion a = true → m.read a = s.mem.read a)
    (hs : exec i s = .next t) (hm : exec i { s with mem := m } = .next v) (herr : t.err = false)
    (a : Nat) (ha : inWindow p.dstRegion a = true) : v.mem.read a = t.mem.read a := by
  obtain ⟨clear, hord, rfl⟩ := h.clear_of_err hs herr
  obtain ⟨even, apart⟩ := h.even_and_apart hinv clear
  have hexec := (h.withMem m).exec_of_clear clear hord
  cases hm.symm.trans hexec
  exact read_detilePlane_congr even apart agree ha

/-- R112, for one plane. -/
theorem exec_again (h : DetileOf s i p) (hinv : s.Inv = true) (hexec : exec i s = .next t) (herr : t.err = false)
    (w : Word) : exec i (t.issue w) = .next t := by
  obtain ⟨clear, hord, rfl⟩ := h.clear_of_err hexec herr
  obtain ⟨even, apart⟩ := h.even_and_apart hinv clear
  obtain ⟨-, -, -, -, hmem⟩ := (State.Inv_iff s).1 hinv
  obtain ⟨hwf, -⟩ := (State.memOk_iff s).1 hmem
  have hagain := (h.finished_issue (detilePlane p s.mem) w).exec_of_clear clear hord
  have hsame : detilePlane p ((finished s (detilePlane p s.mem)).issue w).mem = detilePlane p s.mem :=
    detilePlane_idempotent even apart hwf
  rw [hagain, hsame]
  rfl

end DetileOf

/-- R113: a DETILE that places every tile undoes the re-tiler, since every byte of the raster is a byte of some tile (R110). -/
theorem restoresRaster_of_detilesPlane {s : State} {i : Instr} {wT hT srcBase dstBase : Nat} (even : wT % 2 = 0)
    (hv : s.geomValid = true) (hs : endsBeyondM s s.srcWin = false) (hd : endsBeyondM s s.dstWin = false)
    (ho : overlap s.srcWin s.dstWin = false) (hord : ordinary s [s.srcWin, s.dstWin] = true)
    (h : detilesPlane s i wT hT srcBase dstBase) : restoresRaster s i wT hT srcBase dstBase := by
  intro R retiled
  obtain ⟨-, -, -, success⟩ := h
  obtain ⟨t, hexec, -, tiles, -⟩ := success hv hs hd ho hord
  refine ⟨t, hexec, fun r c hr hc => ?_⟩
  obtain ⟨n, hn, hpos⟩ := (tileOrderIsABijection wT hT even).2.2 (r / 32) (c / 64) (by omega) (by omega)
  have hy : r % 32 < 32 := Nat.mod_lt r (by decide)
  have hx : c % 64 < 64 := Nat.mod_lt c (by decide)
  have copied := tiles n (r % 32) (c % 64) hn hy hx
  rw [retiled n _ _ hn hy hx, hpos, Nat.add_assoc _ (c / 64 * 64)] at copied
  simpa only [Nat.div_add_mod'] using copied

/-- Settles O16: `DetileOf.placesEveryTile` for both planes (R100, R101, R102, R109). -/
theorem detilePlacesEveryTile : Obligations.DetilePlacesEveryTile := fun _ hinv =>
  ⟨DetileOf.y.placesEveryTile hinv, DetileOf.uv.placesEveryTile hinv⟩

/-- Settles O17: `restoresRaster_of_detilesPlane` for both planes (R113). -/
theorem detileRestoresARetiledRaster : Obligations.DetileRestoresARetiledRaster := by
  intro s hinv hv hs hd ho hord
  have f := State.Inv_facts s hinv hv
  obtain ⟨luma, chroma⟩ := detilePlacesEveryTile s hinv
  exact ⟨restoresRaster_of_detilesPlane f.even hv hs hd ho hord luma,
    restoresRaster_of_detilesPlane f.even hv hs hd ho hord chroma⟩

/-- Settles O18: `DetileOf.read_raster_congr`, with the two regions of each plane as address bounds (R107). -/
theorem detileReadsOnlyThePlanesTiles : Obligations.DetileReadsOnlyThePlanesTiles := by
  intro s u t v hinv _ hsame
  rw [hsame]
  refine ⟨fun agree hs hu herr a hge hlt => ?luma, fun agree hs hu herr a hge hlt => ?chroma⟩
  case luma =>
    refine DetileOf.y.read_raster_congr hinv (fun a ha => ?_) hs hu herr a ((inWindow_iff _ _).2 ⟨hge, hlt⟩)
    obtain ⟨hge, hlt⟩ := (inWindow_iff _ _).1 ha
    exact agree a hge hlt
  case chroma =>
    refine DetileOf.uv.read_raster_congr hinv (fun a ha => ?_) hs hu herr a ((inWindow_iff _ _).2 ⟨hge, hlt⟩)
    obtain ⟨hge, hlt⟩ := (inWindow_iff _ _).1 ha
    exact agree a hge hlt

/-- Settles O19: `DetileOf.exec_again` for both planes (R112). -/
theorem detileAgainChangesNothing : Obligations.DetileAgainChangesNothing := by
  rintro s t i w hinv (rfl | rfl) hexec herr
  · exact DetileOf.y.exec_again hinv hexec herr w
  · exact DetileOf.uv.exec_again hinv hexec herr w

end Sys2Proof.Machine
end

section
/-! PROOF of O20: CROP's two checks, and its body by the closed form `read_cropBody`. -/

namespace Sys2Proof.Machine

open Sys2Proof.Claims

/-- CROP checks for a descriptor and the bounds of DST_WIN only, never for overlap (R114). -/
theorem windowError_crop (s : State) : windowError s .crop =
    if s.geomValid = false then some .noGeometry
    else if endsBeyondM s s.dstWin = true then some .bounds
    else none := by
  rw [windowError_eq]
  simp only [usedWindows, overlapPairs, List.any_cons, List.any_nil, Bool.or_false, Bool.false_eq_true, if_false]

/-- R117. -/
theorem cropBody_of_aligned {s : State} (aligned : s.g.width.toNat = s.g.pWidth.toNat) (m : Memory) :
    cropBody s m = m :=
  if_neg (not_not.2 (BitVec.eq_of_toNat_eq aligned))

/-- Settles O20: `windowError_crop` decides between the errors and the body, and `read_cropBody` tells every byte of M (R114, R117). -/
theorem cropCompactsTheRows : Obligations.CropCompactsTheRows := by
  intro s hinv
  refine ⟨fun hv => ?noGeometry, fun hv hd => ?bounds, fun hv hd hord => ?success⟩
  case noGeometry => exact exec_without_descriptor s .crop hv nofun
  case bounds =>
    refine exec_of_windowError (e := .bounds) nofun ?_
    rw [windowError_crop, if_neg (by simp [hv]), if_pos hd]
  case success =>
    have clear : windowError s .crop = none := by
      rw [windowError_crop, if_neg (by simp [hv]), if_neg (by simp [hd])]
    obtain ⟨rows, rest⟩ := read_cropBody s s.mem (State.Inv_facts s hinv hv)
    exact ⟨_, exec_of_clear nofun clear hord, rfl, rows, rest, fun aligned => cropBody_of_aligned aligned s.mem⟩

end Sys2Proof.Machine
end

section
/-! PROOF of O21 and O22: PLANAR's checks in order, and its body by the closed form `read_planarBody`. -/

namespace Sys2Proof.Machine

open Sys2Proof.Claims

/-- PLANAR checks for a descriptor, then the bounds of DST_WIN and SCR_WIN, then that the two are apart (R121). -/
theorem windowError_planar (s : State) : windowError s .planar =
    if s.geomValid = false then some .noGeometry
    else if endsBeyondM s s.dstWin = true ∨ endsBeyondM s s.scrWin = true then some .bounds
    else if overlap s.scrWin s.dstWin = true then some .overlap
    else none := by
  rw [windowError_eq]
  simp only [usedWindows, overlapPairs, List.any_cons, List.any_nil, Bool.or_false, Bool.or_eq_true]

/-- R121's effect holds of whatever memory PLANAR's body starts from, its own or the one CROP left in FRAME. The luma bytes
lie in neither region written to after the scratch copy, so they stay (R123). -/
theorem planarOf_of_planarBody {s u t : State} (f : DescriptorFacts s.g) (apart : overlap s.scrWin s.dstWin = false)
    (ht : t.mem = planarBody s u.mem) : planarOf s u t := by
  have distinct := scr_dst_disjoint s f apart
  have planesFit := f.planesFit
  obtain ⟨scratch, uPlane, vPlane, rest⟩ := read_planarBody s u.mem planesFit distinct
  unfold planarOf
  rw [ht]
  refine ⟨scratch, fun j hj => rest _ (fun inScratch => ?_) (by omega), uPlane, vPlane,
    fun a hscr hdst => rest a hscr (by omega)⟩
  exact distinct (s.dstAddr.toNat + j - s.scrAddr.toNat) j (by omega) (by omega) (by omega)

/-- Settles O21: `windowError_planar` decides between the errors and the body, and `planarOf_of_planarBody` tells every byte of M (R121 … R124). -/
theorem planarSplitsTheChroma : Obligations.PlanarSplitsTheChroma := by
  intro s hinv
  refine ⟨fun hv => ?noGeometry, fun hv hb => ?bounds, fun hv hd hs ho => ?overlap, fun hv hd hs ho hord => ?success⟩
  case noGeometry => exact exec_without_descriptor s .planar hv nofun
  case bounds =>
    refine exec_of_windowError (e := .bounds) nofun ?_
    rw [windowError_planar, if_neg (by simp [hv]), if_pos hb]
  case overlap =>
    refine exec_of_windowError (e := .overlap) nofun ?_
    rw [windowError_planar, if_neg (by simp [hv]), if_neg (by simp [hd, hs]), if_pos ho]
  case success =>
    have clear : windowError s .planar = none := by
      rw [windowError_planar, if_neg (by simp [hv]), if_neg (by simp [hd, hs]), if_neg (by simp [ho])]
    exact ⟨_, exec_of_clear nofun clear hord, rfl, planarOf_of_planarBody (State.Inv_facts s hinv hv) ho rfl⟩

/-- Settles O22: the samples O21 puts in the two planes are the interleaved ones, U the even and V the odd (R127). -/
theorem planarUndoesInterleave : Obligations.PlanarUndoesInterleave := by
  intro s U V hinv hv hd hs ho hord interleaved
  obtain ⟨-, -, -, success⟩ := planarSplitsTheChroma s hinv
  obtain ⟨t, hexec, -, -, -, uPlane, vPlane, -⟩ := success hv hd hs ho hord
  refine ⟨t, hexec, fun k hk => ?_⟩
  obtain ⟨hU, hV⟩ := interleaved k hk
  exact ⟨(uPlane k hk).trans hU, (vPlane k hk).trans hV⟩

end Sys2Proof.Machine
end

section
/-! PROOF of O23: FRAME's checks imply those of its units, and its body is theirs in order (R128). -/

namespace Sys2Proof.Machine

open Sys2Proof.Claims

/-! ## The checks -/

theorem planarOutput_iff (s : State) : s.planarOutput = true ↔ s.layout = 1 :=
  beq_iff_eq

/-- FRAME checks for a descriptor, then each window's bounds, then each overlap; SCR_WIN counts with LAYOUT = 1 only (R128, R130). -/
theorem windowError_frame (s : State) : windowError s .frame =
    if s.geomValid = false then some .noGeometry
    else if endsBeyondM s s.srcWin = true ∨ endsBeyondM s s.dstWin = true ∨
      (s.layout = 1 ∧ endsBeyondM s s.scrWin = true) then some .bounds
    else if overlap s.srcWin s.dstWin = true ∨ (s.layout = 1 ∧ overlap s.scrWin s.dstWin = true) then some .overlap
    else none := by
  rw [windowError_eq]
  simp only [usedWindows, overlapPairs, planarOutput_iff]
  by_cases planar : s.layout = 1 <;>
    simp only [planar, if_true, if_false, true_and, false_and, or_false, List.any_cons, List.any_nil, Bool.or_false,
      Bool.or_eq_true]

/-- R128: each step's windows are FRAME's. -/
theorem usedWindows_subset_frame {s : State} {i : Instr} (hi : i = .planar → s.layout = 1) :
    usedWindows s i ⊆ usedWindows s .frame := by
  cases i with
  | geom => exact List.nil_subset _
  | detileY | detileUV | crop => simp only [usedWindows]; split <;> simp
  | planar => simp [usedWindows, (planarOutput_iff s).2 (hi rfl)]
  | frame => exact List.Subset.refl _

/-- R128: each step's overlap checks are FRAME's. -/
theorem overlapPairs_subset_frame {s : State} {i : Instr} (hi : i = .planar → s.layout = 1) :
    overlapPairs s i ⊆ overlapPairs s .frame := by
  cases i with
  | geom | crop => exact List.nil_subset _
  | detileY | detileUV => simp only [overlapPairs]; split <;> simp
  | planar => simp [overlapPairs, (planarOutput_iff s).2 (hi rfl)]
  | frame => exact List.Subset.refl _

/-! ## One unit after another -/

/-- Neither the checks nor the body look at M or at STATUS's flags. -/
theorem windowError_finished (s : State) (m : Memory) (i : Instr) : windowError (finished s m) i = windowError s i := rfl

theorem ordinary_finished (s : State) (m : Memory) (i : Instr) :
    ordinary (finished s m) (usedWindows (finished s m) i) = ordinary s (usedWindows s i) := rfl

theorem commandBody_finished (s : State) (m : Memory) (i : Instr) : commandBody i (finished s m) = commandBody i s := by
  cases i <;> rfl

/-- A command on a state `u` that differs from `s` in M and STATUS only does to `u`'s memory what it does to that of `s`. -/
theorem exec_of_sameOperands {s u : State} {i : Instr} (same : ∀ m, finished u m = finished s m) (hi : i ≠ .geom)
    (clear : windowError s i = none) (hord : ordinary s (usedWindows s i) = true) :
    exec i u = .next (finished s (commandBody i s u.mem)) := by
  have hclear : windowError u i = none := by
    rw [← windowError_finished u u.mem, same, windowError_finished, clear]
  have hordu : ordinary u (usedWindows u i) = true := by
    rw [← ordinary_finished u u.mem, same, ordinary_finished, hord]
  rw [exec_of_clear hi hclear hordu, ← commandBody_finished u u.mem, same, same, commandBody_finished]

section
variable {s : State} (ready : frameReady s)
include ready

theorem windowError_frame_of_ready : windowError s .frame = none := by
  obtain ⟨hv, hs, hd, ho, -, hscr⟩ := ready
  rw [windowError_frame, if_neg (by simp [hv]), if_neg (by simp +contextual [hs, hd, hscr]),
    if_neg (by simp +contextual [ho, hscr])]

theorem ordinary_frame_of_ready : ordinary s (usedWindows s .frame) = true := by
  obtain ⟨-, -, -, -, hord, hscr⟩ := ready
  simp only [ordinary_iff, usedWindows, planarOutput_iff, List.forall_mem_cons] at hord hscr ⊢
  obtain ⟨hsrc, hdst, hnil⟩ := hord
  split
  next planar =>
    obtain ⟨-, -, hscr, -⟩ := hscr planar
    simp only [List.forall_mem_cons]
    exact ⟨hsrc, hdst, hscr, hnil⟩
  next =>
    simp only [List.forall_mem_cons]
    exact ⟨hsrc, hdst, hnil⟩

/-- R128: once FRAME's checks pass no step can fail, because each step's own checks are implied by them. -/
theorem exec_of_frameReady {u : State} {i : Instr} (hi : i ≠ .geom) (hp : i = .planar → s.layout = 1)
    (same : ∀ m, finished u m = finished s m) : exec i u = .next (finished s (commandBody i s u.mem)) := by
  obtain ⟨hv, hbounds, hapart⟩ := (windowError_none s .frame).1 (windowError_frame_of_ready ready)
  have hord := (ordinary_iff s _).1 (ordinary_frame_of_ready ready)
  refine exec_of_sameOperands same hi ((windowError_none s i).2 ⟨hv, fun w hw => ?_, fun q hq => ?_⟩)
    ((ordinary_iff s _).2 fun w hw => ?_)
  · exact hbounds w (usedWindows_subset_frame hp hw)
  · exact hapart q (overlapPairs_subset_frame hp hq)
  · exact hord w (usedWindows_subset_frame hp hw)

end

/-- What FRAME's first three units make of M: the NV12 output (R128). -/
def nv12Body (s : State) (m : Memory) : Memory := cropBody s (detileUVBody s (detileYBody s m))

theorem frameBody_of_nv12 {s : State} (nv12 : s.layout = 0) (m : Memory) : frameBody s m = nv12Body s m := by
  simp [frameBody, nv12Body, State.planarOutput, nv12]

theorem frameBody_of_planar {s : State} (planar : s.layout = 1) (m : Memory) :
    frameBody s m = planarBody s (nv12Body s m) := by
  simp [frameBody, nv12Body, State.planarOutput, planar]

section
variable {s u : State} (ready : frameReady s) (same : ∀ m, finished u m = finished s m)
include ready same

theorem exec_frame_of_nv12 (nv12 : s.layout = 0) : exec .frame u = .next (finished s (nv12Body s u.mem)) := by
  rw [exec_of_frameReady ready (i := .frame) nofun nofun same, commandBody, frameBody_of_nv12 nv12]

theorem exec_frame_of_planar (planar : s.layout = 1) :
    exec .frame u = .next (finished s (planarBody s (nv12Body s u.mem))) := by
  rw [exec_of_frameReady ready (i := .frame) nofun nofun same, commandBody, frameBody_of_planar planar]

end

/-- Settles O23: `windowError_frame` decides between the errors and the body, and `exec_of_frameReady` runs each unit on
what the one before it left (R128, R130). -/
theorem frameRunsTheUnitsInOrder : Obligations.FrameRunsTheUnitsInOrder := by
  intro s _
  refine ⟨fun hv => ?noGeometry, fun hv hb => ?bounds, fun hv hs hd hscr ho => ?overlap, fun ready => ?success⟩
  case noGeometry => exact exec_without_descriptor s .frame hv nofun
  case bounds =>
    refine exec_of_windowError (e := .bounds) nofun ?_
    rw [windowError_frame, if_neg (by simp [hv]), if_pos hb]
  case overlap =>
    refine exec_of_windowError (e := .overlap) nofun ?_
    rw [windowError_frame, if_neg (by simp [hv]), if_neg (by simp +contextual [hs, hd, hscr]), if_pos ho]
  case success =>
    have unit := @exec_of_frameReady s ready
    exact ⟨_, _, finished s (nv12Body s s.mem), unit (i := .detileY) nofun nofun fun _ => rfl,
      unit (i := .detileUV) nofun nofun fun _ => rfl, unit (i := .crop) nofun nofun fun _ => rfl,
      fun nv12 => ⟨exec_frame_of_nv12 ready (fun _ => rfl) nv12, rfl⟩,
      fun planar => ⟨_, unit nofun (fun _ => planar) fun _ => rfl,
        exec_frame_of_planar ready (fun _ => rfl) planar, rfl⟩⟩

end Sys2Proof.Machine
end

section
/-! PROOF of O24: where each byte of the NV12 output comes from, through the crop and then the two detiles (R133). -/

namespace Sys2Proof.Machine

open Sys2Proof.Claims

/-! ## The relations R133 rests on -/

/-- How the two planes' rasters stand in DST, and which rows the crop takes from them (R91, R93). -/
structure RasterFacts (g : Descriptor) : Prop where
  uvStart : g.uvOffset.toNat = g.pWidth.toNat * g.height.toNat
  lumaRows : g.hTiles.toNat * 32 = g.pHeight.toNat
  height_le : g.height.toNat ≤ g.pHeight.toNat
  cropRows_le : g.cropRows.toNat ≤ g.height.toNat + 32 * g.hTilesC.toNat

theorem describe_rasterFacts {w h : Nat} (hw : w ≤ 16384) (hh : h ≤ 16384) : RasterFacts (describe w h) := by
  obtain ⟨-, e2, e3, e4, -, e6, e7, -, -, -, -, e12, -, -, e15, -⟩ := describe_toNat w h hw hh
  constructor
  · rw [e15, e3, e2, uvOffset]
  · rw [e6, e4, hTiles_rows]
  · rw [e2, e4, paddedHeight_eq]
    omega
  · rw [e12, e2, e7, Nat.mul_comm 32]
    exact cropRows_le h

/-- While GEOM_VALID = 1 the descriptor is that of legal dimensions. -/
theorem State.Inv_rasterFacts {s : State} (hinv : s.Inv = true) (hv : s.geomValid = true) : RasterFacts s.g := by
  obtain ⟨hp, -, hgeom, -, -⟩ := (State.Inv_iff s).1 hinv
  obtain ⟨hl, hg⟩ := (State.geomOk_iff s).1 hgeom hv
  simp only [Params.legal, Bool.and_eq_true, decide_eq_true_eq] at hp
  rw [geomLegal_iff] at hl
  rw [hg]
  exact describe_rasterFacts (by omega) (by omega)

/-! ## Where each byte of a raster comes from -/

/-- Row and column of an offset into `R` rows of `S` bytes. -/
theorem rowMajor_bounds {k S R : Nat} (hk : k < S * R) : k / S < R ∧ k % S < S :=
  ⟨Nat.div_lt_of_lt_mul hk, Nat.mod_lt _ (Nat.pos_of_ne_zero fun h0 => by simp [h0] at hk)⟩

theorem rowMajor_div_mod {r c S : Nat} (hc : c < S) : (r * S + c) / S = r ∧ (r * S + c) % S = c :=
  rowMajor_inj _ _ _ _ S (Nat.mod_lt _ (by omega)) hc (Nat.div_add_mod' _ _)

/-- The source byte for row `r` and column `c` of a plane's raster, by the inverse map of R108. -/
def Plane.rasterSource (p : Plane) (r c : Nat) : Nat :=
  p.srcByte (tileIndex p.wT p.hT (r / 32) (c / 64)) (r % 32) (c % 64)

/-- The source byte for an address of a plane's raster. -/
def Plane.source (p : Plane) (a : Nat) : Nat :=
  p.rasterSource ((a - p.dstBase) / p.stride) ((a - p.dstBase) % p.stride)

theorem Plane.source_dstByte (p : Plane) {row col y x : Nat} (hc : col < p.wT) (hy : y < 32) (hx : x < 64) :
    p.source (p.dstByte row col y x) = p.srcByte (tileIndex p.wT p.hT row col) y x := by
  have hcol : col * 64 + x < p.stride := by
    simp only [Plane.stride, tileW]
    omega
  obtain ⟨hdiv, hmod⟩ := rowMajor_div_mod (r := row * 32 + y) hcol
  obtain ⟨hrow, hy⟩ := rowMajor_div_mod (r := row) hy
  obtain ⟨hcol, hx⟩ := rowMajor_div_mod (r := col) hx
  rw [Plane.source, p.dstByte_eq, Nat.add_sub_cancel_left, hdiv, hmod, Plane.rasterSource, hrow, hy, hcol, hx]

section
variable {p : Plane} (even : p.wT % 2 = 0)
include even

/-- `rasterSource` in R133's words: the tile is named by its position. -/
theorem Plane.rasterSource_names_tile {r c : Nat} (hr : r < p.hT * 32) (hc : c < p.wT * 64) {m : Memory} {b : Byte}
    (hb : b = m.read (p.rasterSource r c)) :
    ∃ n, n < p.wT * p.hT ∧ tilePos p.wT p.hT n = (r / 32, c / 64) ∧
      b = m.read (p.srcBase + n * 2048 + r % 32 * 64 + c % 64) :=
  ⟨_, tileIndex_lt _ _ _ _ even (by omega) (by omega), tilePos_tileIndex _ _ _ _ even (by omega) (by omega), hb⟩

variable {a : Nat} (ha : inWindow p.dstRegion a = true)
include ha

theorem Plane.source_inRegion : inWindow p.srcRegion (p.source a) = true := by
  obtain ⟨row, col, y, x, hr, hc, hy, hx, rfl⟩ := p.dstRegion_cases a ha
  rw [p.source_dstByte hc hy hx]
  exact p.srcByte_inRegion _ y x (tileIndex_lt _ _ _ _ even hr hc) hy hx

theorem read_detilePlane_source (apart : ∀ a, inWindow p.srcRegion a = true → inWindow p.dstRegion a = false)
    (m : Memory) : Memory.read (detilePlane p m) a = Memory.read m (p.source a) := by
  obtain ⟨row, col, y, x, hr, hc, hy, hx, rfl⟩ := p.dstRegion_cases a ha
  rw [p.source_dstByte hc hy hx, read_detilePlane_at p m even apart row col y x hr hc hy hx]

end

/-! ## Where each byte of the NV12 output comes from -/

/-- Where a byte stood before the two detiles, of which the UV detile runs last (R129). -/
def detiledSource (s : State) (a : Nat) : Nat :=
  if inWindow s.planeUV.dstRegion a = true then s.planeUV.source a
  else if inWindow s.planeY.dstRegion a = true then s.planeY.source a
  else a

/-- Where the byte at offset `j` of DST stood before the crop (R114). -/
def cropSource (s : State) (j : Nat) : Nat :=
  if j < s.g.cropRows.toNat * s.g.width.toNat then
    j / s.g.width.toNat * s.g.pWidth.toNat + j % s.g.width.toNat
  else j

section
variable {s : State} (f : DescriptorFacts s.g)
include f

/-- The Y detile leaves the tiles of the UV plane alone, since they lie in SRC_WIN (R111). -/
theorem read_detiled (apart : overlap s.srcWin s.dstWin = false) (m : Memory) (a : Nat) :
    Memory.read (detileUVBody s (detileYBody s m)) a = Memory.read m (detiledSource s a) := by
  have keepsY := (read_detileYBody s m f apart).2
  unfold detiledSource
  split
  next uv =>
    have hsrc := planeUV_srcRegion s f _ (Plane.source_inRegion f.even uv)
    have hdst := not_overlap _ _ apart _ hsrc
    have hY : inWindow s.planeY.dstRegion (s.planeUV.source a) = false :=
      Bool.eq_false_of_not_eq_true fun h => absurd ((planeY_dstRegion s f _ h).symm.trans hdst) nofun
    exact (read_detilePlane_source f.even uv (planeUV_disjoint s f apart) _).trans (keepsY _ hY)
  next uv =>
    rw [(read_detileUVBody s (detileYBody s m) f apart).2 a (Bool.eq_false_of_not_eq_true uv)]
    split
    next luma => exact read_detilePlane_source f.even luma (planeY_disjoint s f apart) m
    next luma => exact keepsY a (Bool.eq_false_of_not_eq_true luma)

theorem read_cropBody_source (m : Memory) (j : Nat) :
    Memory.read (cropBody s m) (s.dstAddr.toNat + j) = Memory.read m (s.dstAddr.toNat + cropSource s j) := by
  obtain ⟨rows, rest⟩ := read_cropBody s m f
  unfold cropSource
  split
  next hj =>
    obtain ⟨hi, hx⟩ := rowMajor_bounds (Nat.mul_comm _ s.g.width.toNat ▸ hj)
    have h := rows _ _ hi hx
    rwa [Nat.add_assoc, Nat.add_assoc, Nat.div_add_mod'] at h
  next hj => exact rest _ (by omega)

/-- R133 for NV12 output: through the crop, then through the detiles. -/
theorem read_nv12Body (apart : overlap s.srcWin s.dstWin = false) (m : Memory) (j : Nat) :
    Memory.read (nv12Body s m) (s.dstAddr.toNat + j) =
      Memory.read m (detiledSource s (s.dstAddr.toNat + cropSource s j)) := by
  rw [nv12Body, read_cropBody_source f, read_detiled f apart]

/-- `read_nv12Body` for a byte of a cropped row. -/
theorem read_nv12Body_cropped (apart : overlap s.srcWin s.dstWin = false) (m : Memory) {j : Nat}
    (hj : j < s.g.cropRows.toNat * s.g.width.toNat) :
    j / s.g.width.toNat < s.g.cropRows.toNat ∧ j % s.g.width.toNat < s.g.pWidth.toNat ∧
    Memory.read (nv12Body s m) (s.dstAddr.toNat + j) = Memory.read m (detiledSource s (s.dstAddr.toNat +
      (j / s.g.width.toNat * s.g.pWidth.toNat + j % s.g.width.toNat))) := by
  obtain ⟨hi, hx⟩ := rowMajor_bounds (Nat.mul_comm _ s.g.width.toNat ▸ hj)
  exact ⟨hi, hx.trans_le f.width_le, by rw [read_nv12Body f apart, cropSource, if_pos hj]⟩

/-- `read_nv12Body` for a byte past the cropped rows. -/
theorem read_nv12Body_uncropped (apart : overlap s.srcWin s.dstWin = false) (m : Memory) {j : Nat}
    (hj : s.g.cropRows.toNat * s.g.width.toNat ≤ j) :
    Memory.read (nv12Body s m) (s.dstAddr.toNat + j) = Memory.read m (detiledSource s (s.dstAddr.toNat + j)) := by
  rw [read_nv12Body f apart, cropSource, if_neg (Nat.not_lt.2 hj)]

end

/-! ## R133's ranges -/

section
variable {s : State} (f : DescriptorFacts s.g) (rf : RasterFacts s.g)
include f rf

/-- The UV raster stands at offset `pw * h` of DST (R91). -/
theorem inWindow_planeUV_dstRegion (j : Nat) : inWindow s.planeUV.dstRegion (s.dstAddr.toNat + j) = true ↔
    s.g.pWidth.toNat * s.g.height.toNat ≤ j ∧
      j < s.g.pWidth.toNat * (s.g.height.toNat + 32 * s.g.hTilesC.toNat) := by
  simp only [inWindow_iff, Plane.dstRegion, State.planeUV, Plane.stride, tileH, tileW, f.stride, rf.uvStart,
    Nat.mul_add, Nat.mul_comm 32, Nat.mul_comm s.g.pWidth.toNat (s.g.hTilesC.toNat * 32)]
  omega

theorem inWindow_planeY_dstRegion (j : Nat) : inWindow s.planeY.dstRegion (s.dstAddr.toNat + j) = true ↔
    j < s.g.pWidth.toNat * s.g.pHeight.toNat := by
  simp only [inWindow_iff, Plane.dstRegion, State.planeY, Plane.stride, tileH, tileW, f.stride, rf.lumaRows,
    Nat.mul_comm s.g.pHeight.toNat]
  omega

/-- R133's `D[j]`: the UV detile's byte, failing that the Y detile's, failing both the byte before FRAME. -/
theorem detiledSource_eq (j : Nat) : detiledSource s (s.dstAddr.toNat + j) =
    if s.g.pWidth.toNat * s.g.height.toNat ≤ j ∧
      j < s.g.pWidth.toNat * (s.g.height.toNat + 32 * s.g.hTilesC.toNat) then
      s.planeUV.rasterSource ((j - s.g.pWidth.toNat * s.g.height.toNat) / s.g.pWidth.toNat)
        ((j - s.g.pWidth.toNat * s.g.height.toNat) % s.g.pWidth.toNat)
    else if j < s.g.pWidth.toNat * s.g.pHeight.toNat then
      s.planeY.rasterSource (j / s.g.pWidth.toNat) (j % s.g.pWidth.toNat)
    else s.dstAddr.toNat + j := by
  have hUV : s.dstAddr.toNat + j - s.planeUV.dstBase = j - s.g.pWidth.toNat * s.g.height.toNat := by
    simp only [State.planeUV, rf.uvStart]
    omega
  have hY : s.dstAddr.toNat + j - s.planeY.dstBase = j := Nat.add_sub_cancel_left ..
  have strideUV : s.planeUV.stride = s.g.pWidth.toNat := f.stride
  have strideY : s.planeY.stride = s.g.pWidth.toNat := f.stride
  simp only [detiledSource, inWindow_planeUV_dstRegion f rf, inWindow_planeY_dstRegion f rf, Plane.source, hUV, hY,
    strideUV, strideY]

/-- A luma row that the crop reads (R115). -/
theorem detiledSource_luma {i x : Nat} (hi : i < s.g.height.toNat) (hx : x < s.g.pWidth.toNat) :
    detiledSource s (s.dstAddr.toNat + (i * s.g.pWidth.toNat + x)) = s.planeY.rasterSource i x := by
  have hlt := rowMajor_lt i x s.g.height.toNat s.g.pWidth.toNat hi hx
  have hle := Nat.mul_le_mul_right s.g.pWidth.toNat rf.height_le
  obtain ⟨hdiv, hmod⟩ := rowMajor_div_mod (r := i) hx
  simp only [detiledSource_eq f rf, Nat.mul_comm s.g.pWidth.toNat]
  rw [if_neg (by omega), if_pos (by omega), hdiv, hmod]

/-- A chroma row that the crop reads (R115). -/
theorem detiledSource_chroma {i x : Nat} (hi : s.g.height.toNat ≤ i)
    (hi' : i < s.g.height.toNat + 32 * s.g.hTilesC.toNat) (hx : x < s.g.pWidth.toNat) :
    detiledSource s (s.dstAddr.toNat + (i * s.g.pWidth.toNat + x)) =
      s.planeUV.rasterSource (i - s.g.height.toNat) x := by
  have hlt := rowMajor_lt i x _ s.g.pWidth.toNat hi' hx
  have hle := Nat.mul_le_mul_right s.g.pWidth.toNat hi
  have hrow : i * s.g.pWidth.toNat + x - s.g.height.toNat * s.g.pWidth.toNat =
      (i - s.g.height.toNat) * s.g.pWidth.toNat + x := by
    rw [Nat.sub_mul]
    omega
  obtain ⟨hdiv, hmod⟩ := rowMajor_div_mod (r := i - s.g.height.toNat) hx
  simp only [detiledSource_eq f rf, Nat.mul_comm s.g.pWidth.toNat]
  rw [if_pos (by omega), hrow, hdiv, hmod]

end

/-- R133 for the NV12 output, from the sources of its bytes; bytes outside DST_WIN are R58's. -/
theorem nv12Output_of_nv12Body {s t : State} (f : DescriptorFacts s.g) (rf : RasterFacts s.g)
    (apart : overlap s.srcWin s.dstWin = false) (ht : t.mem = nv12Body s s.mem)
    (rest : ∀ a, inWindow s.dstWin a = false → t.mem.read a = s.mem.read a) : nv12Output s t := by
  have cropped := fun j => read_nv12Body_cropped f apart s.mem (j := j)
  have kept := fun j => read_nv12Body_uncropped f apart s.mem (j := j)
  rw [← ht] at cropped kept
  have cropRows_le := rf.cropRows_le
  refine ⟨fun j hj hluma => ?luma, fun j hj hchroma => ?chroma, fun j hj _ hge hlt => ?uvTail,
    fun j hj _ huv hlt => ?lumaTail, fun j hj _ huv hge => ?untouched, rest⟩
  case luma =>
    obtain ⟨hi, hx, h⟩ := cropped j hj
    rw [detiledSource_luma f rf hluma hx] at h
    exact Plane.rasterSource_names_tile (p := s.planeY) f.even
      ((hluma.trans_le rf.height_le).trans_eq rf.lumaRows.symm) (hx.trans_eq f.stride.symm) h
  case chroma =>
    obtain ⟨hi, hx, h⟩ := cropped j hj
    have hrow : j / s.g.width.toNat - s.g.height.toNat < s.g.hTilesC.toNat * 32 := by omega
    rw [detiledSource_chroma f rf hchroma (by omega) hx] at h
    exact Plane.rasterSource_names_tile (p := s.planeUV) f.even hrow (hx.trans_eq f.stride.symm) h
  case uvTail =>
    have h := kept j hj
    rw [detiledSource_eq f rf, if_pos ⟨hge, hlt⟩] at h
    obtain ⟨hr, hc⟩ := rowMajor_bounds (k := j - s.g.pWidth.toNat * s.g.height.toNat) (S := s.g.pWidth.toNat)
      (R := 32 * s.g.hTilesC.toNat) (by rw [Nat.mul_add] at hlt; omega)
    exact Plane.rasterSource_names_tile (p := s.planeUV) f.even (hr.trans_eq (Nat.mul_comm ..))
      (hc.trans_eq f.stride.symm) h
  case lumaTail =>
    have h := kept j hj
    rw [detiledSource_eq f rf, if_neg huv, if_pos hlt] at h
    obtain ⟨hr, hc⟩ := rowMajor_bounds hlt
    exact Plane.rasterSource_names_tile (p := s.planeY) f.even (hr.trans_eq rf.lumaRows.symm)
      (hc.trans_eq f.stride.symm) h
  case untouched =>
    have h := kept j hj
    rwa [detiledSource_eq f rf, if_neg huv, if_neg (by omega)] at h

/-- FRAME with LAYOUT = 0: the memory its units leave, and R133's closed form of it. -/
theorem exec_frame_nv12Output {s : State} (hinv : s.Inv = true) (ready : frameReady s) (nv12 : s.layout = 0) :
    ∃ t, exec .frame s = .next t ∧ t = finished s t.mem ∧ t.mem = nv12Body s s.mem ∧ nv12Output s t := by
  have hexec := exec_frame_of_nv12 ready (fun _ => rfl) nv12
  obtain ⟨hv, -, -, apart, -⟩ := ready
  refine ⟨_, hexec, rfl, rfl, nv12Output_of_nv12Body (State.Inv_facts s hinv hv) (State.Inv_rasterFacts hinv hv) apart
    rfl fun a ha => ?_⟩
  refine commandsStayInTheirWindows.1 s _ .frame hinv hexec a ?_
  simp [writeWindows, State.planarOutput, nv12, outside, ← inWindow_iff, ha]

/-- Settles O24: `exec_frame_nv12Output`, and PLANAR's law on what the first three units left (R133). -/
theorem frameOutputInClosedForm : Obligations.FrameOutputInClosedForm := by
  intro s hinv ready
  refine ⟨fun nv12 => ?nv12, fun planar => ?planar⟩
  case nv12 =>
    obtain ⟨t, hexec, hfin, -, hout⟩ := exec_frame_nv12Output hinv ready nv12
    exact ⟨t, hexec, hfin, hout⟩
  case planar =>
    have hexec := exec_frame_of_planar ready (fun _ => rfl) planar
    obtain ⟨hv, hs, hd, apart, hord, hscr⟩ := ready
    have ready0 : frameReady { s with layout := 0 } := ⟨hv, hs, hd, apart, hord, nofun⟩
    obtain ⟨u, hexec0, -, hu, hout⟩ := exec_frame_nv12Output (s := { s with layout := 0 }) hinv ready0 rfl
    refine ⟨u, _, hexec0, hout, hexec, rfl, ?_⟩
    obtain ⟨-, scrApart, -⟩ := hscr planar
    refine planarOf_of_planarBody (State.Inv_facts s hinv hv) scrApart ?_
    rw [hu]
    rfl

end Sys2Proof.Machine
end

section
/-! PROOF of O25: every byte of the output frame comes from SRC_WIN, which FRAME leaves alone (R134 item 4). -/

namespace Sys2Proof.Machine

open Sys2Proof.Claims

/-- The offset in DST at which the two detiles end (R134). -/
def detiledEnd (g : Descriptor) : Nat :=
  max (g.pWidth.toNat * g.pHeight.toNat) (g.pWidth.toNat * (g.height.toNat + 32 * g.hTilesC.toNat))

section
variable {s : State} (f : DescriptorFacts s.g) (rf : RasterFacts s.g)
include f rf

/-- Every byte that a detile writes comes from SRC_WIN. -/
theorem detiledSource_inSrc {j : Nat} (hj : j < detiledEnd s.g) :
    inWindow s.srcWin (detiledSource s (s.dstAddr.toNat + j)) = true := by
  have inUV := inWindow_planeUV_dstRegion f rf j
  have inY := inWindow_planeY_dstRegion f rf j
  unfold detiledSource
  split
  next uv => exact planeUV_srcRegion s f _ (Plane.source_inRegion f.even uv)
  next uv =>
    have luma : inWindow s.planeY.dstRegion (s.dstAddr.toNat + j) = true := by
      have hle := Nat.mul_le_mul_left s.g.pWidth.toNat rf.height_le
      rw [inUV] at uv
      rw [detiledEnd] at hj
      rw [inY]
      omega
    rw [if_pos luma]
    exact planeY_srcRegion s f _ (Plane.source_inRegion f.even luma)

/-- The crop reads only bytes that the detiles write (R93 item 8). -/
theorem cropSource_lt {j : Nat} (hj : j < detiledEnd s.g) : cropSource s j < detiledEnd s.g := by
  unfold cropSource
  split
  next hcrop =>
    obtain ⟨hi, hx⟩ := rowMajor_bounds (Nat.mul_comm _ s.g.width.toNat ▸ hcrop)
    have hlt := rowMajor_lt _ _ _ _ (hi.trans_le rf.cropRows_le) (hx.trans_le f.width_le)
    exact (hlt.trans_eq (Nat.mul_comm ..)).trans_le (Nat.le_max_right ..)
  next => exact hj

/-- R134 item 4 for NV12 output. -/
theorem read_nv12Body_congr (apart : overlap s.srcWin s.dstWin = false) {m m' : Memory}
    (agree : ∀ a, inWindow s.srcWin a = true → m'.read a = m.read a) {j : Nat} (hj : j < detiledEnd s.g) :
    Memory.read (nv12Body s m') (s.dstAddr.toNat + j) = Memory.read (nv12Body s m) (s.dstAddr.toNat + j) := by
  rw [read_nv12Body f apart, read_nv12Body f apart]
  exact agree _ (detiledSource_inSrc f rf (cropSource_lt f rf hj))

end

/-- PLANAR makes the same output frame of the same NV12 frame (R121): a byte of it is a U or a V sample, or stays where it is. -/
theorem read_planarBody_congr {s : State} (f : DescriptorFacts s.g) (apart : overlap s.scrWin s.dstWin = false)
    {m m' : Memory} (agree : ∀ j, j < s.g.linearBytes.toNat →
      Memory.read m' (s.dstAddr.toNat + j) = Memory.read m (s.dstAddr.toNat + j))
    {j : Nat} (hj : j < s.g.linearBytes.toNat) :
    Memory.read (planarBody s m') (s.dstAddr.toNat + j) = Memory.read (planarBody s m) (s.dstAddr.toNat + j) := by
  have planesFit := f.planesFit
  have distinct := scr_dst_disjoint s f apart
  obtain ⟨-, uPlane, vPlane, rest⟩ := read_planarBody s m planesFit distinct
  obtain ⟨-, uPlane', vPlane', rest'⟩ := read_planarBody s m' planesFit distinct
  by_cases hstays : j < s.g.lumaLen.toNat ∨ s.g.lumaLen.toNat + 2 * s.g.chromaLen.toNat ≤ j
  · have outScr : ¬ (s.scrAddr.toNat ≤ s.dstAddr.toNat + j ∧
        s.dstAddr.toNat + j < s.scrAddr.toNat + s.g.linearBytes.toNat) := fun hin =>
      distinct (s.dstAddr.toNat + j - s.scrAddr.toNat) j (by omega) hj (by omega)
    rw [rest _ outScr (by omega), rest' _ outScr (by omega), agree j hj]
  · by_cases hU : j < s.g.lumaLen.toNat + s.g.chromaLen.toNat
    · obtain ⟨k, rfl⟩ := Nat.exists_eq_add_of_le (show s.g.lumaLen.toNat ≤ j by omega)
      rw [← Nat.add_assoc, uPlane k (by omega), uPlane' k (by omega), Nat.add_assoc]
      exact agree _ (by omega)
    · obtain ⟨k, rfl⟩ := Nat.exists_eq_add_of_le (show s.g.lumaLen.toNat + s.g.chromaLen.toNat ≤ j by omega)
      rw [← Nat.add_assoc, ← Nat.add_assoc, vPlane k (by omega), vPlane' k (by omega), Nat.add_assoc, Nat.add_assoc]
      exact agree _ (by omega)

theorem overlap_comm (w v : Window) : overlap w v = overlap v w :=
  Bool.and_comm ..

/-- FRAME writes no byte of SRC_WIN, unless SCR_WIN meets it in planar output (R58, R134 item 4). -/
theorem frame_keeps_src {s t : State} (hinv : s.Inv = true) (ready : frameReady s)
    (hscr : s.layout = 1 → overlap s.scrWin s.srcWin = false) (hexec : exec .frame s = .next t) {a : Nat}
    (ha : inWindow s.srcWin a = true) : t.mem.read a = s.mem.read a := by
  obtain ⟨-, -, -, apart, -⟩ := ready
  refine commandsStayInTheirWindows.1 s t .frame hinv hexec a ?_
  have hdst := not_overlap _ _ apart a ha
  rw [written_encode, writeWindows]
  simp only [planarOutput_iff, outside, ← inWindow_iff]
  split
  next planar =>
    rw [overlap_comm] at hscr
    have hscr := not_overlap _ _ (hscr planar) a ha
    simp [hdst, hscr]
  next => simp [hdst]

/-- Settles O25: `read_nv12Body_congr` over the memory the first FRAME left, and `read_planarBody_congr` for
planar output (R134 item 4). -/
theorem frameAgainGivesTheSameOutput : Obligations.FrameAgainGivesTheSameOutput := by
  intro s t w hinv ready hscr hlin hexec
  have kept : ∀ a, inWindow s.srcWin a = true → t.mem.read a = s.mem.read a :=
    fun a ha => frame_keeps_src hinv ready hscr hexec ha
  have ⟨hv, _, _, apart, _, hplanar⟩ := ready
  have f := State.Inv_facts s hinv hv
  have sameNv12 : ∀ j, j < s.g.linearBytes.toNat →
      Memory.read (nv12Body s t.mem) (s.dstAddr.toNat + j) = Memory.read (nv12Body s s.mem) (s.dstAddr.toNat + j) :=
    fun j hj => read_nv12Body_congr f (State.Inv_rasterFacts hinv hv) apart kept (hj.trans_le hlin)
  obtain nv12 | planar := BitVec.eq_zero_or_eq_one s.layout
  · obtain rfl : t = _ := by injection hexec.symm.trans (exec_frame_of_nv12 ready (fun _ => rfl) nv12)
    exact ⟨_, exec_frame_of_nv12 ready (fun _ => rfl) nv12, sameNv12⟩
  · obtain rfl : t = _ := by injection hexec.symm.trans (exec_frame_of_planar ready (fun _ => rfl) planar)
    obtain ⟨-, scrApart, -⟩ := hplanar planar
    exact ⟨_, exec_frame_of_planar ready (fun _ => rfl) planar,
      fun j hj => read_planarBody_congr f scrApart sameNv12 hj⟩

end Sys2Proof.Machine
end

section
/-! PROOF of O26, O28, O29, O27: what a command reports, which check it names, and what it leaves as it was (R140, R144 … R147). -/

namespace Sys2Proof.Machine

open Sys2Proof.Claims

/-! ## The first check that fails -/

/-- The row of R144's table for a command that uses windows: each check, in order, with the code it reports. -/
def tableRow (s : State) (i : Instr) : List (Bool × BitVec 4) :=
  (!s.geomValid, 3) :: ((usedWindows s i).map (fun w => (endsBeyondM s w, 4)) ++
    (overlapPairs s i).map (fun q => (overlap q.1 q.2, 5)))

/-- Checks that report one code fail as one check: when any of them does. -/
theorem firstCode_map_append {α : Type} (fails : α → Bool) (code : BitVec 4) (l : List α)
    (rest : List (Bool × BitVec 4)) :
    firstCode (l.map (fun x => (fails x, code)) ++ rest) = if l.any fails then some code else firstCode rest := by
  induction l with
  | nil => rfl
  | cons x xs ih => cases hx : fails x <;> simp [firstCode, hx, ih]

/-- The checks of a command find the first error of its row (R144). -/
theorem firstCode_tableRow (s : State) (i : Instr) :
    firstCode (tableRow s i) = (windowError s i).map ErrCode.code := by
  have overlaps := firstCode_map_append (fun q : Window × Window => overlap q.1 q.2) 5 (overlapPairs s i) []
  rw [List.append_nil] at overlaps
  rw [tableRow, firstCode, firstCode_map_append, overlaps, windowError_eq]
  simp only [Bool.not_eq_true']
  split_ifs <;> rfl

/-- FRAME's row with the checks of SCR_WIN written as conditions on LAYOUT (R130, R144). -/
theorem firstCode_tableRow_frame (s : State) :
    firstCode [(!s.geomValid, 3), (endsBeyondM s s.srcWin, 4), (endsBeyondM s s.dstWin, 4),
      (s.planarOutput && endsBeyondM s s.scrWin, 4), (overlap s.srcWin s.dstWin, 5),
      (s.planarOutput && overlap s.scrWin s.dstWin, 5)] = firstCode (tableRow s .frame) := by
  cases planar : s.planarOutput <;> simp [tableRow, usedWindows, overlapPairs, planar, firstCode]

/-! ## What a command answers -/

/-- The answers of a command that uses windows: the error of its first failing check, or success (R144 … R147). -/
theorem exec_window_next {i : Instr} {s t : State} (hi : i ≠ .geom) (h : exec i s = .next t) :
    (∃ e, windowError s i = some e ∧ t = failed s e.code) ∨
    (windowError s i = none ∧ t = finished s (commandBody i s s.mem)) := by
  obtain ⟨hgeom, -⟩ | ⟨hgeom, -⟩ | ⟨-, herror⟩ | ⟨-, hclear, -, ht⟩ := exec_next i s t h
  · exact absurd hgeom hi
  · exact absurd hgeom hi
  · exact .inl herror
  · exact .inr ⟨hclear, ht⟩

theorem geomLegal_eq_false_iff (maxDim w h : Nat) :
    geomLegal maxDim w h = false ↔ w = 0 ∨ h = 0 ∨ maxDim < w ∨ maxDim < h := by
  rw [← Bool.not_eq_true, geomLegal_iff]
  omega

/-- GEOM's one error is INVALID_GEOMETRY, on dimensions that R96 rejects. -/
theorem exec_geom_error {s t : State} (h : exec .geom s = .next t) :
    (t.err = true ↔ s.width.toNat = 0 ∨ s.height.toNat = 0 ∨ s.params.maxDim < s.width.toNat ∨
      s.params.maxDim < s.height.toNat) ∧
    (t.err = true → t.errcode = 2) := by
  rw [← geomLegal_eq_false_iff]
  obtain ⟨legal, rfl⟩ | ⟨illegal, rfl⟩ := exec_geom_next h
  · exact ⟨⟨nofun, fun illegal => absurd (legal.symm.trans illegal) nofun⟩, nofun⟩
  · exact ⟨⟨fun _ => illegal, fun _ => rfl⟩, fun _ => rfl⟩

/-- Settles O26: a command's checks are its row of the table, by `firstCode_tableRow`, and `exec_window_next` tells what it
does with the first that fails (R144). -/
theorem firstErrorIsReported : Obligations.FirstErrorIsReported := by
  intro s dims reports src dst scr planar
  have row : ∀ i checks, i ≠ .geom → firstCode checks = firstCode (tableRow s i) → reports i checks := by
    intro i checks hi hchecks
    rw [firstCode_tableRow] at hchecks
    dsimp only [reports]
    cases herror : windowError s i with
    | some e =>
      simp only [hchecks, herror, Option.map_some]
      exact exec_of_windowError hi herror
    | none =>
      simp only [hchecks, herror, Option.map_none]
      intro t h
      obtain ⟨e, he, -⟩ | ⟨-, rfl⟩ := exec_window_next hi h
      · exact absurd (herror.symm.trans he) nofun
      · rfl
  exact ⟨fun w e hdec => engineStep_of_illegal rfl hdec, fun t h => exec_geom_error h,
    row .detileY _ nofun rfl, row .detileUV _ nofun rfl, row .crop _ nofun rfl, row .planar _ nofun rfl,
    row .frame _ nofun (firstCode_tableRow_frame s)⟩

/-- Settles O28: an error of GEOM writes no memory (R99), and one of another command is its whole effect (R145). -/
theorem errorsArePrecise : Obligations.ErrorsArePrecise := by
  intro s t i h herr
  by_cases hi : i = .geom
  · subst hi
    exact ⟨exec_geom_keeps_mem s t h, fun hne => absurd rfl hne⟩
  · obtain ⟨e, -, rfl⟩ | ⟨-, rfl⟩ := exec_window_next hi h
    · exact ⟨rfl, fun _ => rfl⟩
    · cases herr

theorem ErrCode.one_le_code (e : ErrCode) : 1 ≤ e.code.toNat := by
  cases e <;> decide

/-- Settles O29: each way a command answers sets STATUS by `State.complete` or `State.raise` (R146, R147). -/
theorem commandsCompleteWithDoneOrError : Obligations.CommandsCompleteWithDoneOrError := by
  intro s t i h
  obtain ⟨hgeom, -, rfl⟩ | ⟨hgeom, -, rfl⟩ | ⟨-, e, -, rfl⟩ | ⟨-, -, -, rfl⟩ := exec_next i s t h
  · exact ⟨rfl, rfl, .inl ⟨rfl, rfl, rfl⟩, rfl, fun hi => absurd hgeom hi⟩
  · exact ⟨rfl, rfl, .inr ⟨rfl, rfl, ErrCode.invalidGeometry.one_le_code, ErrCode.invalidGeometry.code_le⟩, rfl,
      fun hi => absurd hgeom hi⟩
  · exact ⟨rfl, rfl, .inr ⟨rfl, rfl, e.one_le_code, e.code_le⟩, rfl, fun _ => ⟨rfl, rfl⟩⟩
  · exact ⟨rfl, rfl, .inl ⟨rfl, rfl, rfl⟩, rfl, fun _ => ⟨rfl, rfl⟩⟩

/-- Settles O27: the first check of every row is that of the descriptor (R140). -/
theorem commandsNeedADescriptor : Obligations.CommandsNeedADescriptor :=
  fun s i hi hvalid => exec_without_descriptor s i hvalid hi

end Sys2Proof.Machine
end

section
/-! PROOF of O7, O8, O44: an illegal word, a machine with nothing to do, and WBUSY, each by what a step does. -/

namespace Sys2Proof.Machine

open Sys2Proof.Claims

/-! ## An illegal word, and nothing to do -/

theorem step_of_engineTurn {s : State} (turn : s.mover = .engine) : step s = engineStep s.tick := by
  simp only [step, turn]

/-- Settles O7: a word outside the six is Illegal by O1, and the engine's turn ends in ILLEGAL_CMD (R72, R138). -/
theorem illegalWordOnlyReportsIllegalCmd : Obligations.IllegalWordOnlyReportsIllegalCmd := by
  intro s w turn hpend hnot
  obtain ⟨-, -, -, -, -, -, illegal⟩ := decodeAcceptsExactlyTheSixWords.1 w
  obtain ⟨e, hdec⟩ := illegal hnot
  rw [step_of_engineTurn turn, engineStep_of_illegal (s := s.tick) hpend hdec]
  rfl

/-- With no word pending and no move in the script either agent's step only uses up its turn (R157; log 15). -/
theorem step_of_nothingToDo {s : State} (hpend : s.pending = none) (hscript : s.script = []) :
    step s = .next s.tick := by
  cases turn : s.mover with
  | engine => simp only [step_of_engineTurn turn, engineStep, State.tick_pending, hpend]
  | host => simp only [step, turn, hostStep, State.tick_script, hscript]

/-- Settles O8: BUSY = 0 tells by the invariant that nothing is pending (R36), so `step_of_nothingToDo` applies. -/
theorem endedMachineStaysAsItIs : Obligations.EndedMachineStaysAsItIs := by
  intro s hinv hended
  obtain ⟨hscript, hidle⟩ : s.script = [] ∧ s.busy = false := by simpa [State.ended] using hended
  obtain ⟨-, hflags, -⟩ := (State.Inv_iff s).1 hinv
  obtain ⟨hbusy, -⟩ := (State.flagsOk_iff s).1 hflags
  have hpend : s.pending = none := by simpa [hidle] using hbusy.symm
  exact ⟨s.tick, step_of_nothingToDo hpend hscript, rfl, hended⟩

/-! ## WBUSY -/

theorem exec_keeps_wbusy {i : Instr} {s t : State} (h : exec i s = .next t) : t.wbusy = s.wbusy := by
  obtain ⟨-, -, rfl⟩ | ⟨-, -, rfl⟩ | ⟨-, e, -, rfl⟩ | ⟨-, -, -, rfl⟩ := exec_next i s t h
  all_goals rfl

/-- An accepted write away from STATUS leaves WBUSY alone (R28, R35). -/
theorem writeOffset_accepted_wbusy {s : State} {off : Nat} (d : Word) (hoff : off ≠ 0x20) (hidle : s.busy = false) :
    (writeOffset s off d).wbusy = s.wbusy := by
  simp only [writeOffset, if_neg hoff, hidle, Bool.false_eq_true, if_false]
  split_ifs <;> rfl

/-- A step keeps WBUSY, or drops a host write while BUSY = 1, or writes WBUSY's bit of STATUS, or resets the block (R29, R149). -/
theorem step_wbusy {s t : State} (hstep : step s = .next t) :
    t.wbusy = s.wbusy ∨
    (s.busy = true ∧ ∃ off d rest, hostTurn s (.busWrite (s.params.regBase + off) 4 d) rest ∧
      t = { moving s rest with wbusy := true }) ∨
    (∃ d rest, hostTurn s (.busWrite (s.params.regBase + 0x20) 4 d) rest ∧ t.wbusy = (s.wbusy && !d.getLsbD 4)) ∨
    (t.wbusy = false ∧ ∃ rest, hostTurn s .reset rest) := by
  cases stepEffect_of_step hstep with
  | quiet | latch | reject | raise | complete | fill => exact .inl rfl
  | reset rest turn => exact .inr (.inr (.inr ⟨rfl, rest, turn⟩))
  | write off d rest turn =>
    by_cases hoff : off = 0x20
    · subst hoff
      exact .inr (.inr (.inl ⟨d, rest, turn, rfl⟩))
    · cases hbusy : s.busy with
      | true => exact .inr (.inl ⟨rfl, off, d, rest, turn, writeOffset_dropped d hoff hbusy⟩)
      | false => exact .inl (writeOffset_accepted_wbusy (s := moving s rest) d hoff hbusy)

/-- Settles O44: `exec_keeps_wbusy`, and each way of `step_wbusy` read for a WBUSY that rises and for one that falls (R149). -/
theorem wbusyIsSticky : Obligations.WbusyIsSticky := by
  refine ⟨fun s t i h => exec_keeps_wbusy h, fun s t hstep => ?_⟩
  obtain hsame | ⟨hbusy, off, d, rest, turn, rfl⟩ | ⟨d, rest, turn, hwrite⟩ | ⟨hfalls, hreset⟩ := step_wbusy hstep
  · rw [hsame]
    exact ⟨fun h h' => absurd (h.symm.trans h') nofun, fun h h' => absurd (h.symm.trans h') nofun⟩
  · exact ⟨fun _ _ => ⟨hbusy, _, _, d, rest, turn, rfl⟩, fun _ => nofun⟩
  · rw [hwrite]
    exact ⟨fun h h' => by simp [h] at h', fun h h' => .inr ⟨d, rest, by simpa [h] using h', turn⟩⟩
  · exact ⟨fun _ h' => absurd (hfalls.symm.trans h') nofun, fun _ _ => .inl hreset⟩

end Sys2Proof.Machine
end

section
/-! PROOF of O45. While BUSY = 1 the host reaches STATUS's own bits, its own record and the bytes of M the engine does not own, and nothing else of the block. -/

namespace Sys2Proof.Machine

open Sys2Proof.Claims

/-- A pending word makes BUSY 1 (R36). -/
theorem State.busy_of_pending {s : State} {w : Word} (hinv : s.Inv = true) (hpend : s.pending = some w) :
    s.busy = true := by
  obtain ⟨-, hflags, -⟩ := (State.Inv_iff s).1 hinv
  obtain ⟨hbusy, -⟩ := (State.flagsOk_iff s).1 hflags
  rw [hbusy, hpend, Option.isSome_some]

/-- What a running command reads is alike in both states: between them only STATUS's clearable bits, the host's side and bytes
of M that the engine does not own have changed (R61, R165). -/
structure KeepsOperands (s t : State) : Prop where
  registers : t = { s with done := t.done, err := t.err, errcode := t.errcode, wbusy := t.wbusy, mem := t.mem,
                           script := t.script, turns := t.turns, observed := t.observed }
  memory : ∀ a, ownedByEngine s a = true → t.mem.read a = s.mem.read a

/-- While BUSY = 1 a register write reaches STATUS's clearable bits and WBUSY only (R30, R35). -/
theorem writeOffset_keepsOperands {s : State} (off : Nat) (d : Word) (hbusy : s.busy = true) :
    KeepsOperands s (writeOffset s off d) := by
  by_cases hoff : off = 0x20
  · subst hoff
    exact ⟨rfl, fun _ _ => rfl⟩
  · rw [writeOffset_dropped d hoff hbusy]
    exact ⟨rfl, fun _ _ => rfl⟩

theorem hostMove_keepsOperands {s t : State} {mv : HostMove} (hbusy : s.busy = true) (hmv : mv ≠ .reset)
    (h : hostMove s mv = .next t) : KeepsOperands s t := by
  obtain ht | ⟨off, d, -, -, -, rfl⟩ | ⟨a, b, more, -, -, hfree, ht⟩ | ⟨hreset, -⟩ := hostMove_next s t mv h
  · rw [ht]
    exact ⟨rfl, fun _ _ => rfl⟩
  · exact writeOffset_keepsOperands off d hbusy
  · rw [ht]
    refine ⟨rfl, fun x hown => ?_⟩
    have hne : x ≠ a := by
      rintro rfl
      exact absurd (hown.symm.trans hfree) nofun
    exact (Memory.read_write s.mem a b x).trans (if_neg hne)
  · exact absurd hreset hmv

/-- With its script used up the host only lets its turn pass (log 15). -/
theorem step_of_emptyScript {s : State} (turn : s.mover = .host) (hscript : s.script = []) : step s = .next s.tick := by
  simp only [step, turn, hostStep, State.tick_script, hscript]

/-- On the host's turn a step other than a reset leaves a running command's operands alone (R165). -/
theorem step_keepsOperands {s t : State} (hbusy : s.busy = true) (turn : s.mover = .host)
    (hreset : ¬ ∃ rest, hostTurn s .reset rest) (hstep : step s = .next t) : KeepsOperands s t := by
  cases hscript : s.script with
  | nil =>
    obtain rfl : s.tick = t := by injection (step_of_emptyScript turn hscript).symm.trans hstep
    exact ⟨rfl, fun _ _ => rfl⟩
  | cons mv rest =>
    have hmv : mv ≠ .reset := fun h => hreset ⟨rest, turn, h ▸ hscript⟩
    rw [step_of_hostTurn ⟨turn, hscript⟩] at hstep
    obtain ⟨hregs, hmem⟩ := hostMove_keepsOperands (s := moving s rest) hbusy hmv hstep
    exact ⟨hregs, hmem⟩

/-- Settles O45: `step_keepsOperands`, with the bytes the engine owns read off the word in PENDING (R61). -/
theorem runningCommandKeepsItsOperands : Obligations.RunningCommandKeepsItsOperands := by
  intro s t w hinv hpend turn hreset hstep
  have hbusy := State.busy_of_pending hinv hpend
  obtain ⟨hregs, hmem⟩ := step_keepsOperands hbusy turn hreset hstep
  rw [hregs]
  exact ⟨rfl, rfl, rfl, rfl, rfl, rfl, rfl, rfl, hpend, hbusy,
    fun hvalid a hin => hmem a ((ownedByEngine_iff a hbusy hpend).2 ⟨hvalid, hin⟩)⟩

end Sys2Proof.Machine
end

section
/-! PROOF of O48, O49, O50. A reset frees the windows the pending command may write, one after the other, and then clears the block's registers. -/

namespace Sys2Proof.Machine

open Sys2Proof.Claims

/-! ## The registers -/

/-- STATUS is 0 after a reset, whatever the block was doing: its flags are those of the reset state (R29, R158). -/
theorem statusWord_resetRegisters (s : State) : statusWord s.resetRegisters = 0 :=
  show statusWord State.reset = 0 by decide

/-- After a reset every register but ID reads 0 (R158). -/
theorem readReg_resetRegisters (s : State) {r : Reg} (hr : r ≠ .id) : readReg s.resetRegisters r = 0 := by
  cases r with
  | id => exact absurd rfl hr
  | status => exact statusWord_resetRegisters s
  | _ => rfl

section
variable {s t : State} {rest : List HostMove}

/-- In ordinary memory a reset always answers (R158, R167). -/
theorem step_reset (hdev : s.params.devices = []) (turn : hostTurn s .reset rest) :
    step s = .next (abandonCommand (moving s rest)).resetRegisters := by
  have hord : ordinary (moving s rest) (pendingWindows usedWindows (moving s rest)) = true := by
    simp [ordinary, moving, hdev]
  rw [step_of_hostTurn turn, hostMove, hostReset, if_pos hord]

/-- The one state a reset can answer (R158 … R160). -/
theorem step_reset_next (turn : hostTurn s .reset rest) (hstep : step s = .next t) :
    t = (abandonCommand (moving s rest)).resetRegisters := by
  rw [step_of_hostTurn turn, hostMove, hostReset] at hstep
  split at hstep
  · injection hstep with ht
    exact ht.symm
  · cases hstep

end

/-- Settles O48: the answer of `step_reset` has been through `State.resetRegisters` last (R158). -/
theorem resetRestoresTheRegisters : Obligations.ResetRestoresTheRegisters := by
  intro s rest _ hdev turn
  refine ⟨_, step_reset hdev turn, ?_⟩
  exact ⟨rfl, rfl, rfl, rfl, rfl, rfl, rfl, rfl, rfl, rfl, rfl, rfl, rfl, rfl, rfl, fun r hr => readReg_resetRegisters _ hr⟩

/-! ## The windows a reset frees -/

/-- Nothing is freed for a command without write windows (R159, R160; log 8). -/
theorem abandonCommand_of_noWindows {s : State} (h : pendingWindows writeWindows s = []) : abandonCommand s = s := by
  rw [abandonCommand, h, List.foldl_nil]

theorem pendingWindows_of_idle {s : State} (windows : State → Instr → List Window) (hidle : s.busy = false) :
    pendingWindows windows s = [] := by
  simp [pendingWindows, hidle]

theorem pendingWindows_of_noDescriptor {s : State} (windows : State → Instr → List Window)
    (hinvalid : s.geomValid = false) : pendingWindows windows s = [] := by
  simp [pendingWindows, hinvalid]

/-- A word that is no command may write no window (R58, R159). -/
theorem written_of_illegal {s : State} {w : Word} {e : Illegal} (h : decode w = .error e) : written s w = [] := by
  have hne : ∀ i, w ≠ encode i := by
    rintro i rfl
    exact absurd ((decode_encode i).symm.trans h) nofun
  have hdetile : ¬ (w = 0x00000002 ∨ w = 0x00000012 ∨ w = 0x00000003) :=
    not_or.2 ⟨hne .detileY, not_or.2 ⟨hne .detileUV, hne .crop⟩⟩
  have hplanar : w ≠ 0x00000004 := hne .planar
  have hframe : w ≠ 0x00000005 := hne .frame
  rw [written, if_neg hdetile, if_neg hplanar, if_neg hframe]

/-- While a word is pending with a valid descriptor, the windows a reset frees are the word's write windows (R159). -/
theorem pendingWindows_written {s : State} {w : Word} (hbusy : s.busy = true) (hvalid : s.geomValid = true)
    (hpend : s.pending = some w) : pendingWindows writeWindows s = written s w := by
  simp only [pendingWindows, hbusy, hvalid, Bool.and_self, if_true, pendingCommand, hpend]
  cases hdec : decode w with
  | ok i =>
    rw [encode_of_decode w i hdec, written_encode]
    rfl
  | error e =>
    rw [written_of_illegal hdec]
    rfl

/-- Settles O49: abandoning a command changes M and the draw counter only, and with BUSY = 0 not even these (R160). -/
theorem resetStaysInTheBlock : Obligations.ResetStaysInTheBlock := by
  intro s t rest _ turn hstep
  obtain rfl := step_reset_next turn hstep
  refine ⟨?_, fun hidle => ?_⟩
  · rw [abandonCommand, abandon_eq]
    rfl
  · rw [abandonCommand_of_noWindows (s := moving s rest) (pendingWindows_of_idle _ hidle)]
    exact ⟨rfl, rfl⟩

/-! ## The freed bytes -/

/-- Windows freed one after the other: a byte outside them all is as it was, and an existing byte of any holds a draw not made
before, that of the last window it lies in (R159; log 7). -/
theorem read_scrambleWindows (ws : List Window) (s : State) (a : Nat) :
    (outside ws a → (ws.foldl scrambleWindow s).mem.read a = s.mem.read a) ∧
    (¬ outside ws a → a < s.params.memBytes →
      ∃ k, s.draws ≤ k ∧ (ws.foldl scrambleWindow s).mem.read a = Config.freeByte k) := by
  induction ws generalizing s with
  | nil => exact ⟨fun _ => rfl, fun h => absurd (fun w hw => absurd hw List.not_mem_nil) h⟩
  | cons w ws ih =>
    obtain ⟨hkept, hfreed⟩ := ih (scrambleWindow s w)
    obtain ⟨hin, hout⟩ := read_scrambleWindow s w a
    have hsplit : outside (w :: ws) a ↔ ¬ (w.base ≤ a ∧ a < w.base + w.size) ∧ outside ws a :=
      List.forall_mem_cons
    rw [hsplit, List.foldl_cons]
    refine ⟨fun ⟨hw, hws⟩ => (hkept hws).trans (hout hw), fun h ha => ?_⟩
    by_cases hws : outside ws a
    · have hw : w.base ≤ a ∧ a < w.base + w.size := by
        by_contra hw
        exact h ⟨hw, hws⟩
      obtain ⟨k, hk, -, hread⟩ := hin ⟨hw.1, hw.2, ha⟩
      exact ⟨k, hk, (hkept hws).trans hread⟩
    · obtain ⟨k, hk, hread⟩ := hfreed hws ha
      exact ⟨k, (Nat.le_add_right _ _).trans hk, hread⟩

/-- Settles O50: a reset frees the pending windows, which are the word's write windows, or none (R159; log 8). -/
theorem resetFreesOnlyTheWriteWindows : Obligations.ResetFreesOnlyTheWriteWindows := by
  intro s t w rest hinv hpend turn hstep
  obtain rfl := step_reset_next turn hstep
  have hwindows : s.geomValid = true → pendingWindows writeWindows (moving s rest) = written s w := fun hvalid =>
    pendingWindows_written (s := moving s rest) (State.busy_of_pending hinv hpend) hvalid hpend
  refine ⟨fun hvalid => ?_, fun hnone => ?_⟩
  · rw [abandonCommand, hwindows hvalid]
    have hread := read_scrambleWindows (written s w) (moving s rest)
    exact ⟨fun a => (hread a).1, fun a => (hread a).2⟩
  · have hnil : pendingWindows writeWindows (moving s rest) = [] := by
      cases hvalid : s.geomValid with
      | false => exact pendingWindows_of_noDescriptor _ hvalid
      | true =>
        rw [hvalid] at hnone
        exact (hwindows hvalid).trans (hnone.resolve_left nofun)
    rw [abandonCommand_of_noWindows hnil]
    exact ⟨rfl, rfl⟩

end Sys2Proof.Machine
end

section
/-! PROOF of O5, O6, O40: the step by whose turn it is, a word placed as the next command, and the state after reset. -/

namespace Sys2Proof.Machine

/-- With no turn named, the engine moves exactly when something is pending (R173; log 4). -/
theorem mover_of_noTurns {s : State} (hturns : s.turns = []) : s.mover = .engine ↔ s.pending ≠ none := by
  rw [State.mover, hturns]
  cases s.pending <;> simp

/-- Settles O5: the engine's turn runs the word's command, and the rest is `step` and `State.mover` by their cases (R172). -/
theorem stepRunsThePendingCommand : Obligations.StepRunsThePendingCommand := by
  refine ⟨fun s w i turn hpend hdec => ?_, fun s turn => ?_, fun s a rest hturns => ?_, fun s => mover_of_noTurns⟩
  · exact (step_of_engineTurn turn).trans (engineStep_of_command (s := s.tick) hpend hdec)
  · simp only [step, turn]
    rfl
  · simp only [State.mover, hturns]

/-- Placing a 32-bit word issues it and names the engine next; that turn used up, the issued state is left (R28; log 3). -/
theorem withFetchWord_tick (s : State) (w : Word) : (s.withFetchWord 32 w.toNat).tick = s.issue w := by
  have hword : BitVec.ofNat 32 (w.toNat % 2 ^ 32) = w := by
    rw [Nat.mod_eq_of_lt w.isLt, BitVec.ofNat_toNat, BitVec.setWidth_eq]
  rw [State.withFetchWord, hword]
  rfl

/-- Settles O6: the engine's turn at the state in which the word has been issued (R28, R172). -/
theorem placedWordRunsNext : Obligations.PlacedWordRunsNext := by
  intro s w i hdec
  rw [step_of_engineTurn rfl, withFetchWord_tick]
  exact engineStep_of_command (State.issue_pending s w) hdec

/-- Settles O40: the state after reset has the reset registers, over legal parameters and a memory that lists no byte (R158, R160). -/
theorem resetMeetsTheInvariant : Obligations.ResetMeetsTheInvariant :=
  State.resetRegisters_Inv (s := State.reset) (by decide) rfl

end Sys2Proof.Machine
end
